-- ==== Sys2Proof/Word.lean ====
section
/-! DEFINITION. The words of the VP8-EC core (00_scope.md R7, R9; 30_encoding.md R60): the widths the spec
gives, under the spec's own names. Arithmetic is over the integers and narrowed where a register is written. -/

namespace Sys2Proof

/-- A command or data word of the host (30_encoding.md R65). -/
abbrev CmdWord := BitVec 32

/-- A token word, the element of `TOK` (30_encoding.md R61). -/
abbrev TokWord := BitVec 16

/-- A tally word, total in the high half and count1 in the low half (30_encoding.md R64). -/
abbrev TallyWord := BitVec 32

/-- An 8-bit probability (00_scope.md R7). -/
abbrev Prob := BitVec 8

/-- A byte of the output (10_state.md R27). -/
abbrev Byte := BitVec 8

/-- A signed 16-bit coefficient level (00_scope.md R7, 40_token_encoder.md R85). -/
abbrev Coef := BitVec 16

/-- A probability slot, an index of `PW`, `P0`, `UPD` and `TALLY` (30_encoding.md R63). -/
abbrev Slot := Fin 1056

end Sys2Proof
end

