-- ==== Sys2Proof/Config.lean ====
section
/-! DEFINITION. What an implementation fixes (00_scope.md R7, 10_state.md R37, 93_implementation_defined.md U1 to
U6): the ROM contents and the two sizes, a record that the machine takes as an argument ("a model takes them as
arguments (fields of a configuration record) and proves nothing that depends on a particular value unless a claim
names the value"). The step function of the host's interface takes a state alone, so the record rides in the state as
a field that nothing writes (log 14). -/

namespace Sys2Proof

/-- The implementation parameters of 00_scope.md R7. -/
structure Config where
  /-- `MAX_PAGES`: the number of pages the token memory can hold (D9, U4). -/
  maxPages : Nat
  /-- `OUT_CAPACITY`: the number of bytes of the output memory (D12, U5). -/
  outCapacity : Nat
  /-- `P0`: the default probability table, a ROM (10_state.md R24, U1). -/
  p0 : Vector Prob 1056
  /-- `UPD`: the coefficient-update-probability table, a ROM (10_state.md R25, U2). -/
  upd : Vector Prob 1056
  /-- `EC`: the entropy-cost table, 256 non-negative integers, a ROM (10_state.md R26, U3; 256 entries: D15). -/
  ec : Vector Nat 256
  deriving DecidableEq, Repr, Inhabited

/-- The configuration of the machine after power-on. It has no body: nothing can be proved of a particular value
(log 14). -/
opaque Config.hw : Config

/-- The FREE VALUE of `EOP.max_pos` (10_state.md R30, U6: "its value is unspecified"), applied to a counter of the
state. It has no body (log 6). -/
opaque Config.freeMaxPos : Nat → Nat

/-- The FREE VALUE of a slot of `TOK` that nothing has written since its page was allocated (10_state.md R18, U9:
"unspecified"), by page and slot. It has no body (log 9). -/
opaque Config.freeTok : Nat → Nat → TokWord

/-- The FREE VALUE of a byte of `OUT` that nothing has written since power-on (10_state.md R27, U7, U8:
"unspecified"), by index. It has no body (log 8). -/
opaque Config.freeOut : Nat → Byte

end Sys2Proof
end

