-- ==== Sys2Proof/Syntax.lean ====
section
/-! DEFINITION. The instructions: one constructor per row of spec/opcode_table.json, ten host commands and the
two token words (30_encoding.md R71). Operands are the encoded fields, at the width the encoding gives them. -/

namespace Sys2Proof

/-- An instruction of the VP8-EC core. -/
inductive Instr
  /-- `INIT psize`: start a frame (45_frame_control.md R165; operand 30_encoding.md R66). -/
  | init (psize : BitVec 24)
  /-- `RECBLK ctx, type, first, last, c0..c15`: record one sub-block (40_token_encoder.md R88; operands
  30_encoding.md R67: `last` is a 5-bit two's complement field). -/
  | recblk (ctx : BitVec 2) (ctype : BitVec 2) (first : BitVec 4) (last : BitVec 5) (coefs : Vector Coef 16)
  /-- `APPD bit, slot`: append a dynamic token (41_token_buffer.md R105). -/
  | appd (bit : Bool) (slot : BitVec 14)
  /-- `APPC bit, prob`: append a constant token (41_token_buffer.md R106). -/
  | appc (bit : Bool) (prob : Prob)
  /-- `TALLY bit, slot`: tally one decision (42_statistics.md R117). -/
  | tally (bit : Bool) (slot : BitVec 14)
  /-- `FINALIZE`: choose the probabilities (43_finalizer.md R122). -/
  | finalize
  /-- `ESTIMATE`: the modelled size of the recorded tokens (44_range_coder.md R152). -/
  | estimate
  /-- `EMIT`: code the recorded tokens (44_range_coder.md R149). -/
  | emit
  /-- `FINISH`: close the stream (44_range_coder.md R153). -/
  | finish
  /-- `CLEAR`: release all pages (41_token_buffer.md R109). -/
  | clear
  /-- `TOK_DYN bit, slot`: a token word with a dynamic probability (44_range_coder.md R147). -/
  | tokDyn (bit : Bool) (slot : BitVec 14)
  /-- `TOK_CONST bit, prob`: a token word with a constant probability (44_range_coder.md R148). -/
  | tokConst (bit : Bool) (prob : Prob)
  deriving DecidableEq, Repr

end Sys2Proof
end

