-- ==== Sys2Proof/WellFormed.lean ====
section
/-! DEFINITION. Well-formed instructions: the operand constraints that DECODING checks (30_encoding.md R71, last
column, and R72 (c)): a slot is below 1056. The operand contract of RECBLK (40_token_encoder.md R86) is not one of
them: such a word decodes, and RECBLK refuses it when it runs (95_test_vectors.md V51). -/

namespace Sys2Proof

/-- The operand constraints of the opcode map (30_encoding.md R71). -/
def Instr.wellFormed : Instr → Bool
  | .init _ => true
  | .recblk _ _ _ _ _ => true
  | .appd _ slot => decide (slot.toNat < 1056)
  | .appc _ _ => true
  | .tally _ slot => decide (slot.toNat < 1056)
  | .finalize => true
  | .estimate => true
  | .emit => true
  | .finish => true
  | .clear => true
  | .tokDyn _ slot => decide (slot.toNat < 1056)
  | .tokConst _ _ => true

end Sys2Proof
end

