-- ==== Sys2Proof/Decode.lean ====
section
/-! DEFINITION. Decoding and encoding of command words and token words (30_encoding.md R61 to R75), the fetch of the
next command from the host's word list, the little-endian byte view of a word (20_memory.md R42, D18) and the
assembler text (30_encoding.md R74). -/

namespace Sys2Proof

/-- Why a word is no instruction. The first three are the cases (a), (b), (c) of 30_encoding.md R72. -/
inductive DecodeError
  /-- R72 (a): opcode 0x00 or 0x0A to 0xFF. -/
  | reservedOpcode
  /-- R72 (b): a defined opcode with a must-be-zero bit set. -/
  | mustBeZero
  /-- R72 (c): `APPD` or `TALLY` with a slot of 1056 or more. -/
  | slotOutOfRange
  /-- R62: a reserved token word (dynamic with a slot of 1056 or more, or constant with bits 13..8 not zero). -/
  | reservedToken
  /-- R73: a `RECBLK` command word without exactly eight data words. -/
  | incomplete
  deriving DecidableEq, Repr

/-! ### Bit fields -/

/-- The opcode of a command word, bits 31..24 (30_encoding.md R65). -/
def opcodeOf (w : CmdWord) : BitVec 8 := w.extractLsb' 24 8

/-- The value bit of a token word and of a `CMDT` command word, bit 15 (30_encoding.md R61, R68). -/
def bitField {n : Nat} (w : BitVec n) : Bool := w.getLsbD 15

/-- The slot field of a token word and of a `CMDT` command word, bits 13..0. -/
def slotField {n : Nat} (w : BitVec n) : BitVec 14 := w.extractLsb' 0 14

/-- The probability field of a token word and of a `CMDT` command word, bits 7..0. -/
def probField {n : Nat} (w : BitVec n) : Prob := w.extractLsb' 0 8

/-- Whether a command word is the command with these match and mask values: `(w & mask) = match` (R71). -/
def rowMatches (w mask pattern : CmdWord) : Bool := w &&& mask == pattern

/-- The number of 32-bit words of a command, fixed by the opcode alone (30_encoding.md R73). -/
def commandLength (w : CmdWord) : Nat := if opcodeOf w = 0x02 then 9 else 1

/-- The sixteen coefficients of the eight data words, the even one in the low half (30_encoding.md R67). -/
def coefsOf (d : Vector CmdWord 8) : Vector Coef 16 :=
  #v[d[0].extractLsb' 0 16, d[0].extractLsb' 16 16, d[1].extractLsb' 0 16, d[1].extractLsb' 16 16,
     d[2].extractLsb' 0 16, d[2].extractLsb' 16 16, d[3].extractLsb' 0 16, d[3].extractLsb' 16 16,
     d[4].extractLsb' 0 16, d[4].extractLsb' 16 16, d[5].extractLsb' 0 16, d[5].extractLsb' 16 16,
     d[6].extractLsb' 0 16, d[6].extractLsb' 16 16, d[7].extractLsb' 0 16, d[7].extractLsb' 16 16]

/-! ### Decoding -/

/-- The name of the reason why a word that no row of R71 matches is no command (R72 (a), (b)). -/
def noRow (w : CmdWord) : DecodeError :=
  if 0x01 ≤ opcodeOf w ∧ opcodeOf w ≤ 0x09 then .mustBeZero else .reservedOpcode

/-- `RECBLK` from its command word and the words that follow it (30_encoding.md R67). -/
def decodeRecblk (w : CmdWord) (data : List CmdWord) : Except DecodeError Instr :=
  match data with
  | [d0, d1, d2, d3, d4, d5, d6, d7] =>
    .ok (.recblk (w.extractLsb' 0 2) (w.extractLsb' 2 2) (w.extractLsb' 4 4) (w.extractLsb' 8 5)
      (coefsOf #v[d0, d1, d2, d3, d4, d5, d6, d7]))
  | _ => .error .incomplete

/-- One command from its command word and its data words, row by row of the opcode map (30_encoding.md R71). A
one-word command takes no data word. -/
def decodeCommand (w : CmdWord) (data : List CmdWord) : Except DecodeError Instr :=
  if rowMatches w 0xFF000000 0x01000000 then .ok (.init (w.extractLsb' 0 24))
  else if rowMatches w 0xFFFFE000 0x02000000 then decodeRecblk w data
  else if rowMatches w 0xFFFF4000 0x03000000 then
    if (slotField w).toNat < 1056 then .ok (.appd (bitField w) (slotField w)) else .error .slotOutOfRange
  else if rowMatches w 0xFFFF7F00 0x03004000 then .ok (.appc (bitField w) (probField w))
  else if rowMatches w 0xFFFF4000 0x04000000 then
    if (slotField w).toNat < 1056 then .ok (.tally (bitField w) (slotField w)) else .error .slotOutOfRange
  else if rowMatches w 0xFFFFFFFF 0x05000000 then .ok .finalize
  else if rowMatches w 0xFFFFFFFF 0x06000000 then .ok .estimate
  else if rowMatches w 0xFFFFFFFF 0x07000000 then .ok .emit
  else if rowMatches w 0xFFFFFFFF 0x08000000 then .ok .finish
  else if rowMatches w 0xFFFFFFFF 0x09000000 then .ok .clear
  else .error (noRow w)

/-- One token word (30_encoding.md R62). -/
def decodeToken (t : TokWord) : Except DecodeError Instr :=
  if t.getLsbD 14 then
    if t.extractLsb' 8 6 = 0 then .ok (.tokConst (bitField t) (probField t)) else .error .reservedToken
  else if (slotField t).toNat < 1056 then .ok (.tokDyn (bitField t) (slotField t)) else .error .reservedToken

/-! ### Encoding -/

/-- The token word of a dynamic token, `{bit, 0, slot}` (30_encoding.md R61). -/
def dynWord (bit : Bool) (slot : BitVec 14) : TokWord := BitVec.ofBool bit ++ 0#1 ++ slot

/-- The token word of a constant token, `{bit, 1, 000000, prob}` (30_encoding.md R61). -/
def constWord (bit : Bool) (prob : Prob) : TokWord := BitVec.ofBool bit ++ 1#1 ++ 0#6 ++ prob

/-- The data word of two neighbouring coefficients, the even one in the low half (30_encoding.md R67). -/
def dataWord (even odd : Coef) : CmdWord := odd ++ even

/-- The eight data words of a block (30_encoding.md R67). -/
def dataWords (co : Vector Coef 16) : List CmdWord :=
  [dataWord co[0] co[1], dataWord co[2] co[3], dataWord co[4] co[5], dataWord co[6] co[7],
   dataWord co[8] co[9], dataWord co[10] co[11], dataWord co[12] co[13], dataWord co[14] co[15]]

/-- What an instruction is written as: a command of one or nine words, or one token word. -/
inductive Encoded
  | command (words : List CmdWord)
  | token (t : TokWord)
  deriving DecidableEq, Repr

/-- The words of an instruction (30_encoding.md R65 to R71). -/
def encode : Instr → Encoded
  | .init psize => .command [0x01#8 ++ psize]
  | .recblk ctx ctype first last c =>
    .command ((0x02#8 ++ 0#11 ++ last ++ first ++ ctype ++ ctx : BitVec 32) :: dataWords c)
  | .appd bit slot => .command [0x03#8 ++ 0#8 ++ dynWord bit slot]
  | .appc bit prob => .command [0x03#8 ++ 0#8 ++ constWord bit prob]
  | .tally bit slot => .command [0x04#8 ++ 0#8 ++ dynWord bit slot]
  | .finalize => .command [0x05000000]
  | .estimate => .command [0x06000000]
  | .emit => .command [0x07000000]
  | .finish => .command [0x08000000]
  | .clear => .command [0x09000000]
  | .tokDyn bit slot => .token (dynWord bit slot)
  | .tokConst bit prob => .token (constWord bit prob)

/-- Decoding of what `encode` writes: a whole command, or one token word. -/
def decode : Encoded → Except DecodeError Instr
  | .command [] => .error .incomplete
  | .command (w :: data) =>
    if data.length + 1 = commandLength w then decodeCommand w data else .error .incomplete
  | .token t => decodeToken t

/-! ### The next command of the host's list -/

/-- What stands first in the words the host has delivered. -/
inductive Fetched
  /-- No whole command: nothing, or a `RECBLK` command word with fewer than eight data words (R73). -/
  | idle
  /-- Words that are no command (R72), with the words after them. -/
  | illegal (why : DecodeError) (rest : List CmdWord)
  /-- A command, with the words after it. -/
  | command (i : Instr) (rest : List CmdWord)
  deriving DecidableEq, Repr

/-- The first command of the words the host has delivered; its length is fixed by bits 31..24 of its first word
(30_encoding.md R73; log 2, log 15). -/
def fetchCommand : List CmdWord → Fetched
  | [] => .idle
  | w :: ws =>
    if ws.length + 1 < commandLength w then .idle
    else
      match decodeCommand w (ws.take (commandLength w - 1)) with
      | .ok i => .command i (ws.drop (commandLength w - 1))
      | .error e => .illegal e (ws.drop (commandLength w - 1))

/-! ### The opcode table's numbering of bits -/

/-- The command whose bits are `w`, bit 0 the least significant bit of the first word and a later word's bits
counting on, as the words the host delivers: as many as the opcode says, bits at or above `nbits` zero. -/
def tableWords (nbits w : Nat) : List CmdWord :=
  let v := w % 2 ^ nbits
  (List.range (commandLength (BitVec.ofNat 32 v))).map fun k => BitVec.ofNat 32 (v / 2 ^ (32 * k))

/-- The instruction that the decoder reads from an instruction whose bits are `w`, numbered as
spec/opcode_table.json numbers them: a row of 16 bits is a token word, a longer one a command. -/
def decodeTableWord (nbits w : Nat) : Option Instr :=
  if nbits ≤ 16 then (decodeToken (BitVec.ofNat 16 (w % 2 ^ nbits))).toOption
  else (decode (.command (tableWords nbits w))).toOption

/-! ### The byte view of a word -/

/-- The four bytes of a 32-bit word as a host sees them, byte 0 holding bits 7..0 (20_memory.md R42). -/
def bytesOfWord (w : BitVec 32) : List Byte :=
  [w.extractLsb' 0 8, w.extractLsb' 8 8, w.extractLsb' 16 8, w.extractLsb' 24 8]

/-- The 32-bit word of four bytes, the first the least significant (20_memory.md R42). -/
def wordOfBytes (b0 b1 b2 b3 : Byte) : BitVec 32 := b3 ++ b2 ++ b1 ++ b0

/-- The words of a byte list, four bytes each, least significant first; bytes that make no whole word are not
delivered yet. -/
def wordsOfBytes : List Byte → List CmdWord
  | b0 :: b1 :: b2 :: b3 :: rest => wordOfBytes b0 b1 b2 b3 :: wordsOfBytes rest
  | _ => []

/-- The first command of a list of bytes: total on any bytes (20_memory.md R42, 30_encoding.md R72, R73). -/
def fetchBytes (bs : List Byte) : Fetched := fetchCommand (wordsOfBytes bs)

/-! ### Assembler text -/

/-- A bit as the assembler writes it. -/
def asmBit (b : Bool) : String := if b then "1" else "0"

/-- The assembler text of an instruction (30_encoding.md R74); the two token words in the trace notation of R74. -/
def asm : Instr → String
  | .init psize => "INIT " ++ toString psize.toNat
  | .recblk ctx ctype first last c =>
    "RECBLK ctx=" ++ toString ctx.toNat ++ " type=" ++ toString ctype.toNat ++ " first=" ++ toString first.toNat
      ++ " last=" ++ toString last.toInt
      ++ " c=[" ++ String.intercalate ", " (c.toList.map fun x => toString x.toInt) ++ "]"
  | .appd bit slot => "APPD " ++ asmBit bit ++ ", " ++ toString slot.toNat
  | .appc bit prob => "APPC " ++ asmBit bit ++ ", " ++ toString prob.toNat
  | .tally bit slot => "TALLY " ++ asmBit bit ++ ", " ++ toString slot.toNat
  | .finalize => "FINALIZE"
  | .estimate => "ESTIMATE"
  | .emit => "EMIT"
  | .finish => "FINISH"
  | .clear => "CLEAR"
  | .tokDyn bit slot => "D(" ++ asmBit bit ++ ", " ++ toString slot.toNat ++ ")"
  | .tokConst bit prob => "C(" ++ asmBit bit ++ ", " ++ toString prob.toNat ++ ")"

/-- The pseudo-instruction `TALLY*n bit, slot`: `n` consecutive `TALLY bit, slot` (30_encoding.md R74). -/
def tallyTimes (n : Nat) (bit : Bool) (slot : BitVec 14) : List Instr := List.replicate n (.tally bit slot)

end Sys2Proof
end

