-- ==== Sys2Proof/Machine/State.lean ====
section
/-! DEFINITION. The state of the VP8-EC core, every piece of 10_state.md R10 under the spec's name; the faults and
refusals; the state after power-on. State is plain data. The ROMs and the sizes are not state (10_state.md R37): they
are the record `Config`, which the state carries and nothing writes (log 14). -/

namespace Sys2Proof.Machine

/-- How far the frame has progressed (10_state.md R32, 45_frame_control.md R166). -/
inductive Phase
  /-- `UNINIT`: after power-on, no `INIT` yet. -/
  | uninit
  /-- `REC`: blocks are being tokenised and tallied. -/
  | recording
  /-- `FIN`: `FINALIZE` has run. -/
  | finalized
  /-- `EMITTED`: `EMIT` has run, the stream is still open. -/
  | emitted
  /-- `DONE`: `FINISH` has run. -/
  | done
  deriving DecidableEq, Repr

/-- The names the model's `fault` mark can take (60_exceptions.md R176, R181). -/
inductive FaultName
  /-- F1: a write at `pos ≥ OUT_CAPACITY`. -/
  | outOverflow
  /-- F2: `count1` above 65535. -/
  | tallyCountOverflow
  /-- F3: a carry with no held byte. -/
  | carryNoHeld
  deriving DecidableEq, Repr

/-- What has been written in a memory space (20_memory.md R40): pairs of an element number and its element, in one
canonical form, element numbers strictly rising. An element that is not listed has not been written, and the space,
which is total (R50), reads there as a free value (log 8, log 9). -/
abbrev Memory (w : Nat) := List (Nat × BitVec w)

/-- The end-of-partition record (10_state.md R30, 44_range_coder.md R150). -/
structure Eop where
  /-- `EOP.range`. -/
  range : BitVec 8
  /-- `EOP.value`. -/
  value : BitVec 24
  /-- `EOP.nb_bits`, two's complement. -/
  nbBits : BitVec 5
  /-- `EOP.pos`. -/
  pos : Nat
  /-- `EOP.run`. -/
  run : Nat
  /-- `EOP.max_pos`: its value is unspecified (U6); `EMIT` writes a free value (log 6). -/
  maxPos : Nat
  /-- `EOP.error`: always written 0. -/
  error : Bool
  deriving DecidableEq, Repr

/-- A traversal in progress inside `EMIT` or `ESTIMATE` (10_state.md R31 (b)): the token words still to visit,
oldest first, and for `ESTIMATE` the sum so far. The MODEL's own: it exists only inside a command (log 3). -/
inductive Pass
  /-- Inside `EMIT`. -/
  | emit (todo : List TokWord)
  /-- Inside `ESTIMATE`, with the sum of the costs so far. -/
  | estimate (todo : List TokWord) (acc : Nat)
  deriving DecidableEq, Repr

/-- The architectural state (10_state.md R10), and below it the model's own fields. -/
structure State where
  /-- The configuration (00_scope.md R7): the ROMs `P0`, `UPD`, `EC` and the sizes. Not state (10_state.md R37): a
  parameter of the step function, which nothing writes (log 14). -/
  cfg : Config
  /-- `range`, the current range minus one (R11). -/
  range : BitVec 8
  /-- `value`, the low end of the interval (R12). -/
  value : BitVec 24
  /-- `nb_bits`, two's complement (R13). -/
  nbBits : BitVec 5
  /-- `run`, the pending 0xFF bytes (R14; log 11). -/
  run : Nat
  /-- `pos`, the bytes written to `OUT` (R15; log 11). -/
  pos : Nat
  /-- `held`, the byte kept back; 0xFF means empty (R16). -/
  held : BitVec 8
  /-- `TOK`, the token memory, at `tokAddr page slot` (R18; log 9). -/
  tok : Memory 16
  /-- `npages`, the allocated pages (R19). -/
  npages : Nat
  /-- `left`, the free slots of the last page (R19). -/
  left : Nat
  /-- `page_size`, the page capacity in effect (R19). -/
  pageSize : Nat
  /-- `tb_error`, the sticky allocation error (R20). -/
  tbError : Bool
  /-- `TALLY[0..1055]` (R22). -/
  tally : Vector TallyWord 1056
  /-- `PW[0..1055]`, the working probability table (R23). -/
  pw : Vector Prob 1056
  /-- `OUT`, the output byte memory (R27; log 8). -/
  out : List Host.Cell
  /-- `size_est`, the result of the last `ESTIMATE` (R28; log 11). -/
  sizeEst : Nat
  /-- `dirty` (R29). -/
  dirty : Bool
  /-- `EOP`, the end-of-partition record (R30). -/
  eop : Eop
  /-- `phase` (R32). -/
  phase : Phase
  /-- The model's sticky mark `fault` (R33). -/
  fault : Option FaultName
  /-- The model's sticky mark `refused` (R33). -/
  refused : Bool
  /-- The MODEL's own: the command words the host has delivered and the core has not taken (D2; log 1). -/
  cmds : List CmdWord
  /-- The MODEL's own: the traversal in progress inside `EMIT` or `ESTIMATE`, none between commands (log 3). -/
  pass : Option Pass
  /-- The MODEL's own: the counter that names the next free value (log 6). -/
  freeCount : Nat
  deriving DecidableEq, Repr

/-- Why the machine stops with a fault (60_exceptions.md R176, R181). Each carries the state as the stopped command
left it, with what was written before the fault kept and no traversal open; for F1, F2, F3 the `fault` mark is set in
it (log 3, log 4). -/
inductive Fault
  /-- F1 `OutOverflow`: raised by `WRITEBYTE` within `EMIT`, `FINISH` and a token word under `EMIT`, at
  `pos ≥ OUT_CAPACITY` (44_range_coder.md R146). Safe: the model stops where the hardware's behaviour is unknown. -/
  | outOverflow (left : State)
  /-- F2 `TallyCountOverflow`: raised by `RECORD` within `RECBLK` and `TALLY`, when `count1` would exceed 65535
  (42_statistics.md R118). Safe, for the same reason. -/
  | tallyCountOverflow (left : State)
  /-- F3 `CarryNoHeld`: raised by `PACK` within `EMIT`, `FINISH` and a token word under `EMIT`, on a carry with no
  held byte (44_range_coder.md R144). Safe; unreachable from `INIT`. -/
  | carryNoHeld (left : State)
  /-- The model's own: a reserved token word would be executed (30_encoding.md R62: "`EMIT` and `ESTIMATE` never
  meet one"). Raised inside `EMIT`, `ESTIMATE`. Safe; unreachable from `INIT` (log 10). -/
  | reservedToken (left : State)
  deriving DecidableEq, Repr

/-- Why a command is not executed (60_exceptions.md R176, R182). Each but the first carries the state, unchanged
but for the `refused` mark (log 4). -/
inductive Refusal
  /-- An arm of `exec` without a meaning. Raised by no arm of this model. Safe. -/
  | notModelled (mnemonic : String)
  /-- X1 `IllegalCommand`: raised by decoding (30_encoding.md R72), and by `APPD` and `TALLY` on a slot of 1056 or
  more. Safe: the spec defines no behaviour. -/
  | illegalCommand (left : State)
  /-- X2 `PhaseViolation`: raised by every command but `INIT` in a phase that does not admit it
  (45_frame_control.md R167). Safe: the source forbids or does not describe it. -/
  | phaseViolation (left : State)
  /-- X3 `MalformedBlock`: raised by `RECBLK` on operands outside its contract (40_token_encoder.md R86). Safe: the
  source calls it undefined. -/
  | malformedBlock (left : State)
  /-- The model's own: a token word executed outside `EMIT` and `ESTIMATE`. Raised by `TOK_DYN` and `TOK_CONST`
  when no traversal is in progress (opcode table: "not a host command"). Safe (log 3). -/
  | tokenOutsidePass (left : State)
  deriving DecidableEq, Repr

/-- The outcome of a meaning. -/
abbrev Result := Host.Outcome State Fault Refusal

/-- The power-on state with arbitrary values everywhere the spec leaves them unspecified (70_reset_and_hazards.md
R196): only `phase`, the marks and the configuration are defined; no command is delivered and none is in progress. -/
def State.powerOn (any : State) : State :=
  { any with phase := .uninit, fault := none, refused := false, cmds := [], pass := none }

/-- The values the model names for what the spec leaves unspecified at power-on (DESIGN CHOICE, unsafe: log 5). -/
def State.namedValues : State :=
  { cfg := Config.hw
    range := 254, value := 0, nbBits := -8, run := 0, pos := 0, held := 0xFF
    tok := [], npages := 0, left := 0, pageSize := 8192, tbError := false
    tally := Vector.replicate 1056 0, pw := Vector.replicate 1056 0, out := []
    sizeEst := 0, dirty := false
    eop := { range := 0, value := 0, nbBits := 0, pos := 0, run := 0, maxPos := 0, error := false }
    phase := .uninit, fault := none, refused := false
    cmds := [], pass := none, freeCount := 0 }

/-- The machine right after power-on (10_state.md R36, 70_reset_and_hazards.md R196), unspecified values as log 5
names them. -/
def State.reset : State := State.powerOn State.namedValues

end Sys2Proof.Machine
end

