-- ==== Sys2Proof/Machine/Flags.lean ====
section
/-! DEFINITION. The three flags of the core (10_state.md R34): `tb_error`, `dirty` and the transient carry bit. No
command writes a flag as a side effect other than: TBAPPEND sets `tb_error`, FINALIZE writes `dirty`, INIT clears
both, CLEAR clears `tb_error`. -/

namespace Sys2Proof.Machine

/-- The event E1 `TbAllocFail`: a page allocation fails (60_exceptions.md R176, R177; 41_token_buffer.md R103). -/
def State.setTbError (s : State) : State := { s with tbError := true }

/-- What INIT and CLEAR do to the allocation error (10_state.md R20). -/
def State.clearTbError (s : State) : State := { s with tbError := false }

/-- What FINALIZE and INIT do to `dirty` (10_state.md R29). -/
def State.writeDirty (d : Bool) (s : State) : State := { s with dirty := d }

/-- The carry bit of an extracted byte group, its bit 8 (10_state.md R34, 44_range_coder.md R142). -/
def carryBit (bits : BitVec 24) : Bool := bits.getLsbD 8

/-- The byte of an extracted byte group, its bits 7..0 (44_range_coder.md R142). -/
def groupByte (bits : BitVec 24) : Byte := bits.extractLsb' 0 8

end Sys2Proof.Machine
end

