-- ==== Sys2Proof/Machine/Operands.lean ====
section
/-! DEFINITION. Operand forms: the slot index and its address (30_encoding.md R63), the band table
(40_token_encoder.md R87), the operands of RECBLK and their contract (R85, R86), the fields of a tally word
(30_encoding.md R64), the places of tokens in TOK (41_token_buffer.md R107, R108), tables over the slots. -/

namespace Sys2Proof.Machine

/-! ### Slot indices -/

/-- The (type, band, context) part of a slot index; with a node it is a slot (30_encoding.md R63). -/
structure SlotBase where
  ctype : Fin 4
  band : Fin 8
  ctx : Fin 3
  deriving DecidableEq, Repr

/-- `SLOT(type, band, ctx, node) = 11·(ctx + 3·(band + 8·type)) + node` (30_encoding.md R63). -/
def slotOf (b : SlotBase) (node : Fin 11) : Slot :=
  ⟨11 * (b.ctx.val + 3 * (b.band.val + 8 * b.ctype.val)) + node.val, by
    have := b.ctx.isLt; have := b.band.isLt; have := b.ctype.isLt; have := node.isLt; omega⟩

/-- The inverse of `SLOT`: the base of a slot (30_encoding.md R63). -/
def baseOfSlot (s : Slot) : SlotBase :=
  { ctype := ⟨s.val / 264, by omega⟩
    band := ⟨s.val / 33 % 8, Nat.mod_lt _ (by decide)⟩
    ctx := ⟨s.val / 11 % 3, Nat.mod_lt _ (by decide)⟩ }

/-- The inverse of `SLOT`: the node of a slot (30_encoding.md R63). -/
def nodeOfSlot (s : Slot) : Fin 11 := ⟨s.val % 11, Nat.mod_lt _ (by decide)⟩

/-- The slot of a 14-bit slot field, where it is one (30_encoding.md R62, R72 (c)). -/
def slotOfField (f : BitVec 14) : Option Slot := if h : f.toNat < 1056 then some ⟨f.toNat, h⟩ else none

/-- The 14-bit field of a slot. -/
def fieldOfSlot (s : Slot) : BitVec 14 := BitVec.ofNat 14 s.val

/-- The table `BAND[0..16]` (40_token_encoder.md R87). -/
def bandTable : List (Fin 8) := [0, 1, 2, 3, 6, 4, 5, 6, 6, 6, 6, 6, 6, 6, 6, 7, 0]

/-- `BAND[n]` (40_token_encoder.md R87). -/
def band (n : Nat) : Fin 8 := bandTable.getD n 0

/-! ### The operands of RECBLK -/

/-- The `ctx` operand of an admitted block as a context; 3 is not admitted (40_token_encoder.md R86). -/
def ctxOperand (ctx : BitVec 2) : Fin 3 := ⟨ctx.toNat % 3, Nat.mod_lt _ (by decide)⟩

/-- The base of the first token: "band=first" (40_token_encoder.md R87, R88). -/
def firstBase (ctx ctype : BitVec 2) (first : BitVec 4) : SlotBase :=
  { ctype := ctype.toFin, band := ⟨first.toNat % 8, Nat.mod_lt _ (by decide)⟩, ctx := ctxOperand ctx }

/-- The operand contract of RECBLK, the six conditions of 40_token_encoder.md R86 in its order (the second holds of
every 2-bit field). -/
abbrev BlockAdmitted (ctx : BitVec 2) (first : BitVec 4) (last : BitVec 5) (co : Vector Coef 16) : Prop :=
  ctx ≠ 3 ∧ first.toNat ≤ 1
    ∧ (last.toInt = -1 ∨ (first.toNat : Int) ≤ last.toInt ∧ last.toInt ≤ 15)
    ∧ (∀ i : Fin 16, (i.val : Int) = last.toInt → co[i] ≠ 0)
    ∧ (∀ i : Fin 16, first.toNat ≤ i.val → last.toInt < (i.val : Int) → co[i] = 0)
    ∧ (∀ i : Fin 16, first.toNat ≤ i.val → co[i].toInt.natAbs ≤ 2047)

/-! ### Tally words -/

/-- `count1`, bits 15..0 of a tally word (30_encoding.md R64). -/
def tallyCount (w : TallyWord) : Nat := (w.extractLsb' 0 16).toNat

/-- `total`, bits 31..16 of a tally word (30_encoding.md R64). -/
def tallyTotal (w : TallyWord) : Nat := (w.extractLsb' 16 16).toNat

/-- The tally word `(total << 16) | count1` (30_encoding.md R64). -/
def tallyWord (total count1 : Nat) : TallyWord := BitVec.ofNat 16 total ++ BitVec.ofNat 16 count1

/-! ### Places in TOK -/

/-- The element number of a slot of a page: a pairing of the two numbers. Element numbers of TOK are the model's own:
the spec names a slot by its pair (20_memory.md R40). -/
def tokAddr (page slot : Nat) : Nat := Nat.pair page slot

/-- The order in which a traversal visits the slots (41_token_buffer.md R108): page by page, each from
`page_size - 1` down to 0, the last page down to `left`. -/
def traversal (npages left pageSize : Nat) : List (Nat × Nat) :=
  (List.range npages).flatMap fun p =>
    (List.range (pageSize - if p + 1 = npages then left else 0)).map fun j => (p, pageSize - 1 - j)

/-- The number of recorded tokens, `npages·page_size - left` (10_state.md R19). -/
def State.ntok (s : State) : Nat := s.npages * s.pageSize - s.left

/-! ### Tables over the slots -/

/-- The table of a function. -/
def tableOf {α : Type} {n : Nat} (f : Fin n → α) : Vector α n := ⟨(List.ofFn f).toArray, by simp⟩

/-- Whether a check holds at some index. -/
def anyIndex {n : Nat} (p : Fin n → Bool) : Bool := (List.finRange n).any p

end Sys2Proof.Machine
end

