-- ==== Sys2Proof/Machine/Ops.lean ====
section
/-! DEFINITION. The shared operations: sequencing of outcomes, raising a fault and refusing a command (the core's only
abnormal events: 60_exceptions.md R175 says there is no trap mechanism, no vector, no saved register and no return),
memory access, and the micro-operations of the spec: TBAPPEND, RECORD, BitCost, WRITEBYTE, PACK, EXTRACT, PUTBIT. -/

namespace Sys2Proof.Machine

/-! ### Outcomes -/

/-- One effect after another: the second runs on the state the first leaves; a fault or a refusal ends the command
(60_exceptions.md R181). -/
def andThen (r : Result) (f : State → Result) : Result :=
  match r with
  | .next s => f s
  | .fault x => .fault x
  | .refused x => .refused x

/-- `raise Fault(name)` (60_exceptions.md R181): the command stops at that point, what it has written stays written,
and the sticky `fault` mark is set to the name. A traversal in progress is ended by `endOnFault` (the model's choice, log
3). -/
def raiseFault (n : FaultName) (s : State) : Result :=
  match n with
  | .outOverflow => .fault (.outOverflow { s with fault := some n })
  | .tallyCountOverflow => .fault (.tallyCountOverflow { s with fault := some n })
  | .carryNoHeld => .fault (.carryNoHeld { s with fault := some n })

/-- The end of the traversal in progress, with what it wrote kept: the cursor exists only inside a command
(10_state.md R31). -/
def State.endTraversal (s : State) : State := { s with pass := none }

/-- A fault whose state is changed by a function. -/
def Fault.mapLeft (f : State → State) : Fault → Fault
  | .outOverflow s => .outOverflow (f s)
  | .tallyCountOverflow s => .tallyCountOverflow (f s)
  | .carryNoHeld s => .carryNoHeld (f s)
  | .reservedToken s => .reservedToken (f s)

/-- A fault inside a traversal ends it: the state that the fault carries has no traversal open, so that a step from it
takes the next host command. DESIGN CHOICE: the spec promises nothing after a fault (60_exceptions.md R181), and has no
cursor between commands (10_state.md R31; log 3, log 4). -/
def endOnFault (r : Result) : Result :=
  match r with
  | .next s => .next s
  | .fault x => .fault (x.mapLeft State.endTraversal)
  | .refused x => .refused x

/-- The sticky `refused` mark (60_exceptions.md R182). -/
def State.markRefused (s : State) : State := { s with refused := true }

/-- `refuse(IllegalCommand)` (60_exceptions.md R182): nothing changes but the mark. -/
def refuseIllegal (s : State) : Result := .refused (.illegalCommand s.markRefused)

/-- `refuse(PhaseViolation)` (60_exceptions.md R182). -/
def refusePhase (s : State) : Result := .refused (.phaseViolation s.markRefused)

/-- `refuse(MalformedBlock)` (60_exceptions.md R182). -/
def refuseBlock (s : State) : Result := .refused (.malformedBlock s.markRefused)

/-! ### Memory -/

/-- What has been written at an element number, none where nothing has (20_memory.md R40, R45). -/
def Memory.read {w : Nat} : Memory w → Nat → Option (BitVec w)
  | [], _ => none
  | (b, x) :: m, a => if a = b then some x else Memory.read m a

/-- Writing one whole element (20_memory.md R41, R43), keeping the element numbers strictly rising. -/
def Memory.write {w : Nat} : Memory w → Nat → BitVec w → Memory w
  | [], a, v => [(a, v)]
  | (b, x) :: m, a, v =>
    if a < b then (a, v) :: (b, x) :: m
    else if a = b then (a, v) :: m
    else (b, x) :: Memory.write m a v

/-- The canonical form: element numbers strictly rising. (An unlisted element has not been written and reads as a free
value, which has no body: nothing can be equal to it by evaluation, so what is listed is what has been written.) -/
abbrev Memory.wf {w : Nat} (m : Memory w) : Prop := m.Pairwise fun p q => p.1 < q.1

/-- `MemRead(OUT, k)`, total (20_memory.md R50): a byte that nothing has written is a free value (log 8). -/
def State.outByte (s : State) (k : Nat) : Byte := (Memory.read s.out k).getD (Config.freeOut k)

/-- Whether a byte of `OUT` has been written since power-on. -/
def State.outWritten (s : State) (k : Nat) : Bool := (Memory.read s.out k).isSome

/-- `MemRead(TOK, (page, slot))`, total (20_memory.md R50): a slot that nothing has written is a free value (log 9). -/
def State.tokWord (s : State) (page slot : Nat) : TokWord :=
  (Memory.read s.tok (tokAddr page slot)).getD (Config.freeTok page slot)

/-- Whether a slot of `TOK` has been written since the pages were last released. -/
def State.tokWritten (s : State) (page slot : Nat) : Bool := (Memory.read s.tok (tokAddr page slot)).isSome

/-- `MemRead(TALLY, s)`. -/
def State.tallyAt (s : State) (i : Slot) : TallyWord := s.tally[i]

/-- `MemRead(PW, s)`. -/
def State.pwAt (s : State) (i : Slot) : Prob := s.pw[i]

/-! ### The token buffer -/

/-- `tokseq`: the token words appended since the last release, oldest first, read in the order of the traversal
(10_state.md R21, 41_token_buffer.md R108). -/
def State.tokseq (s : State) : List TokWord :=
  (traversal s.npages s.left s.pageSize).map fun q => s.tokWord q.1 q.2

/-- The slot that the next token word is stored in, `(npages - 1, left - 1)`: a page is filled from its highest slot
downward (41_token_buffer.md R102, D23). -/
def State.nextSlot (s : State) : Nat × Nat := (s.npages - 1, s.left - 1)

/-- Storing a token word in the next free slot of the last page (41_token_buffer.md R102, from `left <- left - 1`). -/
def storeToken (t : TokWord) (s : State) : State :=
  { s with left := s.left - 1, tok := Memory.write s.tok (tokAddr s.nextSlot.1 s.nextSlot.2) t }

/-- Allocating a page (41_token_buffer.md R102): its slots are all free, and nothing has written them. -/
def allocPage (s : State) : State := { s with npages := s.npages + 1, left := s.pageSize }

/-- Whether an append needs a new page: `npages = 0 or left = 0` (41_token_buffer.md R102). -/
def State.noRoom (s : State) : Bool := s.npages == 0 || s.left == 0

/-- `TBAPPEND(t)` (41_token_buffer.md R102 to R104). -/
def tbAppend (t : TokWord) (s : State) : State :=
  if s.tbError then s
  else if s.noRoom then
    if s.npages = s.cfg.maxPages then s.setTbError else storeToken t (allocPage s)
  else storeToken t s

/-- Releasing all pages: `npages <- 0 ; left <- 0 ; tokseq <- []` (41_token_buffer.md R109, 44_range_coder.md R151).
What released pages hold is unspecified and never read (U9): nothing is written there any more (log 9). -/
def releasePages (s : State) : State := { s with npages := 0, left := 0, tok := [] }

/-! ### Statistics -/

/-- The entry after `RECORD` as `(count1', total')`, before the width check (42_statistics.md R116). -/
def recordStep (count1 total : Nat) (bit : Bool) : Nat × Nat :=
  if total = 65535 then ((count1 + 1 + 2 * bit.toNat) / 2, (total + 1) / 2)
  else (count1 + bit.toNat, total + 1)

/-- `RECORD(slot, bit)` (42_statistics.md R116, R118). -/
def record (i : Slot) (bit : Bool) (s : State) : Result :=
  let w := s.tallyAt i
  let e := recordStep (tallyCount w) (tallyTotal w) bit
  if 65535 < e.1 then raiseFault .tallyCountOverflow s
  else .next { s with tally := s.tally.set i (tallyWord e.2 e.1) }

/-! ### Costs -/

/-- `MemRead(EC, x)`: the entropy cost at an 8-bit index (10_state.md R26). -/
def costAt (c : Config) (x : BitVec 8) : Nat := c.ec[x.toFin]

/-- `BitCost(bit, p)`: `EC[p]` for bit 0, `EC[255 - p]` for bit 1 (43_finalizer.md R124). -/
def bitCost (c : Config) (bit : Bool) (p : Prob) : Nat := if bit then costAt c (255 - p) else costAt c p

/-! ### The range coder and the packer -/

/-- `clz8(x)`: the number of leading zero bits of `x` written in 8 bits (00_scope.md section 6; the values of
44_range_coder.md R139). -/
def clz8 (x : Nat) : Nat :=
  if 128 ≤ x then 0 else if 64 ≤ x then 1 else if 32 ≤ x then 2 else if 16 ≤ x then 3
  else if 8 ≤ x then 4 else if 4 ≤ x then 5 else if 2 ≤ x then 6 else if 1 ≤ x then 7 else 8

/-- `split = ((range·prob) >> 8) + 1` on the stored range (44_range_coder.md R138). -/
def splitOf (range prob : Nat) : Nat := range * prob / 256 + 1

/-- The true new range `Rn` before normalisation (44_range_coder.md R139). -/
def newRange (bit : Bool) (range split : Nat) : Nat := if bit then range + 1 - split else split

/-- `WRITEBYTE(b)` (44_range_coder.md R146). -/
def writeByte (b : Byte) (s : State) : Result :=
  if s.cfg.outCapacity ≤ s.pos then raiseFault .outOverflow s
  else .next { s with out := Memory.write s.out s.pos b, pos := s.pos + 1 }

/-- `repeat n times: WRITEBYTE(b)` (44_range_coder.md R144, R145, R153). -/
def writeBytes : Nat → Byte → State → Result
  | 0, _, s => .next s
  | n + 1, b, s => andThen (writeByte b s) (writeBytes n b)

/-- `if held != 0xFF: WRITEBYTE(held)` (44_range_coder.md R145, R153). -/
def flushHeld (s : State) : Result :=
  if s.held = 0xFF then .next s else writeByte s.held s

/-- The bytes `PACK` writes when the group carries: the held byte plus one, and the run as 0x00 (44_range_coder.md
R144). -/
def resolveCarry (s : State) : Result :=
  if s.held = 0xFF then raiseFault .carryNoHeld s
  else andThen (writeByte (s.held + 1) s) (writeBytes s.run 0x00)

/-- The bytes `PACK` writes when the group does not carry: the held byte, if any, and the run as 0xFF
(44_range_coder.md R145). -/
def flushPending (s : State) : Result :=
  andThen (flushHeld s) (writeBytes s.run 0xFF)

/-- `PACK(bits)` (44_range_coder.md R143 to R145). -/
def pack (bits : BitVec 24) (s : State) : Result :=
  if groupByte bits = 0xFF then .next { s with run := s.run + 1 }
  else
    andThen (if carryBit bits then resolveCarry s else flushPending s) fun s' =>
      .next { s' with run := 0, held := groupByte bits }

/-- `EXTRACT` (44_range_coder.md R142). -/
def extract (s : State) : Result :=
  let k := (8 + s.nbBits.toInt).toNat
  let bits := s.value >>> k
  pack bits { s with value := s.value - (bits <<< k), nbBits := BitVec.ofInt 5 (s.nbBits.toInt - 8) }

/-- The registers after the arithmetic of `PUTBIT`, before a byte group leaves (44_range_coder.md R137 to R141). The
integers are narrowed to the registers' widths; they fit in every state reached from `INIT` (R156; log 12). -/
def codeBit (bit : Bool) (prob : Prob) (s : State) : State :=
  let split := splitOf s.range.toNat prob.toNat
  let rn := newRange bit s.range.toNat split
  let shift := clz8 rn
  { s with
    range := BitVec.ofNat 8 (rn * 2 ^ shift) - 1
    value := BitVec.ofNat 24 ((s.value.toNat + if bit then split else 0) * 2 ^ shift)
    nbBits := BitVec.ofInt 5 (s.nbBits.toInt + shift) }

/-- `PUTBIT(bit, prob)` (44_range_coder.md R137). -/
def putBit (bit : Bool) (prob : Prob) (s : State) : Result :=
  let s' := codeBit bit prob s
  if 0 < s'.nbBits.toInt then extract s' else .next s'

/-- `repeat n times: PUTBIT(0, 128)` (44_range_coder.md R153). -/
def padBits : Nat → State → Result
  | 0, s => .next s
  | n + 1, s => andThen (putBit false 128 s) (padBits n)

end Sys2Proof.Machine
end

