-- ==== Sys2Proof/Machine/Finalizer.lean ====
section
/-! DEFINITION. The probability finalizer: the command FINALIZE (43_finalizer.md R122 to R134). Its arithmetic is
over the integers (R132). -/

namespace Sys2Proof.Machine

/-- `CalcTokenProba(nb, total)` as an integer (43_finalizer.md R123). -/
def calcTokenProba (nb total : Nat) : Int := if nb = 0 then 255 else 255 - ((nb * 255 / total : Nat) : Int)

/-- `new_p`: the measured probability in 8 bits; it lies in 0..255 in every reachable state (43_finalizer.md R123;
log 12). -/
def measuredProb (nb total : Nat) : Prob := BitVec.ofInt 8 (calcTokenProba nb total)

/-- `BranchCost(nb, total, p) = nb·BitCost(1,p) + (total-nb)·BitCost(0,p)`, signed (43_finalizer.md R125, R132). -/
def branchCost (c : Config) (nb total : Nat) (p : Prob) : Int :=
  (nb : Int) * bitCost c true p + ((total : Int) - nb) * bitCost c false p

/-- `old_cost`: keeping the default, plus signalling no update (43_finalizer.md R127). -/
def oldCost (c : Config) (nb total : Nat) (oldP u : Prob) : Int :=
  branchCost c nb total oldP + bitCost c false u

/-- `new_cost`: the measured probability, signalling the update, and eight bits at 256 units each (43_finalizer.md
R128). -/
def newCost (c : Config) (nb total : Nat) (newP u : Prob) : Int :=
  branchCost c nb total newP + bitCost c true u + 8 * 256

/-- Whether a slot with this tally word adopts the measured probability: strictly cheaper (43_finalizer.md R129). -/
def adopts (c : Config) (i : Slot) (w : TallyWord) : Bool :=
  let nb := tallyCount w
  let total := tallyTotal w
  decide (newCost c nb total (measuredProb nb total) c.upd[i] < oldCost c nb total c.p0[i] c.upd[i])

/-- The probability FINALIZE writes for a slot (43_finalizer.md R122, R129). -/
def finalProb (c : Config) (i : Slot) (w : TallyWord) : Prob :=
  if adopts c i w then measuredProb (tallyCount w) (tallyTotal w) else c.p0[i]

/-- Whether a slot sets `dirty`: it adopts a probability different from its default (43_finalizer.md R122, R130). -/
def slotDirty (c : Config) (i : Slot) (w : TallyWord) : Bool :=
  adopts c i w && measuredProb (tallyCount w) (tallyTotal w) != c.p0[i]

/-- `FINALIZE` (43_finalizer.md R122). -/
def execFinalize (s : State) : Result :=
  if s.phase = .recording then
    .next (State.writeDirty (anyIndex fun i : Slot => slotDirty s.cfg i (s.tallyAt i))
      { s with pw := tableOf fun i => finalProb s.cfg i (s.tallyAt i), phase := .finalized })
  else refusePhase s

end Sys2Proof.Machine
end

