-- ==== Sys2Proof/Machine/FrameControl.lean ====
section
/-! DEFINITION. Frame control: the command INIT (45_frame_control.md R165). -/

namespace Sys2Proof.Machine

/-- `INIT psize` (45_frame_control.md R165, 70_reset_and_hazards.md R197). Admitted in every phase; `OUT`, `EOP` and the marks are not touched. -/
def execInit (psize : BitVec 24) (s : State) : Result :=
  .next (State.writeDirty false (State.clearTbError (releasePages
    { s with
      range := 254, value := 0, nbBits := -8, run := 0, pos := 0, held := 0xFF
      pageSize := max psize.toNat 8192
      tally := Vector.replicate 1056 0, pw := s.cfg.p0
      sizeEst := 0, phase := .recording })))

end Sys2Proof.Machine
end

