-- ==== Sys2Proof/Machine/RangeCoder.lean ====
section
/-! DEFINITION. The range coder: the token words TOK_DYN and TOK_CONST, and the commands EMIT, ESTIMATE and FINISH
(44_range_coder.md R147 to R154). EMIT and ESTIMATE open a traversal, execute each token word of the buffer in it, and
close it, all within the one command (10_state.md R31; log 3). -/

namespace Sys2Proof.Machine

/-! ### Token words -/

/-- A token word's bit and resolved probability: coded under EMIT, costed under ESTIMATE (44_range_coder.md R147,
R148). A fault ends the traversal (log 3). -/
def runBit (bit : Bool) (prob : Prob) (s : State) : Result :=
  match s.pass with
  | some (.emit _) => endOnFault (putBit bit prob s)
  | some (.estimate todo acc) => .next { s with pass := some (.estimate todo (acc + bitCost s.cfg bit prob)) }
  | none => .refused (.tokenOutsidePass s)

/-- `TOK_DYN bit, slot`: the probability is read from `PW` when the word is executed
(44_range_coder.md R147). -/
def execTokDyn (bit : Bool) (slot : BitVec 14) (s : State) : Result :=
  match slotOfField slot with
  | none => .fault (.reservedToken s.endTraversal)
  | some i => runBit bit (s.pwAt i) s

/-- `TOK_CONST bit, prob` (44_range_coder.md R148). -/
def execTokConst (bit : Bool) (prob : Prob) (s : State) : Result := runBit bit prob s

/-! ### Traversals -/

/-- The token words a traversal still has to visit. -/
def Pass.todo : Pass → List TokWord
  | .emit todo => todo
  | .estimate todo _ => todo

/-- The traversal with these token words still to visit. -/
def Pass.withTodo (todo : List TokWord) : Pass → Pass
  | .emit _ => .emit todo
  | .estimate _ acc => .estimate todo acc

/-- The end-of-frame marker of the token word a traversal visits next: it is the last one (10_state.md R38). -/
def Pass.isFinal (p : Pass) : Bool := p.todo.length == 1

/-- The cursor moved past a token word: `todo` is what is left. -/
def State.advance (todo : List TokWord) (s : State) : State := { s with pass := s.pass.map (Pass.withTodo todo) }

/-- One token word, decoded and executed (30_encoding.md R62). A reserved word stops (log 10). -/
def runToken (t : TokWord) (s : State) : Result :=
  match decodeToken t with
  | .ok (.tokDyn bit slot) => execTokDyn bit slot s
  | .ok (.tokConst bit prob) => execTokConst bit prob s
  | _ => .fault (.reservedToken s.endTraversal)

/-- The end-of-partition record of EMIT; `EOP.max_pos` is a free value (44_range_coder.md R150; log 6). -/
def eopOf (s : State) : Eop :=
  { range := s.range, value := s.value, nbBits := s.nbBits, pos := s.pos, run := s.run
    maxPos := Config.freeMaxPos s.freeCount, error := false }

/-- The end of EMIT: the record, the release of the pages, the phase (44_range_coder.md R149, R150, R151). -/
def closeEmit (s : State) : State :=
  releasePages { s with eop := eopOf s, freeCount := s.freeCount + 1, phase := .emitted, pass := none }

/-- The end of ESTIMATE: `size_est <- acc` (44_range_coder.md R152). -/
def closeEstimate (acc : Nat) (s : State) : State := { s with sizeEst := acc, pass := none }

/-- The end of a traversal. -/
def closePass (s : State) : State :=
  match s.pass with
  | some (.emit _) => closeEmit s
  | some (.estimate _ acc) => closeEstimate acc s
  | none => s

/-- Token words executed in order, then the end of the traversal (44_range_coder.md R149, R152). A token word that faults
ends the traversal: the words after it are not visited, and the state of the fault has none open (log 3). -/
def runTokens : List TokWord → State → Result
  | [], s => .next (closePass s)
  | t :: ts, s => andThen (runToken t (s.advance ts)) (runTokens ts)

/-- A whole traversal of the token buffer (41_token_buffer.md R108), opened with all its token words to visit. A fault
on the way ends it with no traversal open (log 3). -/
def traverse (kind : List TokWord → Pass) (s : State) : Result :=
  runTokens s.tokseq { s with pass := some (kind s.tokseq) }

/-! ### Commands -/

/-- `EMIT` (44_range_coder.md R149; it does not test `tb_error`, R154). -/
def execEmit (s : State) : Result :=
  if s.phase = .recording ∨ s.phase = .finalized then traverse Pass.emit s else refusePhase s

/-- `ESTIMATE` (44_range_coder.md R152). -/
def execEstimate (s : State) : Result :=
  if s.phase = .recording ∨ s.phase = .finalized then traverse (fun ts => Pass.estimate ts 0) s
  else refusePhase s

/-- The end of FINISH: both buffers empty, the phase (44_range_coder.md R153). -/
def closeStream (s : State) : State := { s with run := 0, held := 0xFF, phase := .done }

/-- The forced last extraction of FINISH: `nb_bits <- 0 ; EXTRACT` (44_range_coder.md R153). -/
def forceExtract (s : State) : Result := extract { s with nbBits := 0 }

/-- `FINISH` (44_range_coder.md R153). -/
def execFinish (s : State) : Result :=
  if s.phase = .emitted then
    andThen (padBits (9 - s.nbBits.toInt).toNat s) fun s1 =>
    andThen (forceExtract s1) fun s2 =>
    andThen (flushPending s2) fun s3 =>
    .next (closeStream s3)
  else refusePhase s

end Sys2Proof.Machine
end

