-- ==== Sys2Proof/Machine/Statistics.lean ====
section
/-! DEFINITION. The statistics command TALLY (42_statistics.md R117). -/

namespace Sys2Proof.Machine

/-- `TALLY bit, slot` (42_statistics.md R117). -/
def execTally (bit : Bool) (slot : BitVec 14) (s : State) : Result :=
  match slotOfField slot with
  | none => refuseIllegal s
  | some i => if s.phase = .recording then record i bit s else refusePhase s

end Sys2Proof.Machine
end

