-- ==== Sys2Proof/Machine/TokenBuffer.lean ====
section
/-! DEFINITION. The token buffer commands APPD, APPC and CLEAR (41_token_buffer.md R105, R106, R109). -/

namespace Sys2Proof.Machine

/-- `APPD bit, slot` (41_token_buffer.md R105). -/
def execAppd (bit : Bool) (slot : BitVec 14) (s : State) : Result :=
  match slotOfField slot with
  | none => refuseIllegal s
  | some _ => if s.phase = .recording then .next (tbAppend (dynWord bit slot) s) else refusePhase s

/-- `APPC bit, prob` (41_token_buffer.md R106). -/
def execAppc (bit : Bool) (prob : Prob) (s : State) : Result :=
  if s.phase = .recording then .next (tbAppend (constWord bit prob) s) else refusePhase s

/-- `CLEAR` (41_token_buffer.md R109, 70_reset_and_hazards.md R199). -/
def execClear (s : State) : Result :=
  if s.phase = .uninit then refusePhase s else .next (State.clearTbError (releasePages s))

end Sys2Proof.Machine
end

