-- ==== Sys2Proof/Machine/TokenEncoder.lean ====
section
/-! DEFINITION. The coefficient token encoder: the command RECBLK (40_token_encoder.md R85 to R99). The bit that
ADDTOK and ADDCONST return is the bit they are given, so which decisions a block makes depends on its operands
alone: they are listed first and then carried out in order (log 18). -/

namespace Sys2Proof.Machine

/-- One decision of the token tree: `ADDTOK(bit, slot)` or `ADDCONST(bit, prob)` (40_token_encoder.md R89, R90). -/
inductive Decision
  | dyn (bit : Bool) (slot : Slot)
  | const (bit : Bool) (prob : Prob)
  deriving DecidableEq, Repr

/-- The token word of a decision (40_token_encoder.md R89, R90). -/
def Decision.word : Decision → TokWord
  | .dyn bit i => dynWord bit (fieldOfSlot i)
  | .const bit p => constWord bit p

/-- `CAT3`: the extra-bit probabilities of magnitudes 11 to 18 (40_token_encoder.md R93). -/
def cat3 : List Prob := [173, 148, 140]

/-- `CAT4`: magnitudes 19 to 34 (40_token_encoder.md R93). -/
def cat4 : List Prob := [176, 155, 140, 135]

/-- `CAT5`: magnitudes 35 to 66 (40_token_encoder.md R93). -/
def cat5 : List Prob := [180, 157, 141, 134, 130]

/-- `CAT6`: magnitudes 67 to 2047 (40_token_encoder.md R93; the spec took it from general knowledge, log 13). -/
def cat6 : List Prob := [254, 254, 243, 230, 196, 177, 153, 140, 133, 130, 129]

/-- `EXTRA(x, k, tab)`, `k` the length of `tab`: the bits of `x`, most significant first (40_token_encoder.md R92). -/
def extraBits (x : Nat) : List Prob → List Decision
  | [] => []
  | p :: ps => .const (x.testBit ps.length) p :: extraBits x ps

/-- `MAGNITUDE(v, base)` for `v ≥ 2`: nodes 3 to 10 and the extra bits (40_token_encoder.md R92). -/
def magnitude (v : Nat) (b : SlotBase) : List Decision :=
  if v ≤ 4 then
    .dyn false (slotOf b 3) ::
      (if v = 2 then [.dyn false (slotOf b 4)]
       else [.dyn true (slotOf b 4), .dyn (v == 4) (slotOf b 5)])
  else if v ≤ 10 then
    .dyn true (slotOf b 3) :: .dyn false (slotOf b 6) ::
      (if v ≤ 6 then [.dyn false (slotOf b 7), .const (v == 6) 159]
       else [.dyn true (slotOf b 7), .const (decide (9 ≤ v)) 165, .const (v % 2 == 0) 145])
  else
    let r := v - 3
    .dyn true (slotOf b 3) :: .dyn true (slotOf b 6) ::
      (if r < 16 then .dyn false (slotOf b 8) :: .dyn false (slotOf b 9) :: extraBits (r - 8) cat3
       else if r < 32 then .dyn false (slotOf b 8) :: .dyn true (slotOf b 9) :: extraBits (r - 16) cat4
       else if r < 64 then .dyn true (slotOf b 8) :: .dyn false (slotOf b 10) :: extraBits (r - 32) cat5
       else .dyn true (slotOf b 8) :: .dyn true (slotOf b 10) :: extraBits (r - 64) cat6)

/-- The base of position `n` after a coefficient that leaves context `ctx` (40_token_encoder.md R88). -/
def nextBase (b : SlotBase) (n : Nat) (ctx : Fin 3) : SlotBase :=
  { ctype := b.ctype, band := band n, ctx := ctx }

/-- The decisions from position `n` on, node 0 of `n` already coded; the list holds the coefficients of positions
`n` to 15 (the loop of 40_token_encoder.md R88). -/
def codePositions (last : Int) : List Coef → Nat → SlotBase → List Decision
  | [], _, _ => []
  | x :: xs, n, b =>
    let v := x.toInt.natAbs
    if v = 0 then
      .dyn false (slotOf b 1) :: codePositions last xs (n + 1) (nextBase b (n + 1) 0)
    else
      let next := nextBase b (n + 1) (if 1 < v then 2 else 1)
      .dyn true (slotOf b 1) :: .dyn (decide (1 < v)) (slotOf b 2) ::
        ((if 1 < v then magnitude v b else []) ++ .const (decide (x.toInt < 0)) 128 ::
          (if n + 1 = 16 then []
           else if (n + 1 : Int) ≤ last then
             .dyn true (slotOf next 0) :: codePositions last xs (n + 1) next
           else [.dyn false (slotOf next 0)]))

/-- The decisions of a block (40_token_encoder.md R88). -/
def blockDecisions (ctx ctype : BitVec 2) (first : BitVec 4) (last : BitVec 5) (co : Vector Coef 16) :
    List Decision :=
  let b := firstBase ctx ctype first
  if 0 ≤ last.toInt then
    .dyn true (slotOf b 0) :: codePositions last.toInt (co.toList.drop first.toNat) first.toNat b
  else [.dyn false (slotOf b 0)]

/-- One decision carried out: a dynamic one is appended and tallied, whether or not the append stored it; a constant
one is appended only (40_token_encoder.md R89, R90). -/
def runDecision (d : Decision) (s : State) : Result :=
  match d with
  | .dyn bit i => record i bit (tbAppend d.word s)
  | .const _ _ => .next (tbAppend d.word s)

/-- Decisions carried out in order; a fault ends the block where it stands (60_exceptions.md R181). -/
def runDecisions : List Decision → State → Result
  | [], s => .next s
  | d :: ds, s => andThen (runDecision d s) (runDecisions ds)

/-- `RECBLK` (40_token_encoder.md R88; order of checks 60_exceptions.md R183). -/
def execRecblk (ctx ctype : BitVec 2) (first : BitVec 4) (last : BitVec 5) (co : Vector Coef 16)
    (s : State) : Result :=
  if s.phase = .recording then
    if BlockAdmitted ctx first last co then runDecisions (blockDecisions ctx ctype first last co) s
    else refuseBlock s
  else refusePhase s

end Sys2Proof.Machine
end

