-- ==== Sys2Proof/Machine/Dispatch.lean ====
section
/-! DEFINITION. The meaning of every instruction, one arm per row of spec/opcode_table.json. -/

namespace Sys2Proof.Machine

def exec (i : Instr) (s : State) : Host.Outcome State Fault Refusal :=
  match i with
  | .init psize => Sys2Proof.Machine.execInit psize s
  | .recblk ctx ctype first last coefs => Sys2Proof.Machine.execRecblk ctx ctype first last coefs s
  | .appd bit slot => Sys2Proof.Machine.execAppd bit slot s
  | .appc bit prob => Sys2Proof.Machine.execAppc bit prob s
  | .tally bit slot => Sys2Proof.Machine.execTally bit slot s
  | .finalize => Sys2Proof.Machine.execFinalize s
  | .estimate => Sys2Proof.Machine.execEstimate s
  | .emit => Sys2Proof.Machine.execEmit s
  | .finish => Sys2Proof.Machine.execFinish s
  | .clear => Sys2Proof.Machine.execClear s
  | .tokDyn bit slot => Sys2Proof.Machine.execTokDyn bit slot s
  | .tokConst bit prob => Sys2Proof.Machine.execTokConst bit prob s

end Sys2Proof.Machine
end

