-- ==== Sys2Proof/Machine/Step.lean ====
section
/-! DEFINITION. One step of the machine: one host command, executed to completion (00_scope.md R5, 45_frame_control.md
R168). There is no program counter (10_state.md R31): the next command is the first of the host's list (D2; log 1).
With no whole command delivered the core is idle and holds its state (60_exceptions.md R194; log 2). Inside a
traversal, which no run enters between two commands, a step executes the next token word (log 3). -/

namespace Sys2Proof.Machine

/-- The next host command, taken from the list and executed. -/
def stepCommand (s : State) : Host.Outcome State Fault Refusal :=
  match fetchCommand s.cmds with
  | .idle => .next s
  | .illegal _ rest => refuseIllegal { s with cmds := rest }
  | .command i rest => exec i { s with cmds := rest }

/-- The next token word of a traversal, or its end. -/
def stepPass (p : Pass) (s : State) : Host.Outcome State Fault Refusal :=
  match p.todo with
  | [] => .next (closePass s)
  | t :: ts =>
    match decodeToken t with
    | .ok i => exec i (s.advance ts)
    | .error _ => .fault (.reservedToken (s.advance ts).endTraversal)

/-- One step of the machine. -/
def step (s : State) : Host.Outcome State Fault Refusal :=
  match s.pass with
  | none => stepCommand s
  | some p => stepPass p s

/-- The state in which the next step fetches the instruction whose bits are `w`, numbered as spec/opcode_table.json
numbers them: a command is what the host has delivered; a token word (16 bits) is the one word to visit of an EMIT
traversal (log 1, log 3). -/
def State.withFetchWord (s : State) (nbits w : Nat) : State :=
  if nbits ≤ 16 then { s with pass := some (.emit [BitVec.ofNat 16 (w % 2 ^ nbits)]) }
  else { s with pass := none, cmds := tableWords nbits w }

end Sys2Proof.Machine
end

