-- ==== Sys2Proof/Safety.lean ====
section
/-! DEFINITION. What counts as a safe run, in the terms the claims use: the premises of a claim about a run
(70_reset_and_hazards.md R211), what the host sees (45_frame_control.md R171), the admission table and the phase
transitions (45_frame_control.md R166, R167), the invariants of the state (10_state.md R17, R19, R27;
42_statistics.md R118), and the views of the state that the claims compute with. -/

namespace Sys2Proof.Machine

/-! ### Runs -/

/-- A power-on state (70_reset_and_hazards.md R196): every choice of what the spec leaves unspecified. -/
def State.IsPowerOn (s : State) : Prop := ∃ any : State, s = State.powerOn any

/-- No fault and no refusal recorded (10_state.md R33, 70_reset_and_hazards.md R211 (2)). -/
def State.Clean (s : State) : Prop := s.fault = none ∧ s.refused = false

/-! ### What the host sees -/

/-- The host-visible results, read by name between commands (45_frame_control.md R171). -/
structure HostView where
  /-- `OUT[0..pos-1]`; a byte at or above `pos` is meaningless and not shown (U8). -/
  partition : List Byte
  pos : Nat
  dirty : Bool
  pw : Vector Prob 1056
  sizeEst : Nat
  tbError : Bool
  eop : Eop
  tally : Vector TallyWord 1056
  phase : Phase
  deriving DecidableEq, Repr

/-- Reading the host-visible results; a read changes nothing (20_memory.md R45). -/
def State.hostView (s : State) : HostView :=
  { partition := (List.range s.pos).map s.outByte
    pos := s.pos, dirty := s.dirty, pw := s.pw, sizeEst := s.sizeEst, tbError := s.tbError
    eop := s.eop, tally := s.tally, phase := s.phase }

/-! ### Phases -/

/-- Whether an instruction is a host command (a token word is not: 30_encoding.md R71). -/
def isCommand : Instr → Bool
  | .init _ => true
  | .recblk _ _ _ _ _ => true
  | .appd _ _ => true
  | .appc _ _ => true
  | .tally _ _ => true
  | .finalize => true
  | .estimate => true
  | .emit => true
  | .finish => true
  | .clear => true
  | .tokDyn _ _ => false
  | .tokConst _ _ => false

/-- The admission table (45_frame_control.md R167), row by row: the phases that admit a command. -/
def admittingPhases : Instr → List Phase
  | .init _ => [.uninit, .recording, .finalized, .emitted, .done]
  | .recblk _ _ _ _ _ => [.recording]
  | .appd _ _ => [.recording]
  | .appc _ _ => [.recording]
  | .tally _ _ => [.recording]
  | .finalize => [.recording]
  | .estimate => [.recording, .finalized]
  | .emit => [.recording, .finalized]
  | .finish => [.emitted]
  | .clear => [.recording, .finalized, .emitted, .done]
  | .tokDyn _ _ => []
  | .tokConst _ _ => []

/-- The phase after an admitted command (45_frame_control.md R166). -/
def phaseAfter (i : Instr) (p : Phase) : Phase :=
  match i with
  | .init _ => .recording
  | .finalize => .finalized
  | .emit => .emitted
  | .finish => .done
  | .recblk _ _ _ _ _ => p
  | .appd _ _ => p
  | .appc _ _ => p
  | .tally _ _ => p
  | .estimate => p
  | .clear => p
  | .tokDyn _ _ => p
  | .tokConst _ _ => p

/-! ### Invariants -/

/-- The two sparse memories have their canonical form. -/
def State.MemoryWf (s : State) : Prop := Memory.wf s.tok ∧ Memory.wf s.out

/-- The number of bits of `value` above bit 7, `nb_bits + 8` (10_state.md R13). -/
def State.bitCount (s : State) : Nat := (s.nbBits.toInt + 8).toNat

/-- The upper end of the coder's interval, `value + range + 1` (44_range_coder.md R156). -/
def State.upperEnd (s : State) : Nat := s.value.toNat + s.range.toNat + 1

/-- The invariants of the coder registers between commands (10_state.md R17, 44_range_coder.md R156): (a), (b), (c)
and (f) as the rule states them, and what makes (d) and (e) inductive: while the stream is open the interval stays
below 383 units of the next byte group, and below 255 while no byte is held. -/
structure State.CoderInv (s : State) : Prop where
  range_low : 127 ≤ s.range.toNat
  range_high : s.range.toNat ≤ 254
  range_init : s.range.toNat = 254 → s.value = 0 ∧ s.nbBits.toInt = -8 ∧ s.pos = 0 ∧ s.run = 0 ∧ s.held = 0xFF
  bits_low : -8 ≤ s.nbBits.toInt
  bits_high : s.nbBits.toInt ≤ 0
  upper : s.upperEnd ≤ 2 ^ (s.bitCount + 9)
  run_held : s.held = 0xFF → s.run = 0
  open_upper : s.phase ≠ .done → s.upperEnd ≤ 383 * 2 ^ s.bitCount
  empty_upper : s.phase ≠ .done → s.held = 0xFF → s.upperEnd ≤ 255 * 2 ^ s.bitCount

/-- A token word that decodes (30_encoding.md R62, 40_token_encoder.md R97). -/
def LegalToken (t : TokWord) : Prop := ∃ i : Instr, decodeToken t = .ok i

/-- The invariants of the token buffer (10_state.md R18, R19, 41_token_buffer.md R101, R107): its registers are in
range, every slot that a traversal reads has been written, and holds a legal token word. -/
structure State.BufferInv (s : State) : Prop where
  size_low : 8192 ≤ s.pageSize
  size_high : s.pageSize < 2 ^ 24
  pages : s.npages ≤ s.cfg.maxPages
  free : s.npages ≠ 0 → s.left < s.pageSize
  none_free : s.npages = 0 → s.left = 0
  written : ∀ q ∈ traversal s.npages s.left s.pageSize, s.tokWritten q.1 q.2 = true
  tokens : ∀ t ∈ s.tokseq, LegalToken t

/-- The invariant of one tally entry (42_statistics.md R118): `count1 ≤ total + 1`, and `count1 = total + 1` only
with `total ≥ 32768`. -/
def TallyEntryInv (w : TallyWord) : Prop :=
  tallyCount w ≤ tallyTotal w ∨ tallyCount w = tallyTotal w + 1 ∧ 32768 ≤ tallyTotal w

/-- The invariant of the statistics (42_statistics.md R118). -/
def State.TallyInv (s : State) : Prop := ∀ i : Slot, TallyEntryInv (s.tallyAt i)

/-- The invariants of the output memory (10_state.md R27): `pos` is at most `OUT_CAPACITY`, the bytes below `pos` are
written, and nothing is written at or above `OUT_CAPACITY`. -/
structure State.OutInv (s : State) : Prop where
  capacity : s.pos ≤ s.cfg.outCapacity
  written : ∀ k, k < s.pos → s.outWritten k = true
  outside : ∀ k, s.cfg.outCapacity ≤ k → s.outWritten k = false

/-- The invariants of the working table (10_state.md R23, 43_finalizer.md R130, R131): once a frame has started,
`dirty` says that the table differs from the default, and while recording it does not. -/
structure State.TableInv (s : State) : Prop where
  recording : s.phase = .recording → s.pw = s.cfg.p0
  dirty : s.phase ≠ .uninit → (s.dirty = true ↔ s.pw ≠ s.cfg.p0)

/-- A traversal is in progress only in a phase that admits EMIT and ESTIMATE (45_frame_control.md R167; log 3). -/
def State.PassInv (s : State) : Prop := s.pass ≠ none → s.phase = .recording ∨ s.phase = .finalized

/-! ### Who writes what -/

/-- The pieces of state of 10_state.md R10, grouped by who writes them. -/
inductive Piece
  | coder
  | output
  | tokens
  | pageSize
  | tbError
  | tally
  | working
  | dirty
  | sizeEst
  | eop
  | phase
  /-- The marks, the configuration and the host's command list: no instruction writes them. -/
  | unwritten
  deriving DecidableEq, Repr

/-- Whether an instruction may write a piece of state: the "Written by" of 10_state.md R11 to R33. -/
def writes (q : Piece) (i : Instr) : Bool :=
  match i with
  | .init _ => q != .output && q != .eop && q != .unwritten
  | .recblk _ _ _ _ _ => q == .tokens || q == .tbError || q == .tally
  | .appd _ _ => q == .tokens || q == .tbError
  | .appc _ _ => q == .tokens || q == .tbError
  | .tally _ _ => q == .tally
  | .finalize => q == .working || q == .dirty || q == .phase
  | .estimate => q == .sizeEst
  | .emit => q == .coder || q == .output || q == .tokens || q == .eop || q == .phase
  | .finish => q == .coder || q == .output || q == .phase
  | .clear => q == .tokens || q == .tbError
  | .tokDyn _ _ => q == .coder || q == .output
  | .tokConst _ _ => q == .coder || q == .output

/-- The piece reads the same in both states. -/
def SamePiece (q : Piece) (s t : State) : Prop :=
  match q with
  | .coder =>
    t.range = s.range ∧ t.value = s.value ∧ t.nbBits = s.nbBits ∧ t.run = s.run ∧ t.pos = s.pos ∧ t.held = s.held
  | .output => ∀ k, t.outByte k = s.outByte k
  | .tokens => t.npages = s.npages ∧ t.left = s.left ∧ ∀ page slot, t.tokWord page slot = s.tokWord page slot
  | .pageSize => t.pageSize = s.pageSize
  | .tbError => t.tbError = s.tbError
  | .tally => ∀ i, t.tallyAt i = s.tallyAt i
  | .working => ∀ i, t.pwAt i = s.pwAt i
  | .dirty => t.dirty = s.dirty
  | .sizeEst => t.sizeEst = s.sizeEst
  | .eop => t.eop = s.eop
  | .phase => t.phase = s.phase
  | .unwritten => t.fault = s.fault ∧ t.refused = s.refused ∧ t.cfg = s.cfg ∧ t.cmds = s.cmds

/-! ### Two machines that differ only where the spec leaves values unspecified -/

/-- The two states agree on everything the spec gives a value once a frame has started: they may differ in the slots of
`TOK` that hold no recorded token (U9), in `OUT` at and above `pos` (U8), in `EOP` while no EMIT of the frame has
written it (10_state.md R30), and in the free values (log 6). -/
structure SameFrame (s t : State) : Prop where
  range : t.range = s.range
  value : t.value = s.value
  nbBits : t.nbBits = s.nbBits
  run : t.run = s.run
  pos : t.pos = s.pos
  held : t.held = s.held
  tokens : ∀ q ∈ traversal s.npages s.left s.pageSize, t.tokWord q.1 q.2 = s.tokWord q.1 q.2
  npages : t.npages = s.npages
  left : t.left = s.left
  pageSize : t.pageSize = s.pageSize
  tbError : t.tbError = s.tbError
  tally : t.tally = s.tally
  pw : t.pw = s.pw
  out : ∀ k, k < s.pos → t.outByte k = s.outByte k
  sizeEst : t.sizeEst = s.sizeEst
  dirty : t.dirty = s.dirty
  eop : s.phase = .emitted ∨ s.phase = .done → { t.eop with maxPos := s.eop.maxPos } = s.eop

/-- The two states agree on everything the spec gives a value. Before the first INIT that is the configuration, the
phase, the marks and what the host has delivered, and nothing else (70_reset_and_hazards.md R196, U7). -/
structure SameDefined (s t : State) : Prop where
  cfg : t.cfg = s.cfg
  phase : t.phase = s.phase
  fault : t.fault = s.fault
  refused : t.refused = s.refused
  cmds : t.cmds = s.cmds
  pass : t.pass = s.pass
  frame : s.phase ≠ .uninit → SameFrame s t

/-- The same reason for a fault. -/
def sameFault : Fault → Fault → Bool
  | .outOverflow _, .outOverflow _ => true
  | .tallyCountOverflow _, .tallyCountOverflow _ => true
  | .carryNoHeld _, .carryNoHeld _ => true
  | .reservedToken _, .reservedToken _ => true
  | _, _ => false

/-- The same reason for a refusal. -/
def sameRefusal : Refusal → Refusal → Bool
  | .illegalCommand _, .illegalCommand _ => true
  | .phaseViolation _, .phaseViolation _ => true
  | .malformedBlock _, .malformedBlock _ => true
  | .tokenOutsidePass _, .tokenOutsidePass _ => true
  | _, _ => false

/-- The two steps end alike: in states that agree, or in the same fault, or in the same refusal. -/
def OutcomesAgree : Result → Result → Prop
  | .next s, .next t => SameDefined s t
  | .fault x, .fault y => sameFault x y = true
  | .refused x, .refused y => sameRefusal x y = true
  | _, _ => False

/-! ### Results spelled out in the spec's own arithmetic -/

/-- A command word that the spec reserves or calls illegal, case by case as 30_encoding.md R72 lists them. -/
abbrev IllegalWord (w : CmdWord) : Prop :=
  opcodeOf w = 0x00 ∨ 0x0A ≤ opcodeOf w
    ∨ (0x05 ≤ opcodeOf w ∧ opcodeOf w ≤ 0x09 ∧ w.extractLsb' 0 24 ≠ 0)
    ∨ (opcodeOf w = 0x02 ∧ w.extractLsb' 13 11 ≠ 0)
    ∨ ((opcodeOf w = 0x03 ∨ opcodeOf w = 0x04) ∧ w.extractLsb' 16 8 ≠ 0)
    ∨ (opcodeOf w = 0x04 ∧ w.getLsbD 14 = true)
    ∨ (opcodeOf w = 0x03 ∧ w.getLsbD 14 = true ∧ w.extractLsb' 8 6 ≠ 0)
    ∨ ((opcodeOf w = 0x03 ∨ opcodeOf w = 0x04) ∧ w.getLsbD 14 = false ∧ 1056 ≤ (w.extractLsb' 0 14).toNat)

/-- The operand contract of RECBLK over the integers, condition by condition as 40_token_encoder.md R86 lists them;
`co i` is the coefficient of position `i`. -/
abbrev BlockContract (ctx first : Nat) (last : Int) (co : Fin 16 → Int) : Prop :=
  (ctx = 0 ∨ ctx = 1 ∨ ctx = 2) ∧ (first = 0 ∨ first = 1)
    ∧ (last = -1 ∨ (first : Int) ≤ last ∧ last ≤ 15)
    ∧ (0 ≤ last → ∀ i : Fin 16, ((i.val : Int) = last → co i ≠ 0) ∧ (last < (i.val : Int) → co i = 0))
    ∧ (last = -1 → ∀ i : Fin 16, first ≤ i.val → co i = 0)
    ∧ (∀ i : Fin 16, first ≤ i.val → -2047 ≤ co i ∧ co i ≤ 2047)

/-- What appending a token word does (41_token_buffer.md R102, R103, R104): nothing after an error; where a page is
needed and `npages` is `MAX_PAGES`, only the error; else the word stands in the highest free slot of the last page, a
new one where none had room, and every other slot reads as before. -/
def Appended (w : TokWord) (s t : State) : Prop :=
  if s.tbError = true then t = s
  else if s.npages = 0 ∨ s.left = 0 then
    if s.npages = s.cfg.maxPages then t = { s with tbError := true }
    else t = { s with tok := t.tok, npages := s.npages + 1, left := s.pageSize - 1 }
      ∧ ∀ page slot,
        t.tokWord page slot = if page = s.npages ∧ slot = s.pageSize - 1 then w else s.tokWord page slot
  else t = { s with tok := t.tok, left := s.left - 1 }
    ∧ ∀ page slot,
      t.tokWord page slot = if page = s.npages - 1 ∧ slot = s.left - 1 then w else s.tokWord page slot

/-- What packing a byte group `g` does, its bit 8 the carry (44_range_coder.md R143, R144, R145). -/
def Packed (g : Nat) (s t : State) : Prop :=
  if g % 256 = 255 then
    t.run = s.run + 1 ∧ t.held = s.held ∧ t.pos = s.pos ∧ ∀ k, t.outByte k = s.outByte k
  else
    t.run = 0 ∧ t.held.toNat = g % 256
      ∧ t.pos = s.pos + s.run + (if s.held = 0xFF then 0 else 1)
      ∧ (s.held ≠ 0xFF → t.outByte s.pos = if 256 ≤ g then s.held + 1 else s.held)
      ∧ (∀ k, t.pos - s.run ≤ k → k < t.pos → t.outByte k = if 256 ≤ g then 0x00 else 0xFF)
      ∧ ∀ k, k < s.pos ∨ t.pos ≤ k → t.outByte k = s.outByte k

/-- What coding a bit does (44_range_coder.md R137 to R142), over the integers: `k` is the number of leading zeros of
the new true range, `v` and `n` are `value` and `nb_bits` after the shift. -/
def CodedBit (bit : Bool) (prob : Prob) (s t : State) : Prop :=
  ∃ k split rn v : Nat, ∃ n : Int,
    split = s.range.toNat * prob.toNat / 256 + 1
    ∧ rn = (if bit then s.range.toNat + 1 - split else split)
    ∧ k ≤ 7 ∧ 128 ≤ rn * 2 ^ k ∧ rn * 2 ^ k ≤ 255
    ∧ v = (s.value.toNat + if bit then split else 0) * 2 ^ k
    ∧ n = s.nbBits.toInt + k
    ∧ t = { s with
        range := t.range
        value := t.value
        nbBits := t.nbBits
        run := t.run
        pos := t.pos
        held := t.held
        out := t.out }
    ∧ t.range.toNat = rn * 2 ^ k - 1
    ∧ if n ≤ 0 then
        t.value.toNat = v ∧ t.nbBits.toInt = n
          ∧ t.run = s.run ∧ t.pos = s.pos ∧ t.held = s.held ∧ ∀ j, t.outByte j = s.outByte j
      else
        t.value.toNat = v % 2 ^ (8 + n).toNat ∧ t.nbBits.toInt = n - 8 ∧ Packed (v / 2 ^ (8 + n).toNat) s t

/-- Token words appended one after another. -/
def AppendedAll : List TokWord → State → State → Prop
  | [], s, t => t = s
  | w :: ws, s, t => ∃ m : State, Appended w s m ∧ AppendedAll ws m t

/-- Bits coded one after another, each with its probability. -/
def CodedAll : List (Bool × Prob) → State → State → Prop
  | [], s, t => t = s
  | (bit, prob) :: bs, s, t => ∃ m : State, CodedBit bit prob s m ∧ CodedAll bs m t

/-- The number of tokens a coefficient of magnitude `v` contributes, from node 1 through its sign, or the one token of a
zero (40_token_encoder.md R96). -/
def coefTokens (v : Nat) : Nat :=
  if v = 0 then 1 else if v = 1 then 3 else if v = 2 then 5 else if v ≤ 4 then 6 else if v ≤ 6 then 7
  else if v ≤ 10 then 8 else if v ≤ 18 then 10 else if v ≤ 34 then 11 else if v ≤ 66 then 12 else 18

/-- The token word that an append command appends (41_token_buffer.md R105, R106). -/
def appendedWord : Instr → Option TokWord
  | .appd bit slot => some (dynWord bit slot)
  | .appc bit prob => some (constWord bit prob)
  | .init _ => none
  | .recblk _ _ _ _ _ => none
  | .tally _ _ => none
  | .finalize => none
  | .estimate => none
  | .emit => none
  | .finish => none
  | .clear => none
  | .tokDyn _ _ => none
  | .tokConst _ _ => none

/-- The state that a stopped command left. -/
def Fault.left : Fault → State
  | .outOverflow s => s
  | .tallyCountOverflow s => s
  | .carryNoHeld s => s
  | .reservedToken s => s

/-! ### Sequences of commands -/

/-- Instructions executed one after another. -/
def runAll : List Instr → State → Result
  | [], s => .next s
  | i :: is, s => andThen (exec i s) (runAll is)

/-! ### Views the claims compute with -/

/-- A page with a free slot can be had for `n` more token words (41_token_buffer.md R113). -/
def State.HasRoomFor (s : State) (n : Nat) : Prop :=
  s.tbError = false ∧ s.ntok + n ≤ s.cfg.maxPages * s.pageSize

/-- The (bit, probability) that a token word resolves to under the working table (30_encoding.md R62). -/
def State.resolve (s : State) (t : TokWord) : Option (Bool × Prob) :=
  match decodeToken t with
  | .ok (.tokDyn bit slot) => (slotOfField slot).map fun i => (bit, s.pwAt i)
  | .ok (.tokConst bit prob) => some (bit, prob)
  | _ => none

/-- The bits that a list of decisions tallies at a slot, in order (42_statistics.md R119). -/
def bitsAt (i : Slot) : List Decision → List Bool
  | [] => []
  | .dyn bit j :: ds => if j = i then bit :: bitsAt i ds else bitsAt i ds
  | .const _ _ :: ds => bitsAt i ds

/-- A tally entry `(count1, total)` after recording bits in order, while `count1` fits (42_statistics.md R116). -/
def recordAll : List Bool → Nat × Nat → Nat × Nat
  | [], e => e
  | b :: bs, e => recordAll bs (recordStep e.1 e.2 b)

/-- The tally entry of a slot as `(count1, total)` (30_encoding.md R64). -/
def State.entryAt (s : State) (i : Slot) : Nat × Nat := (tallyCount (s.tallyAt i), tallyTotal (s.tallyAt i))

/-- The `n`-th decision of a block is a dynamic one whose tally, after those of the decisions before it, would take
`count1` past 65535 (42_statistics.md R118). -/
def State.OverflowsAt (s : State) (ds : List Decision) (n : Nat) : Prop :=
  ∃ (bit : Bool) (i : Slot), ds[n]? = some (.dyn bit i) ∧ 65535 < (recordAll (bitsAt i (ds.take (n + 1))) (s.entryAt i)).1

/-! ### The tokens of a block, position by position

A second account of RECBLK, with no loop and no running base: each position's slots from the band of the position and
the level before it, each level's nodes from the bucket it is in (40_token_encoder.md R87, R88, R92, R93, R94). -/

/-- `BAND[n]` (40_token_encoder.md R87). -/
def bandAt (n : Nat) : Nat := [0, 1, 2, 3, 6, 4, 5, 6, 6, 6, 6, 6, 6, 6, 6, 7, 0].getD n 0

/-- The slot of a node at position `n` in a context: `SLOT(type, BAND[n], ctx, node)` (30_encoding.md R63). -/
def slotAt (ctype n ctx node : Nat) : Slot := Fin.ofNat 1056 (11 * (ctx + 3 * (bandAt n + 8 * ctype)) + node)

/-- The bits of `x`, most significant first, each with its probability (40_token_encoder.md R92, EXTRA). -/
def extraTokens (x : Nat) (tab : List Prob) : List Decision :=
  (List.range tab.length).map fun i => .const (x / 2 ^ (tab.length - 1 - i) % 2 == 1) (tab.getD i 0)

/-- The decisions after node 2 of a level of magnitude `v`, bucket by bucket (40_token_encoder.md R92, R93). -/
def levelTokens (v : Nat) (node : Nat → Slot) : List Decision :=
  if v ≤ 1 then []
  else if v = 2 then [.dyn false (node 3), .dyn false (node 4)]
  else if v = 3 then [.dyn false (node 3), .dyn true (node 4), .dyn false (node 5)]
  else if v = 4 then [.dyn false (node 3), .dyn true (node 4), .dyn true (node 5)]
  else if v ≤ 6 then [.dyn true (node 3), .dyn false (node 6), .dyn false (node 7)] ++ extraTokens (v - 5) [159]
  else if v ≤ 10 then [.dyn true (node 3), .dyn false (node 6), .dyn true (node 7)] ++ extraTokens (v - 7) [165, 145]
  else [.dyn true (node 3), .dyn true (node 6)] ++
    if v ≤ 18 then [.dyn false (node 8), .dyn false (node 9)] ++ extraTokens (v - 11) [173, 148, 140]
    else if v ≤ 34 then [.dyn false (node 8), .dyn true (node 9)] ++ extraTokens (v - 19) [176, 155, 140, 135]
    else if v ≤ 66 then [.dyn true (node 8), .dyn false (node 10)] ++ extraTokens (v - 35) [180, 157, 141, 134, 130]
    else [.dyn true (node 8), .dyn true (node 10)]
      ++ extraTokens (v - 67) [254, 254, 243, 230, 196, 177, 153, 140, 133, 130, 129]

/-- The decisions of position `n` with coefficient `x` in context `ctx`: node 1; for a nonzero one node 2, its level, its
sign, and, but at position 15, node 0 of the next position (40_token_encoder.md R88, R91, R94). -/
def positionTokens (ctype ctx n : Nat) (last x : Int) : List Decision :=
  if x = 0 then [.dyn false (slotAt ctype n ctx 1)]
  else [.dyn true (slotAt ctype n ctx 1), .dyn (decide (2 ≤ x.natAbs)) (slotAt ctype n ctx 2)]
    ++ levelTokens x.natAbs (slotAt ctype n ctx) ++ [.const (decide (x < 0)) 128]
    ++ if n = 15 then [] else [.dyn (decide ((n : Int) < last)) (slotAt ctype (n + 1) (min x.natAbs 2) 0)]

/-- The context of position `n`: the operand at the first one, else 0, 1 or 2 as the coefficient before it is zero, of
magnitude one, or larger (40_token_encoder.md R88). -/
def contextAt (ctx first n : Nat) (co : Nat → Int) : Nat := if n = first then ctx else min (co (n - 1)).natAbs 2

/-- The decisions of a block over the integers: node 0 of the first position, then the positions from `first` to `last`
(40_token_encoder.md R88, R95). -/
def blockTokens (ctx ctype first : Nat) (last : Int) (co : Nat → Int) : List Decision :=
  .dyn (decide (0 ≤ last)) (slotAt ctype first ctx 0) ::
    ((List.range 16).filter fun n => decide (first ≤ n ∧ (n : Int) ≤ last)).flatMap fun n =>
      positionTokens ctype (contextAt ctx first n co) n last (co n)

/-- Whether a decision is a dynamic token. -/
def Decision.isDyn : Decision → Bool
  | .dyn _ _ => true
  | .const _ _ => false

/-- The bytes of the stream that have left `value`: those in `OUT`, the held byte, and the run (10_state.md R35). -/
def State.streamBytes (s : State) : List Byte :=
  (List.range s.pos).map s.outByte
    ++ (if s.held = 0xFF then [] else [s.held]) ++ List.replicate s.run 0xFF

/-- The number whose base-256 digits are the bytes, most significant first. -/
def bytesValue (bs : List Byte) : Nat := bs.foldl (fun n b => 256 * n + b.toNat) 0

/-- The low end of the coder's interval in full, in units of the least significant bit of `value`: the bytes that have
left, above the `nb_bits + 16` bits of `value` that have not (10_state.md R12, R35). -/
def State.lowEnd (s : State) : Nat := bytesValue s.streamBytes * 2 ^ (s.bitCount + 8) + s.value.toNat

/-- The bytes of the partition, `OUT[0..pos-1]` (45_frame_control.md R171). -/
def State.partitionBytes (s : State) : List Byte := (List.range s.pos).map s.outByte

/-! ### An arithmetic coder without a packer, and its decoder

The coder keeps the low end of its interval as one unbounded number, so it has no bytes, no carry and no run. -/

/-- The low end, the stored range, and the number of bits shifted so far. -/
structure Interval where
  low : Nat
  range : Nat
  shifts : Nat
  deriving DecidableEq, Repr

/-- Coding one bit: the split, the new range and the normalisation of 44_range_coder.md R138 to R140. -/
def Interval.code (e : Interval) (bit : Bool) (prob : Prob) : Interval :=
  let split := e.range * prob.toNat / 256 + 1
  let rn := if bit then e.range + 1 - split else split
  let k := clz8 rn
  { low := (e.low + if bit then split else 0) * 2 ^ k, range := rn * 2 ^ k - 1, shifts := e.shifts + k }

/-- Coding bits in order. -/
def Interval.codeAll : Interval → List (Bool × Prob) → Interval
  | e, [] => e
  | e, (bit, prob) :: ts => Interval.codeAll (e.code bit prob) ts

/-- The interval after INIT (44_range_coder.md R137, R156). -/
def Interval.start : Interval := { low := 0, range := 254, shifts := 0 }

/-- The bits that a decoder reads with these probabilities: `x / den` is what is left of the coded number, in units of
the least significant bit of the range, and bit 0 has the part of the interval below the split (R136). -/
def decodeBits : List Prob → Nat → Nat → Nat → List Bool
  | [], _, _, _ => []
  | prob :: ps, range, den, x =>
    let split := range * prob.toNat / 256 + 1
    let bit := decide (split * den ≤ x)
    let rn := if bit then range + 1 - split else split
    let k := clz8 rn
    bit :: decodeBits ps (rn * 2 ^ k - 1) den ((x - if bit then split * den else 0) * 2 ^ k)

end Sys2Proof.Machine
end

