-- ==== Sys2Proof/Certificates/Slice0/Obligations.lean ====
section
/-! DEFINITION. The statements for the provers, from the numbered rules of spec/. Each docstring names the rule it
formalises, and the log entry where a clause is the model's own. -/

open Sys2Proof Sys2Proof.Machine

/-! ### Encoding and decoding -/

/-- Decoding what an instruction is written as gives the instruction, for every operand value that the encoding admits
(30_encoding.md R61 to R71). -/
def Obligations.DecodeEncodeAgree : Prop :=
  ∀ i : Instr, i.wellFormed = true → decode (encode i) = .ok i

/-- What decodes is written as it decodes: no bit of a word that decodes is dropped, and its operands are in range
(30_encoding.md R65 to R72). -/
def Obligations.OnlyEncodingsDecode : Prop :=
  ∀ (e : Encoded) (i : Instr), decode e = .ok i → encode i = e ∧ i.wellFormed = true

/-- A command word with its data words is an instruction exactly when it is none of the illegal words of 30_encoding.md
R72: the opcode map is complete (R71). -/
def Obligations.WordDecodesUnlessIllegal : Prop :=
  ∀ (w : CmdWord) (data : List CmdWord), data.length + 1 = commandLength w →
    ((∃ i, decode (.command (w :: data)) = .ok i) ↔ ¬IllegalWord w)

/-- An illegal word at the head of the host's list is refused with `IllegalCommand`, and nothing else changes
(30_encoding.md R72). The delivered words that are left are the host's list, the model's own field (log 1, log 15). -/
def Obligations.IllegalWordRefused : Prop :=
  ∀ (s : State) (w : CmdWord) (ws : List CmdWord), s.pass = none → s.cmds = w :: ws →
    commandLength w ≤ ws.length + 1 → IllegalWord w →
    ∃ rest, step s = .refused (.illegalCommand { s with cmds := rest, refused := true })

/-- The worked encodings, row by row (30_encoding.md R75). -/
def Obligations.WorkedEncodings : Prop :=
  decode (.command [0x01002000]) = .ok (.init 8192)
  ∧ decode (.command [0x01000000]) = .ok (.init 0)
  ∧ decode (.command [0x0200030C, 0xFFFE0005, 0x00010000, 0, 0, 0, 0, 0, 0])
      = .ok (.recblk 0 3 0 3 #v[5, -2, 0, 1, 0, 0, 0, 0, 0, 0, 0, 0, 0, 0, 0, 0])
  ∧ decode (.command [0x02001F0C, 0, 0, 0, 0, 0, 0, 0, 0])
      = .ok (.recblk 0 3 0 (-1) #v[0, 0, 0, 0, 0, 0, 0, 0, 0, 0, 0, 0, 0, 0, 0, 0])
  ∧ decode (.command [0x02000112, 0xF8010000, 0, 0, 0, 0, 0, 0, 0])
      = .ok (.recblk 2 0 1 1 #v[0, -2047, 0, 0, 0, 0, 0, 0, 0, 0, 0, 0, 0, 0, 0, 0])
  ∧ decode (.command [0x03008318]) = .ok (.appd true 792)
  ∧ decode (.command [0x03004080]) = .ok (.appc false 128)
  ∧ decode (.command [0x0300C0FE]) = .ok (.appc true 254)
  ∧ decode (.command [0x04008318]) = .ok (.tally true 792)
  ∧ decode (.command [0x05000000]) = .ok .finalize
  ∧ decode (.command [0x06000000]) = .ok .estimate
  ∧ decode (.command [0x07000000]) = .ok .emit
  ∧ decode (.command [0x08000000]) = .ok .finish
  ∧ decode (.command [0x09000000]) = .ok .clear
  ∧ decode (.token 0x8318) = .ok (.tokDyn true 792)
  ∧ decode (.token 0x0318) = .ok (.tokDyn false 792)
  ∧ decode (.token 0x041F) = .ok (.tokDyn false 1055)
  ∧ decode (.token 0x4080) = .ok (.tokConst false 128)
  ∧ decode (.token 0xC080) = .ok (.tokConst true 128)
  ∧ decode (.token 0xC0FF) = .ok (.tokConst true 255)
  ∧ tallyWord 5 3 = 0x00050003

/-! ### One step -/

/-- A step runs the decoded command: with a well-formed command's words at the head of the host's list, the step is
`exec` of it on the state with those words taken (45_frame_control.md R168; the list is the model's own, log 1). -/
def Obligations.StepRunsTheCommand : Prop :=
  ∀ (s : State) (i : Instr) (words rest : List CmdWord), i.wellFormed = true → s.pass = none →
    encode i = .command words → s.cmds = words ++ rest → step s = exec i { s with cmds := rest }

/-- Inside a traversal a step runs the next token word, decoded, and at the end closes the traversal
(44_range_coder.md R149, R152; steps inside EMIT and ESTIMATE are the model's own, log 3). -/
def Obligations.StepRunsTheTokenWord : Prop :=
  ∀ (s : State) (p : Pass), s.pass = some p →
    (∀ (t : TokWord) (ts : List TokWord) (i : Instr), p.todo = t :: ts → decodeToken t = .ok i →
      step s = exec i (s.advance ts))
    ∧ (p.todo = [] → step s = .next (closePass s))

/-- With no whole command delivered the core holds its state: no word, or a RECBLK command word with fewer than eight
data words (30_encoding.md R73, 60_exceptions.md R194; the step that does nothing is the model's own, log 2). -/
def Obligations.IdleWithoutACommand : Prop :=
  ∀ s : State, s.pass = none →
    (s.cmds = [] ∨ ∃ w ws, s.cmds = w :: ws ∧ opcodeOf w = 0x02 ∧ ws.length < 8) → step s = .next s

/-! ### Power-on, INIT, phases, marks -/

/-- Every power-on state has phase `UNINIT` and clear marks and admits no command but INIT (70_reset_and_hazards.md R196,
R198); the model's reset state is one of them (its values for what R196 leaves unspecified are the model's, log 5). -/
def Obligations.PowerOnAdmitsOnlyInit : Prop :=
  State.reset.IsPowerOn
  ∧ ∀ s : State, s.IsPowerOn →
      s.phase = .uninit ∧ s.fault = none ∧ s.refused = false
      ∧ (∀ psize, ∃ t, exec (.init psize) s = .next t)
      ∧ ∀ i : Instr, isCommand i = true → i.wellFormed = true → (∀ psize, i ≠ .init psize) →
          exec i s = .refused (.phaseViolation { s with refused := true })

/-- The state after INIT, from any state (70_reset_and_hazards.md R197). -/
def Obligations.InitResult : Prop :=
  ∀ (s : State) (psize : BitVec 24), ∃ t, exec (.init psize) s = .next t
    ∧ t.range = 254 ∧ t.value = 0 ∧ t.nbBits.toInt = -8 ∧ t.run = 0 ∧ t.pos = 0 ∧ t.held = 0xFF
    ∧ t.npages = 0 ∧ t.left = 0 ∧ t.tokseq = [] ∧ t.tbError = false
    ∧ t.pageSize = (if psize.toNat ≤ 8192 then 8192 else psize.toNat)
    ∧ (∀ i : Slot, t.tallyAt i = 0) ∧ (∀ i : Slot, t.pwAt i = s.cfg.p0[i])
    ∧ t.dirty = false ∧ t.sizeEst = 0 ∧ t.phase = .recording
    ∧ (∀ k, t.outByte k = s.outByte k) ∧ t.eop = s.eop ∧ t.fault = s.fault ∧ t.refused = s.refused
    ∧ t.cfg = s.cfg ∧ t.cmds = s.cmds ∧ t.pass = s.pass

/-- No step reads an unspecified value: two states step alike that agree on everything the spec gives a value. Before the
first INIT they may differ in every register and memory (70_reset_and_hazards.md R196); after it in the slots of TOK
that hold no recorded token, in the bytes of OUT at or above `pos`, in an EOP that no EMIT of the frame has written, and
in the free values (R214). -/
def Obligations.UnspecifiedValuesNeverMatter : Prop :=
  ∀ s t : State, s.PassInv → SameDefined s t → OutcomesAgree (step s) (step t)

/-- The admission table (45_frame_control.md R167). -/
def Obligations.AdmissionTable : Prop :=
  ∀ (i : Instr) (s : State), isCommand i = true → i.wellFormed = true →
    (s.phase ∉ admittingPhases i → exec i s = .refused (.phaseViolation { s with refused := true }))
    ∧ (s.phase ∈ admittingPhases i → ∀ left, exec i s ≠ .refused (.phaseViolation left))

/-- The phase register (45_frame_control.md R166): where it starts, which phases a completed command ran in, and the
phase it leaves. -/
def Obligations.PhaseTransitions : Prop :=
  (∀ s : State, s.IsPowerOn → s.phase = .uninit)
  ∧ ∀ (i : Instr) (s t : State), exec i s = .next t →
      t.phase = phaseAfter i s.phase ∧ (isCommand i = true → s.phase ∈ admittingPhases i)

/-- A refused command changes nothing but the mark, and nothing clears the mark (60_exceptions.md R182). -/
def Obligations.RefusalChangesNothing : Prop :=
  (∀ (i : Instr) (s left : State), isCommand i = true →
    exec i s = .refused (.illegalCommand left) ∨ exec i s = .refused (.phaseViolation left)
      ∨ exec i s = .refused (.malformedBlock left) →
    left = { s with refused := true })
  ∧ (∀ (i : Instr) (s t : State), exec i s = .next t → t.refused = s.refused)
  ∧ ∀ (i : Instr) (s : State) (x : Fault), exec i s = .fault x → x.left.refused = s.refused

/-- A fault of the spec sets the mark to its name, no completed command clears it, and a step that faults leaves no
traversal open (60_exceptions.md R181, 10_state.md R31; the state after a fault, and `pass` in it, are the model's own,
log 3 and log 4). -/
def Obligations.FaultSetsTheMark : Prop :=
  (∀ (i : Instr) (s left : State),
    (exec i s = .fault (.outOverflow left) → left.fault = some .outOverflow)
    ∧ (exec i s = .fault (.tallyCountOverflow left) → left.fault = some .tallyCountOverflow)
    ∧ (exec i s = .fault (.carryNoHeld left) → left.fault = some .carryNoHeld))
  ∧ (∀ (i : Instr) (s t : State), exec i s = .next t → t.fault = s.fault)
  ∧ ∀ (s : State) (x : Fault), step s = .fault x → x.left.pass = none

/-- What a command stopped by `OutOverflow` has written stays written, and what would have followed does not happen
(60_exceptions.md R181, 44_range_coder.md R146, R149): the output is full; every place the command reached holds the
byte that the same command writes there in a larger output memory, which writes further; every other place reads as
before; and no record, release or phase change took place. A token word that stops under EMIT leaves `range`, `value`
and `nb_bits` advanced as coding its bit advances them, and the packer's `run` and `held` as they were
(44_range_coder.md R137 to R145). -/
def Obligations.OutOverflowKeepsWhatWasWritten : Prop :=
  (∀ (i : Instr) (s left : State), exec i s = .fault (.outOverflow left) →
    s.cfg.outCapacity ≤ left.pos ∧ s.pos ≤ left.pos ∧ (s.pos ≤ s.cfg.outCapacity → left.pos = s.cfg.outCapacity)
    ∧ (∀ k, k < s.pos ∨ left.pos ≤ k → left.outByte k = s.outByte k)
    ∧ (∀ k, s.pos ≤ k → k < left.pos → left.outWritten k = true)
    ∧ (∀ (room : Nat) (t : State), exec i { s with cfg := { s.cfg with outCapacity := room } } = .next t →
        left.pos < t.pos ∧ ∀ k, k < left.pos → left.outByte k = t.outByte k)
    ∧ left.eop = s.eop ∧ left.phase = s.phase ∧ left.tokseq = s.tokseq
    ∧ (∀ q : Piece, q = .tally ∨ q = .working ∨ q = .dirty ∨ q = .sizeEst ∨ q = .tbError ∨ q = .pageSize →
        SamePiece q s left))
  ∧ ∀ (i : Instr) (s left : State) (bit : Bool) (prob : Prob) (todo : List TokWord),
      (i = .tokConst bit prob
        ∨ ∃ (slot : BitVec 14) (j : Slot), i = .tokDyn bit slot ∧ j.val = slot.toNat ∧ prob = s.pwAt j) →
      s.pass = some (.emit todo) → s.CoderInv → s.phase ≠ .done → exec i s = .fault (.outOverflow left) →
      ∃ t, CodedBit bit prob s t ∧ left.range = t.range ∧ left.value = t.value ∧ left.nbBits = t.nbBits
        ∧ left.run = s.run ∧ left.held = s.held ∧ left.pos < t.pos

/-! ### What an instruction leaves unchanged -/

/-- An instruction that completes changes no piece of state but those the "Written by" of 10_state.md R11 to R33 gives
it: the frame of every instruction. -/
def Obligations.OnlyTheWritersWrite : Prop :=
  ∀ (q : Piece) (i : Instr) (s t : State), exec i s = .next t → writes q i = false → SamePiece q s t

/-- No instruction but INIT moves `pos` back or changes a byte of the output below it, and none changes a byte at or
above the new `pos` (10_state.md R15, R27). -/
def Obligations.OutputBelowPosIsFinal : Prop :=
  ∀ (i : Instr) (s t : State), exec i s = .next t → (∀ psize, i ≠ .init psize) →
    s.pos ≤ t.pos ∧ ∀ k, k < s.pos ∨ t.pos ≤ k → t.outByte k = s.outByte k

/-- The allocation error stays until INIT or CLEAR, and while it stays no append stores anything: the buffer changes only
where EMIT releases it (10_state.md R20, 41_token_buffer.md R104, 44_range_coder.md R151). -/
def Obligations.AllocationErrorIsSticky : Prop :=
  ∀ (i : Instr) (s t : State), exec i s = .next t → s.tbError = true → (∀ psize, i ≠ .init psize) → i ≠ .clear →
    t.tbError = true ∧ (i ≠ .emit → SamePiece .tokens s t)

/-! ### RECBLK -/

/-- The operand contract of RECBLK (40_token_encoder.md R86): outside it the block is refused, inside it never for that
reason, and the coefficients below `first` do not matter. -/
def Obligations.BlockContractChecked : Prop :=
  ∀ (s : State) (ctx ctype : BitVec 2) (first : BitVec 4) (last : BitVec 5) (co : Vector Coef 16),
    s.phase = .recording →
    (¬BlockContract ctx.toNat first.toNat last.toInt (fun i => co[i].toInt) →
      exec (.recblk ctx ctype first last co) s = .refused (.malformedBlock { s with refused := true }))
    ∧ (BlockContract ctx.toNat first.toNat last.toInt (fun i => co[i].toInt) →
      ∀ left, exec (.recblk ctx ctype first last co) s ≠ .refused (.malformedBlock left))
    ∧ ∀ co' : Vector Coef 16, (∀ i : Fin 16, first.toNat ≤ i.val → co'[i] = co[i]) →
      exec (.recblk ctx ctype first last co') s = exec (.recblk ctx ctype first last co) s

/-- An all-zero block appends the one token `D(0, SLOT0(type, first, ctx))` and tallies a 0 bit at its slot
(40_token_encoder.md R95). -/
def Obligations.AllZeroBlock : Prop :=
  ∀ (s : State) (ctx ctype : BitVec 2) (first : BitVec 4) (last : BitVec 5) (co : Vector Coef 16) (z : Slot),
    s.phase = .recording → last.toInt = -1 →
    BlockContract ctx.toNat first.toNat last.toInt (fun i => co[i].toInt) →
    z.val = 11 * (ctx.toNat + 3 * (first.toNat + 8 * ctype.toNat)) →
    ∃ t u, exec (.recblk ctx ctype first last co) s = .next t
      ∧ Appended (BitVec.ofNat 16 z.val) s u ∧ t = { u with tally := t.tally }
      ∧ (∀ j : Slot, j ≠ z → t.tallyAt j = s.tallyAt j)
      ∧ tallyTotal (t.tallyAt z) = (if tallyTotal (s.tallyAt z) = 65535 then 32768 else tallyTotal (s.tallyAt z) + 1)
      ∧ tallyCount (t.tallyAt z)
          = (if tallyTotal (s.tallyAt z) = 65535 then (tallyCount (s.tallyAt z) + 1) / 2
            else tallyCount (s.tallyAt z))
      ∧ (tallyCount (s.tallyAt z) = 0 → tallyCount (t.tallyAt z) = 0)

/-- An admitted block makes the decisions of its positions, each at the slot of its position's band and context
(40_token_encoder.md R87, R88, R91 to R95); it appends their token words in order and tallies each dynamic one at its
own slot whether or not it was stored, and changes nothing else (R89, R90, 42_statistics.md R119), wherever none of the
tallies takes `count1` past 65535. -/
def Obligations.RecblkResult : Prop :=
  ∀ (s : State) (ctx ctype : BitVec 2) (first : BitVec 4) (last : BitVec 5) (co : Vector Coef 16) (ds : List Decision),
    BlockContract ctx.toNat first.toNat last.toInt (fun i => co[i].toInt) →
    ds = blockTokens ctx.toNat ctype.toNat first.toNat last.toInt (fun n => (co[n]?.getD 0).toInt) →
    blockDecisions ctx ctype first last co = ds
    ∧ (s.phase = .recording → (∀ n, ¬s.OverflowsAt ds n) →
      ∃ t u, exec (.recblk ctx ctype first last co) s = .next t
        ∧ AppendedAll (ds.map Decision.word) s u ∧ t = { u with tally := t.tally }
        ∧ ∀ i : Slot, t.entryAt i = recordAll (bitsAt i ds) (s.entryAt i))

/-- Where a tally of an admitted block would take `count1` past 65535, the block stops there with `TallyCountOverflow`:
the token words of the decisions up to and with that one are appended and the tallies of those before it recorded, its
own tally and everything after it are not, and nothing but the mark changes besides (42_statistics.md R118,
60_exceptions.md R181, R183). -/
def Obligations.RecblkOverflow : Prop :=
  ∀ (s : State) (ctx ctype : BitVec 2) (first : BitVec 4) (last : BitVec 5) (co : Vector Coef 16) (ds : List Decision)
    (n : Nat), s.phase = .recording →
    BlockContract ctx.toNat first.toNat last.toInt (fun i => co[i].toInt) →
    ds = blockTokens ctx.toNat ctype.toNat first.toNat last.toInt (fun n => (co[n]?.getD 0).toInt) →
    s.OverflowsAt ds n → (∀ m, m < n → ¬s.OverflowsAt ds m) →
    ∃ left u, exec (.recblk ctx ctype first last co) s = .fault (.tallyCountOverflow left)
      ∧ AppendedAll ((ds.take (n + 1)).map Decision.word) s u
      ∧ left = { u with tally := left.tally, fault := some .tallyCountOverflow }
      ∧ ∀ i : Slot, left.entryAt i = recordAll (bitsAt i (ds.take n)) (s.entryAt i)

/-- The token counts of a block (40_token_encoder.md R96, 70_reset_and_hazards.md R213): its leading node-0 token, the
tokens of each coefficient from `first` to `last`, a continue token after each nonzero one not at position 15; at most
304 in all and at most 112 of them dynamic. -/
def Obligations.BlockTokenCount : Prop :=
  ∀ (ctx ctype : BitVec 2) (first : BitVec 4) (last : BitVec 5) (co : Vector Coef 16),
    BlockContract ctx.toNat first.toNat last.toInt (fun i => co[i].toInt) →
    (blockDecisions ctx ctype first last co).length
        = 1 + ((List.finRange 16).map fun n : Fin 16 =>
            if first.toNat ≤ n.val ∧ (n.val : Int) ≤ last.toInt then
              coefTokens co[n].toInt.natAbs + (if co[n] ≠ 0 ∧ n.val ≠ 15 then 1 else 0)
            else 0).sum
    ∧ (blockDecisions ctx ctype first last co).length ≤ 304
    ∧ ((blockDecisions ctx ctype first last co).filter Decision.isDyn).length ≤ 112

/-- Every token word of a block is legal, its slot one of the block's type, its constant probability 128, 159, 165, 145
or an entry of a table (40_token_encoder.md R97). -/
def Obligations.BlockTokensAreLegal : Prop :=
  ∀ (ctx ctype : BitVec 2) (first : BitVec 4) (last : BitVec 5) (co : Vector Coef 16),
    ∀ d ∈ blockDecisions ctx ctype first last co,
      (∃ bit slot, decodeToken d.word = .ok (.tokDyn bit slot) ∧ slot.toNat < 1056
        ∧ slot.toNat / 264 = ctype.toNat)
      ∨ ∃ bit prob, decodeToken d.word = .ok (.tokConst bit prob)
        ∧ (prob = 128 ∨ prob = 159 ∨ prob = 165 ∨ prob = 145
          ∨ prob ∈ cat3 ∨ prob ∈ cat4 ∨ prob ∈ cat5 ∨ prob ∈ cat6)

/-- A block ends with the end-of-block decision, node 0 with bit 0, unless position 15 holds its last coefficient: then it
ends with that coefficient's sign. The end-of-block slot is that of the first position for an all-zero block, else that
of the position after the last coefficient, in the band of that position and in context 1 or 2 as the last magnitude is
one or larger (30_encoding.md R63, 40_token_encoder.md R87, R88, R91, R94, R95). -/
def Obligations.BlockEnd : Prop :=
  ∀ (ctx ctype : BitVec 2) (first : BitVec 4) (last : BitVec 5) (co : Vector Coef 16),
    BlockContract ctx.toNat first.toNat last.toInt (fun i => co[i].toInt) →
    (last.toInt = -1 → ∃ i : Slot, i.val = 11 * (ctx.toNat + 3 * (first.toNat + 8 * ctype.toNat))
      ∧ (blockDecisions ctx ctype first last co).getLast? = some (.dyn false i))
    ∧ (∀ (n band : Nat), last.toInt = (n : Int) → n < 15 →
      [0, 1, 2, 3, 6, 4, 5, 6, 6, 6, 6, 6, 6, 6, 6, 7, 0][n + 1]? = some band →
      ∃ i : Slot, i.val = 11 * ((if (co[n]?.getD 0).toInt.natAbs = 1 then 1 else 2) + 3 * (band + 8 * ctype.toNat))
        ∧ (blockDecisions ctx ctype first last co).getLast? = some (.dyn false i))
    ∧ (last.toInt = 15 →
      (blockDecisions ctx ctype first last co).getLast? = some (.const (decide (co[15].toInt < 0)) 128))

/-- The trace table: the decisions of a block with one coefficient `v` or `-v` at position 0, context 0, type 3
(40_token_encoder.md R99). `D` and `C` are the notation of 30_encoding.md R74. -/
def Obligations.TraceTable : Prop :=
  let D : Bool → Slot → Decision := Decision.dyn
  let C : Bool → Prob → Decision := Decision.const
  let block : Int → List Decision := fun v =>
    blockDecisions 0 3 0 0 #v[BitVec.ofInt 16 v, 0, 0, 0, 0, 0, 0, 0, 0, 0, 0, 0, 0, 0, 0, 0]
  let row : Nat → List Decision → Slot → Nat → Prop := fun v middle eob total =>
    block v = [D true 792, D true 793] ++ middle ++ [C false 128, D false eob]
    ∧ block (-v) = [D true 792, D true 793] ++ middle ++ [C true 128, D false eob]
    ∧ (block v).length = total
  let big : List Decision := [D true 794, D true 795, D true 798]
  let two : List Decision := [D true 794, D true 795, D false 798, D true 799]
  row 1 [D false 794] 836 5
  ∧ row 2 [D true 794, D false 795, D false 796] 847 7
  ∧ row 3 [D true 794, D false 795, D true 796, D false 797] 847 8
  ∧ row 4 [D true 794, D false 795, D true 796, D true 797] 847 8
  ∧ row 5 [D true 794, D true 795, D false 798, D false 799, C false 159] 847 9
  ∧ row 6 [D true 794, D true 795, D false 798, D false 799, C true 159] 847 9
  ∧ row 7 (two ++ [C false 165, C false 145]) 847 10
  ∧ row 8 (two ++ [C false 165, C true 145]) 847 10
  ∧ row 9 (two ++ [C true 165, C false 145]) 847 10
  ∧ row 10 (two ++ [C true 165, C true 145]) 847 10
  ∧ row 11 (big ++ [D false 800, D false 801, C false 173, C false 148, C false 140]) 847 12
  ∧ row 18 (big ++ [D false 800, D false 801, C true 173, C true 148, C true 140]) 847 12
  ∧ row 19 (big ++ [D false 800, D true 801, C false 176, C false 155, C false 140, C false 135]) 847 13
  ∧ row 34 (big ++ [D false 800, D true 801, C true 176, C true 155, C true 140, C true 135]) 847 13
  ∧ row 35 (big ++ [D true 800, D false 802, C false 180, C false 157, C false 141, C false 134, C false 130]) 847 14
  ∧ row 66 (big ++ [D true 800, D false 802, C true 180, C true 157, C true 141, C true 134, C true 130]) 847 14
  ∧ row 67 (big ++ [D true 800, D true 802, C false 254, C false 254, C false 243, C false 230, C false 196,
      C false 177, C false 153, C false 140, C false 133, C false 130, C false 129]) 847 20
  ∧ row 2047 (big ++ [D true 800, D true 802, C true 254, C true 254, C true 243, C true 230, C false 196,
      C true 177, C true 153, C true 140, C true 133, C false 130, C false 129]) 847 20

/-- The token words of a block determine its coefficients: two admitted blocks with the same context, type and first
position and the same words have the same `last` and the same coefficients (40_token_encoder.md R88 to R94). -/
def Obligations.BlockIsLossless : Prop :=
  ∀ (ctx ctype : BitVec 2) (first : BitVec 4) (last last' : BitVec 5) (co co' : Vector Coef 16),
    BlockContract ctx.toNat first.toNat last.toInt (fun i => co[i].toInt) →
    BlockContract ctx.toNat first.toNat last'.toInt (fun i => co'[i].toInt) →
    (blockDecisions ctx ctype first last co).map Decision.word
      = (blockDecisions ctx ctype first last' co').map Decision.word →
    last = last' ∧ ∀ i : Fin 16, first.toNat ≤ i.val → co[i] = co'[i]

/-! ### The token buffer -/

/-- APPD: refused on a slot of 1056 or more, and outside phase `REC`; else it appends the word `(bit << 15) | slot` and
changes nothing else (41_token_buffer.md R102, R103, R104, R105). -/
def Obligations.AppdResult : Prop :=
  ∀ (s : State) (bit : Bool) (slot : BitVec 14),
    (1056 ≤ slot.toNat → exec (.appd bit slot) s = .refused (.illegalCommand { s with refused := true }))
    ∧ (slot.toNat < 1056 → s.phase ≠ .recording →
      exec (.appd bit slot) s = .refused (.phaseViolation { s with refused := true }))
    ∧ (slot.toNat < 1056 → s.phase = .recording → ∃ t, exec (.appd bit slot) s = .next t
      ∧ Appended (BitVec.ofNat 16 (bit.toNat * 32768 + slot.toNat)) s t)

/-- APPC: refused outside phase `REC`; else it appends the word `(bit << 15) | (1 << 14) | prob` and changes nothing else
(41_token_buffer.md R102, R103, R104, R106). -/
def Obligations.AppcResult : Prop :=
  ∀ (s : State) (bit : Bool) (prob : Prob),
    (s.phase ≠ .recording → exec (.appc bit prob) s = .refused (.phaseViolation { s with refused := true }))
    ∧ (s.phase = .recording → ∃ t, exec (.appc bit prob) s = .next t
      ∧ Appended (BitVec.ofNat 16 (bit.toNat * 32768 + 16384 + prob.toNat)) s t)

/-- CLEAR empties the token buffer, clears the allocation error, and changes nothing else (41_token_buffer.md R109,
70_reset_and_hazards.md R199). -/
def Obligations.ClearResult : Prop :=
  ∀ s : State,
    (s.phase = .uninit → exec .clear s = .refused (.phaseViolation { s with refused := true }))
    ∧ (s.phase ≠ .uninit → ∃ t, exec .clear s = .next t
      ∧ t = { s with tok := t.tok, npages := 0, left := 0, tbError := false } ∧ t.tokseq = [])

/-- Appends to a buffer with room for them all are traversed in the order they were made, after the tokens that were
there (41_token_buffer.md R102, R107, R108, R112). -/
def Obligations.AppendsAreTraversedInOrder : Prop :=
  ∀ (s : State) (is : List Instr) (words : List TokWord), s.phase = .recording → s.BufferInv → (∀ i ∈ is, i.wellFormed = true) → is.mapM appendedWord = some words →
    s.HasRoomFor is.length →
    ∃ t, runAll is s = .next t ∧ t.tokseq = s.tokseq ++ words ∧ t.tbError = false
      ∧ t.ntok = s.ntok + is.length

/-- The layout of the token sequence in pages (41_token_buffer.md R107). -/
def Obligations.TokenLayout : Prop :=
  ∀ s : State, s.BufferInv →
    s.tokseq.length = s.ntok
    ∧ s.npages = (s.ntok + s.pageSize - 1) / s.pageSize ∧ s.left = s.npages * s.pageSize - s.ntok
    ∧ ∀ (i : Nat) (h : i < s.tokseq.length), s.tokWord (i / s.pageSize) (s.pageSize - 1 - i % s.pageSize) = s.tokseq[i]

/-! ### Statistics -/

/-- TALLY: refused on a slot of 1056 or more and outside phase `REC`; else it records the bit in the slot's entry with
the halving rule, or, where `count1` would pass 65535, stops with the fault and writes nothing (42_statistics.md R116,
R117). -/
def Obligations.TallyResult : Prop :=
  ∀ (s : State) (bit : Bool) (slot : BitVec 14),
    (1056 ≤ slot.toNat → exec (.tally bit slot) s = .refused (.illegalCommand { s with refused := true }))
    ∧ ∀ i : Slot, i.val = slot.toNat →
      (s.phase ≠ .recording → exec (.tally bit slot) s = .refused (.phaseViolation { s with refused := true }))
      ∧ ∀ b count1 total count1' total' : Nat, s.phase = .recording → b = (if bit then 1 else 0) →
        count1 = tallyCount (s.tallyAt i) → total = tallyTotal (s.tallyAt i) →
        total' = (if total = 65535 then 32768 else total + 1) →
        count1' = (if total = 65535 then (count1 + 1 + 2 * b) / 2 else count1 + b) →
        (65535 < count1' →
          exec (.tally bit slot) s
            = .fault (.tallyCountOverflow { s with fault := some .tallyCountOverflow }))
        ∧ (count1' ≤ 65535 → ∃ t, exec (.tally bit slot) s = .next t ∧ t = { s with tally := t.tally }
          ∧ (∀ j : Slot, j ≠ i → t.tallyAt j = s.tallyAt j)
          ∧ tallyCount (t.tallyAt i) = count1' ∧ tallyTotal (t.tallyAt i) = total')

/-- In every state with the invariant of the statistics, TALLY faults exactly from the entry (65535, 65534) with bit 1
(42_statistics.md R118). -/
def Obligations.TallyFaultsOnlyThere : Prop :=
  ∀ (s : State) (bit : Bool) (slot : BitVec 14) (i : Slot), s.phase = .recording → s.TallyInv → i.val = slot.toNat →
    ((∃ left, exec (.tally bit slot) s = .fault (.tallyCountOverflow left))
      ↔ tallyCount (s.tallyAt i) = 65535 ∧ tallyTotal (s.tallyAt i) = 65534 ∧ bit = true)

/-- The halving law: the entry after `N` equal bits from zero in closed form, the fault at the 98,303rd 1 bit, and the
three values of alternating bits (42_statistics.md R118, R120). -/
def Obligations.HalvingLaw : Prop :=
  ∀ (s : State) (slot : BitVec 14) (i : Slot), s.phase = .recording → i.val = slot.toNat → s.tallyAt i = 0 →
    (∀ N, ∃ t, runAll (tallyTimes N false slot) s = .next t ∧ tallyCount (t.tallyAt i) = 0
      ∧ tallyTotal (t.tallyAt i) = (if N ≤ 65535 then N else 32768 + (N - 65536) % 32768))
    ∧ (∀ N, N ≤ 98302 → ∃ t, runAll (tallyTimes N true slot) s = .next t
      ∧ tallyCount (t.tallyAt i) = (if N ≤ 65535 then N else N - 32767)
      ∧ tallyTotal (t.tallyAt i) = (if N ≤ 65535 then N else N - 32768))
    ∧ (∀ N, 98303 ≤ N → ∃ left, runAll (tallyTimes N true slot) s = .fault (.tallyCountOverflow left))
    ∧ ∀ N count1 total, (N, count1, total) ∈ [(65535, 32768, 65535), (65536, 16384, 32768), (65537, 16385, 32769)] →
      ∃ t, runAll ((List.range N).map fun k => .tally (k % 2 == 0) slot) s = .next t
        ∧ tallyCount (t.tallyAt i) = count1 ∧ tallyTotal (t.tallyAt i) = total

/-! ### FINALIZE -/

/-- FINALIZE: for every slot the measured probability where it is strictly cheaper, else the default; `dirty` exactly
when the table then differs from the default; nothing else but the phase changes (43_finalizer.md R122 to R130). The
premise is the invariant of the statistics, under which `new_p` fits 8 bits (R123). -/
def Obligations.FinalizeResult : Prop :=
  ∀ s : State, s.phase = .recording → s.TallyInv →
    ∃ t, exec .finalize s = .next t
      ∧ t = { s with pw := t.pw, dirty := t.dirty, phase := .finalized }
      ∧ (t.dirty = true ↔ ∃ i : Slot, t.pwAt i ≠ s.cfg.p0[i])
      ∧ ∀ (i : Slot) (nb total : Nat) (newP oldP u : Prob) (oldCost newCost : Int),
        nb = tallyCount (s.tallyAt i) → total = tallyTotal (s.tallyAt i) →
        (newP.toNat : Int) = (if nb = 0 then 255 else 255 - ((nb * 255 / total : Nat) : Int)) →
        oldP = s.cfg.p0[i] → u = s.cfg.upd[i] →
        oldCost = nb * costAt s.cfg (255 - oldP) + (total - nb : Int) * costAt s.cfg oldP + costAt s.cfg u →
        newCost = nb * costAt s.cfg (255 - newP) + (total - nb : Int) * costAt s.cfg newP
          + costAt s.cfg (255 - u) + 8 * 256 →
        t.pwAt i = (if newCost < oldCost then newP else oldP)

/-- `CalcTokenProba` lies in 0..255 for every entry the statistics can hold, is 0 where every bit was 1, and has the
spec's values (43_finalizer.md R123). -/
def Obligations.MeasuredProbability : Prop :=
  (∀ (w : TallyWord) (nb total : Nat), TallyEntryInv w → nb = tallyCount w → total = tallyTotal w →
    (nb = 0 → calcTokenProba nb total = 255)
    ∧ (nb ≠ 0 → calcTokenProba nb total = 255 - ((nb * 255 / total : Nat) : Int))
    ∧ 0 ≤ calcTokenProba nb total ∧ calcTokenProba nb total ≤ 255
    ∧ (1 ≤ nb → total ≤ nb → calcTokenProba nb total = 0)
    ∧ ((measuredProb nb total).toNat : Int) = calcTokenProba nb total)
  ∧ calcTokenProba 1 1 = 0 ∧ calcTokenProba 1 2 = 128 ∧ calcTokenProba 1 3 = 170 ∧ calcTokenProba 30 100 = 179
  ∧ calcTokenProba 50 100 = 128 ∧ calcTokenProba 1 65535 = 255 ∧ calcTokenProba 3 200 = 252

/-- With all tallies zero FINALIZE keeps every default and `dirty` is 0 exactly when the configuration has the property
of 43_finalizer.md R133. -/
def Obligations.ZeroTalliesKeepDefaults : Prop :=
  ∀ s : State, s.phase = .recording → (∀ i : Slot, s.tallyAt i = 0) →
    ∃ t, exec .finalize s = .next t
      ∧ (((∀ i : Slot, t.pwAt i = s.cfg.p0[i]) ∧ t.dirty = false)
        ↔ ∀ i : Slot, (costAt s.cfg s.cfg.upd[i] : Int) - costAt s.cfg (255 - s.cfg.upd[i]) ≤ 2048
            ∨ s.cfg.p0[i] = 255)

/-! ### The range coder -/

/-- The split and the new range, for every range between commands, probability and bit (44_range_coder.md R138, R139,
R156 (a) and (e)). -/
def Obligations.SplitFacts : Prop :=
  ∀ (range : Nat) (prob : Prob), 127 ≤ range → range ≤ 254 →
    1 ≤ splitOf range prob.toNat ∧ splitOf range prob.toNat ≤ range
    ∧ (prob = 0 → splitOf range prob.toNat = 1) ∧ (prob = 255 → splitOf range prob.toNat = range)
    ∧ ∀ bit : Bool, ∀ rn, rn = newRange bit range (splitOf range prob.toNat) →
      1 ≤ rn ∧ rn ≤ 254 ∧ clz8 rn ≤ 7 ∧ 127 ≤ rn * 2 ^ clz8 rn - 1 ∧ rn * 2 ^ clz8 rn - 1 ≤ 253

/-- TOK_CONST under EMIT codes its bit with its constant probability, and under ESTIMATE adds its cost to the sum
(44_range_coder.md R148; PUTBIT: R137 to R146). Under EMIT: in every state with the coder's invariants and an open
stream, where no byte group leaves or the output has room for what it pushes out. -/
def Obligations.TokConstResult : Prop :=
  ∀ (s : State) (bit : Bool) (prob : Prob) (todo : List TokWord),
    (s.pass = some (.emit todo) → s.CoderInv → s.phase ≠ .done →
      s.nbBits.toInt + clz8 (newRange bit s.range.toNat (splitOf s.range.toNat prob.toNat)) ≤ 0
        ∨ s.pos + s.run + 1 ≤ s.cfg.outCapacity →
      ∃ t, exec (.tokConst bit prob) s = .next t ∧ CodedBit bit prob s t)
    ∧ ∀ acc, s.pass = some (.estimate todo acc) →
      exec (.tokConst bit prob) s
        = .next { s with
            pass := some (.estimate todo (acc + costAt s.cfg (if bit then 255 - prob else prob))) }

/-- TOK_DYN does the same with the probability that its slot has in the working table when it is executed
(44_range_coder.md R147). -/
def Obligations.TokDynResult : Prop :=
  ∀ (s : State) (bit : Bool) (slot : BitVec 14) (i : Slot) (todo : List TokWord), i.val = slot.toNat →
    (s.pass = some (.emit todo) → s.CoderInv → s.phase ≠ .done →
      s.nbBits.toInt + clz8 (newRange bit s.range.toNat (splitOf s.range.toNat (s.pwAt i).toNat)) ≤ 0
        ∨ s.pos + s.run + 1 ≤ s.cfg.outCapacity →
      ∃ t, exec (.tokDyn bit slot) s = .next t ∧ CodedBit bit (s.pwAt i) s t)
    ∧ ∀ acc, s.pass = some (.estimate todo acc) →
      exec (.tokDyn bit slot) s
        = .next { s with
            pass := some (.estimate todo (acc + costAt s.cfg (if bit then 255 - s.pwAt i else s.pwAt i))) }

/-- Where a token word stops: outside a traversal, and a reserved slot (both stops are the model's own, log 3 and log 10;
30_encoding.md R62, R71). -/
def Obligations.TokenWordStops : Prop :=
  ∀ (s : State) (bit : Bool) (slot : BitVec 14) (prob : Prob),
    (1056 ≤ slot.toNat → exec (.tokDyn bit slot) s = .fault (.reservedToken { s with pass := none }))
    ∧ (s.pass = none → slot.toNat < 1056 → exec (.tokDyn bit slot) s = .refused (.tokenOutsidePass s))
    ∧ (s.pass = none → exec (.tokConst bit prob) s = .refused (.tokenOutsidePass s))

/-- The low end of the coder's interval, read in full from the bytes that have left and from `value`, moves exactly as an
arithmetic coder without a packer moves it: a coded bit adds the split or nothing and scales by the shift, whatever
bytes, carries and runs it pushes out (44_range_coder.md R137 to R145, R157). -/
def Obligations.TokenMovesTheLowEnd : Prop :=
  ∀ (s t : State) (bit : Bool) (prob : Prob) (todo : List TokWord), s.pass = some (.emit todo) → s.CoderInv →
    s.phase ≠ .done → exec (.tokConst bit prob) s = .next t →
    t.lowEnd = (Interval.code { low := s.lowEnd, range := s.range.toNat, shifts := 0 } bit prob).low
    ∧ t.range.toNat = (Interval.code { low := s.lowEnd, range := s.range.toNat, shifts := 0 } bit prob).range

/-- Writing a byte: at or above the capacity it stops with the fault; else the byte stands at `pos`, every other byte reads
as before, and `pos` moves by one (44_range_coder.md R146). -/
def Obligations.WriteByteResult : Prop :=
  ∀ (s : State) (b : Byte),
    (s.cfg.outCapacity ≤ s.pos → writeByte b s = .fault (.outOverflow { s with fault := some .outOverflow }))
    ∧ (s.pos < s.cfg.outCapacity → ∃ t, writeByte b s = .next t ∧ t = { s with out := t.out, pos := s.pos + 1 }
      ∧ ∀ k, t.outByte k = if k = s.pos then b else s.outByte k)

/-- No carry ever arrives while no byte is held: from a state with the coder's invariants and an open stream no
instruction stops with `CarryNoHeld` (10_state.md R17 (e), 44_range_coder.md R156 (d)). -/
def Obligations.CarryAlwaysFindsAHeldByte : Prop :=
  ∀ (i : Instr) (s left : State), s.CoderInv → s.phase ≠ .done → exec i s ≠ .fault (.carryNoHeld left)

/-- From a state with the invariants of the coder and of the token buffer, a command faults only as the spec lists:
`OutOverflow` in EMIT and FINISH, `TallyCountOverflow` in RECBLK and TALLY (60_exceptions.md R176; `CarryNoHeld` is
unreachable, and so is the model's own stop on a reserved word, log 10). -/
def Obligations.CommandsFaultOnlyAsListed : Prop :=
  ∀ (i : Instr) (s : State) (x : Fault), isCommand i = true → s.CoderInv → s.BufferInv → exec i s = .fault x →
    (∃ left, x = .outOverflow left ∧ (i = .emit ∨ i = .finish))
    ∨ ∃ left, x = .tallyCountOverflow left
      ∧ ((∃ ctx ctype first last co, i = .recblk ctx ctype first last co) ∨ ∃ bit slot, i = .tally bit slot)

/-! ### ESTIMATE, EMIT, FINISH -/

/-- ESTIMATE writes the sum of the costs of the recorded tokens under the working table into `size_est`, and nothing else
(44_range_coder.md R152). -/
def Obligations.EstimateResult : Prop :=
  ∀ (s : State) (bits : List (Bool × Prob)), s.pass = none →
    (s.phase ≠ .recording → s.phase ≠ .finalized →
      exec .estimate s = .refused (.phaseViolation { s with refused := true }))
    ∧ (s.phase = .recording ∨ s.phase = .finalized → s.tokseq.mapM s.resolve = some bits →
      exec .estimate s
        = .next { s with
            sizeEst := (bits.map fun q => costAt s.cfg (if q.1 then 255 - q.2 else q.2)).sum })

/-- EMIT codes the recorded tokens in order, copies the registers into the end-of-partition record, releases the pages and
moves to `EMITTED`, and changes nothing else (44_range_coder.md R149, R150, R151). `EOP.max_pos` is free (log 6). The
room it is given is enough for what the tokens can push out. -/
def Obligations.EmitResult : Prop :=
  ∀ (s : State) (bits : List (Bool × Prob)),
    s.phase = .recording ∨ s.phase = .finalized → s.pass = none → s.CoderInv →
    s.tokseq.mapM s.resolve = some bits →
    s.pos + s.run + 1 + (s.bitCount + 7 * bits.length) / 8 ≤ s.cfg.outCapacity →
    ∃ t m, exec .emit s = .next t ∧ CodedAll bits s m
      ∧ t = { m with
          tok := t.tok
          npages := 0
          left := 0
          eop := t.eop
          phase := .emitted
          freeCount := t.freeCount }
      ∧ t.tokseq = []
      ∧ t.eop.range = m.range ∧ t.eop.value = m.value ∧ t.eop.nbBits = m.nbBits ∧ t.eop.pos = m.pos
      ∧ t.eop.run = m.run ∧ t.eop.error = false

/-- EMIT and ESTIMATE are their token words one step at a time: opening the traversal and stepping once for each
recorded token and once more to close it gives what the one command gives, whether it completes or stops
(44_range_coder.md R149, R152, 10_state.md R31; steps inside a command are the model's own, log 3). -/
def Obligations.TraversalIsItsTokenSteps : Prop :=
  ∀ (s : State) (ts : List TokWord), s.phase = .recording ∨ s.phase = .finalized → ts = s.tokseq →
    Sys2Proof.core.run (ts.length + 1) { s with pass := some (.emit ts) } = exec .emit s
    ∧ Sys2Proof.core.run (ts.length + 1) { s with pass := some (.estimate ts 0) } = exec .estimate s

/-- FINISH pads, extracts once more and flushes: both buffers are empty after it, it adds three bytes to those already
extracted, two to an empty stream, the last of them 0x00, the bytes already written stay, and nothing outside the coder,
the output and the phase changes (44_range_coder.md R153, R158). -/
def Obligations.FinishResult : Prop :=
  ∀ s : State, s.phase = .emitted → s.CoderInv →
    s.pos + s.run + (if s.held = 0xFF then 0 else 1) + (if s.range = 254 then 2 else 3) ≤ s.cfg.outCapacity →
    ∃ t m, exec .finish s = .next t ∧ CodedAll (List.replicate (9 - s.nbBits.toInt).toNat (false, 128)) s m
      ∧ t = { m with
          value := 0
          nbBits := -8
          run := 0
          held := 0xFF
          pos := t.pos
          out := t.out
          phase := .done }
      ∧ t.pos = s.pos + s.run + (if s.held = 0xFF then 0 else 1) + (if s.range = 254 then 2 else 3)
      ∧ t.pos = m.pos + m.run + 2 ∧ t.outByte (t.pos - 1) = 0x00 ∧ t.outByte m.pos = m.held
      ∧ (∀ k, m.pos < k → k < t.pos - 1 → t.outByte k = 0xFF)
      ∧ ∀ k, k < m.pos ∨ t.pos ≤ k → t.outByte k = m.outByte k

/-- The output bound: with `ntok` tokens in the buffer at EMIT, the partition of a frame has at most
`floor(7·ntok / 8) + 3` bytes, 2 where there is none, and with that much output memory EMIT and FINISH complete
(70_reset_and_hazards.md R209). -/
def Obligations.OutputBound : Prop :=
  ∀ (s : State) (bits : List (Bool × Prob)) (bound : Nat),
    s.phase = .recording ∨ s.phase = .finalized → s.pass = none →
    s.range = 254 → s.value = 0 → s.nbBits.toInt = -8 → s.run = 0 → s.pos = 0 → s.held = 0xFF →
    s.tokseq.mapM s.resolve = some bits →
    bound = (if bits.length = 0 then 2 else 7 * bits.length / 8 + 3) → bound ≤ s.cfg.outCapacity →
    ∃ t u, exec .emit s = .next t ∧ exec .finish t = .next u ∧ u.pos ≤ bound

/-- The partition of a frame, read as a binary fraction, is the low end of the interval that an arithmetic coder without
bytes, carries or runs gives for the same bits and probabilities (44_range_coder.md R137 to R145, R153, R159). -/
def Obligations.PartitionIsTheLowEnd : Prop :=
  ∀ (s t u : State) (bits : List (Bool × Prob)) (e : Interval), s.pass = none →
    s.range = 254 → s.value = 0 → s.nbBits.toInt = -8 → s.run = 0 → s.pos = 0 → s.held = 0xFF →
    s.tokseq.mapM s.resolve = some bits → exec .emit s = .next t → exec .finish t = .next u →
    e = Interval.start.codeAll bits →
    bytesValue u.partitionBytes * 2 ^ (e.shifts + 8) = e.low * 256 ^ u.pos

/-- The partition of a frame decodes to the bits of its tokens: a decoder that is given the same probabilities in order
reads them back from the bytes (44_range_coder.md R136 to R139, R159). -/
def Obligations.PartitionDecodesToTheTokens : Prop :=
  ∀ (s t u : State) (bits : List (Bool × Prob)), s.pass = none →
    s.range = 254 → s.value = 0 → s.nbBits.toInt = -8 → s.run = 0 → s.pos = 0 → s.held = 0xFF →
    s.tokseq.mapM s.resolve = some bits → exec .emit s = .next t → exec .finish t = .next u →
    decodeBits (bits.map fun q => q.2) 254 (256 ^ u.pos) (256 * bytesValue u.partitionBytes)
      = bits.map fun q => q.1

/-! ### Invariants that every step keeps -/

/-- Every step keeps the invariants of the coder registers (10_state.md R17, 44_range_coder.md R156). -/
def Obligations.StepKeepsCoderInvariants : Prop :=
  ∀ s t : State, s.CoderInv → s.PassInv → step s = .next t → t.CoderInv ∧ t.PassInv

/-- Every step keeps the invariants of the token buffer, so that no traversal ever reads an unwritten slot or meets a
reserved word (10_state.md R18, R19, 30_encoding.md R62, 41_token_buffer.md R107). -/
def Obligations.StepKeepsBufferInvariants : Prop :=
  ∀ s t : State, s.BufferInv → step s = .next t → t.BufferInv

/-- Every step keeps the invariant of the statistics (42_statistics.md R118). -/
def Obligations.StepKeepsTallyInvariant : Prop :=
  ∀ s t : State, s.TallyInv → step s = .next t → t.TallyInv

/-- Every step keeps the invariants of the working table: it is the default while recording, and `dirty` says whether it
differs (10_state.md R23, R29, 43_finalizer.md R130, R131). -/
def Obligations.StepKeepsTableInvariants : Prop :=
  ∀ s t : State, s.TableInv → s.PassInv → step s = .next t → t.TableInv

/-- Every step keeps the output memory within its capacity with every byte below `pos` written (10_state.md R27), and the
canonical form of both memories (the model's own form, log 8, log 9). -/
def Obligations.StepKeepsMemoryInvariants : Prop :=
  ∀ s t : State, s.OutInv → s.MemoryWf → step s = .next t → t.OutInv ∧ t.MemoryWf

/-- The invariants hold in the model's reset state (the values are the model's, log 5), and INIT makes those of the coder,
the buffer, the statistics and the table hold from any state (70_reset_and_hazards.md R197). -/
def Obligations.InvariantsHoldAtResetAndAfterInit : Prop :=
  (State.reset.CoderInv ∧ State.reset.PassInv ∧ State.reset.BufferInv ∧ State.reset.TallyInv ∧ State.reset.TableInv
    ∧ State.reset.OutInv ∧ State.reset.MemoryWf)
  ∧ ∀ (s t : State) (psize : BitVec 24), exec (.init psize) s = .next t →
      t.CoderInv ∧ t.PassInv ∧ t.BufferInv ∧ t.TallyInv ∧ t.TableInv
end

