-- ==== Sys2Proof/Laws/State.lean ====
section
/-! SUPPORT. The field lemmas of the state: one per field per named update, each true by unfolding. -/

namespace Sys2Proof.Machine

/-! ### setTbError -/

@[simp] theorem setTbError_cfg (s : State) : s.setTbError.cfg = s.cfg := rfl
@[simp] theorem setTbError_range (s : State) : s.setTbError.range = s.range := rfl
@[simp] theorem setTbError_value (s : State) : s.setTbError.value = s.value := rfl
@[simp] theorem setTbError_nbBits (s : State) : s.setTbError.nbBits = s.nbBits := rfl
@[simp] theorem setTbError_run (s : State) : s.setTbError.run = s.run := rfl
@[simp] theorem setTbError_pos (s : State) : s.setTbError.pos = s.pos := rfl
@[simp] theorem setTbError_held (s : State) : s.setTbError.held = s.held := rfl
@[simp] theorem setTbError_tok (s : State) : s.setTbError.tok = s.tok := rfl
@[simp] theorem setTbError_npages (s : State) : s.setTbError.npages = s.npages := rfl
@[simp] theorem setTbError_left (s : State) : s.setTbError.left = s.left := rfl
@[simp] theorem setTbError_pageSize (s : State) : s.setTbError.pageSize = s.pageSize := rfl
@[simp] theorem setTbError_tbError (s : State) : s.setTbError.tbError = true := rfl
@[simp] theorem setTbError_tally (s : State) : s.setTbError.tally = s.tally := rfl
@[simp] theorem setTbError_pw (s : State) : s.setTbError.pw = s.pw := rfl
@[simp] theorem setTbError_out (s : State) : s.setTbError.out = s.out := rfl
@[simp] theorem setTbError_sizeEst (s : State) : s.setTbError.sizeEst = s.sizeEst := rfl
@[simp] theorem setTbError_dirty (s : State) : s.setTbError.dirty = s.dirty := rfl
@[simp] theorem setTbError_eop (s : State) : s.setTbError.eop = s.eop := rfl
@[simp] theorem setTbError_phase (s : State) : s.setTbError.phase = s.phase := rfl
@[simp] theorem setTbError_fault (s : State) : s.setTbError.fault = s.fault := rfl
@[simp] theorem setTbError_refused (s : State) : s.setTbError.refused = s.refused := rfl
@[simp] theorem setTbError_cmds (s : State) : s.setTbError.cmds = s.cmds := rfl
@[simp] theorem setTbError_pass (s : State) : s.setTbError.pass = s.pass := rfl
@[simp] theorem setTbError_freeCount (s : State) : s.setTbError.freeCount = s.freeCount := rfl

/-! ### clearTbError -/

@[simp] theorem clearTbError_cfg (s : State) : s.clearTbError.cfg = s.cfg := rfl
@[simp] theorem clearTbError_range (s : State) : s.clearTbError.range = s.range := rfl
@[simp] theorem clearTbError_value (s : State) : s.clearTbError.value = s.value := rfl
@[simp] theorem clearTbError_nbBits (s : State) : s.clearTbError.nbBits = s.nbBits := rfl
@[simp] theorem clearTbError_run (s : State) : s.clearTbError.run = s.run := rfl
@[simp] theorem clearTbError_pos (s : State) : s.clearTbError.pos = s.pos := rfl
@[simp] theorem clearTbError_held (s : State) : s.clearTbError.held = s.held := rfl
@[simp] theorem clearTbError_tok (s : State) : s.clearTbError.tok = s.tok := rfl
@[simp] theorem clearTbError_npages (s : State) : s.clearTbError.npages = s.npages := rfl
@[simp] theorem clearTbError_left (s : State) : s.clearTbError.left = s.left := rfl
@[simp] theorem clearTbError_pageSize (s : State) : s.clearTbError.pageSize = s.pageSize := rfl
@[simp] theorem clearTbError_tbError (s : State) : s.clearTbError.tbError = false := rfl
@[simp] theorem clearTbError_tally (s : State) : s.clearTbError.tally = s.tally := rfl
@[simp] theorem clearTbError_pw (s : State) : s.clearTbError.pw = s.pw := rfl
@[simp] theorem clearTbError_out (s : State) : s.clearTbError.out = s.out := rfl
@[simp] theorem clearTbError_sizeEst (s : State) : s.clearTbError.sizeEst = s.sizeEst := rfl
@[simp] theorem clearTbError_dirty (s : State) : s.clearTbError.dirty = s.dirty := rfl
@[simp] theorem clearTbError_eop (s : State) : s.clearTbError.eop = s.eop := rfl
@[simp] theorem clearTbError_phase (s : State) : s.clearTbError.phase = s.phase := rfl
@[simp] theorem clearTbError_fault (s : State) : s.clearTbError.fault = s.fault := rfl
@[simp] theorem clearTbError_refused (s : State) : s.clearTbError.refused = s.refused := rfl
@[simp] theorem clearTbError_cmds (s : State) : s.clearTbError.cmds = s.cmds := rfl
@[simp] theorem clearTbError_pass (s : State) : s.clearTbError.pass = s.pass := rfl
@[simp] theorem clearTbError_freeCount (s : State) : s.clearTbError.freeCount = s.freeCount := rfl

/-! ### writeDirty -/

@[simp] theorem writeDirty_cfg (d : Bool) (s : State) : (State.writeDirty d s).cfg = s.cfg := rfl
@[simp] theorem writeDirty_range (d : Bool) (s : State) : (State.writeDirty d s).range = s.range := rfl
@[simp] theorem writeDirty_value (d : Bool) (s : State) : (State.writeDirty d s).value = s.value := rfl
@[simp] theorem writeDirty_nbBits (d : Bool) (s : State) : (State.writeDirty d s).nbBits = s.nbBits := rfl
@[simp] theorem writeDirty_run (d : Bool) (s : State) : (State.writeDirty d s).run = s.run := rfl
@[simp] theorem writeDirty_pos (d : Bool) (s : State) : (State.writeDirty d s).pos = s.pos := rfl
@[simp] theorem writeDirty_held (d : Bool) (s : State) : (State.writeDirty d s).held = s.held := rfl
@[simp] theorem writeDirty_tok (d : Bool) (s : State) : (State.writeDirty d s).tok = s.tok := rfl
@[simp] theorem writeDirty_npages (d : Bool) (s : State) : (State.writeDirty d s).npages = s.npages := rfl
@[simp] theorem writeDirty_left (d : Bool) (s : State) : (State.writeDirty d s).left = s.left := rfl
@[simp] theorem writeDirty_pageSize (d : Bool) (s : State) : (State.writeDirty d s).pageSize = s.pageSize := rfl
@[simp] theorem writeDirty_tbError (d : Bool) (s : State) : (State.writeDirty d s).tbError = s.tbError := rfl
@[simp] theorem writeDirty_tally (d : Bool) (s : State) : (State.writeDirty d s).tally = s.tally := rfl
@[simp] theorem writeDirty_pw (d : Bool) (s : State) : (State.writeDirty d s).pw = s.pw := rfl
@[simp] theorem writeDirty_out (d : Bool) (s : State) : (State.writeDirty d s).out = s.out := rfl
@[simp] theorem writeDirty_sizeEst (d : Bool) (s : State) : (State.writeDirty d s).sizeEst = s.sizeEst := rfl
@[simp] theorem writeDirty_dirty (d : Bool) (s : State) : (State.writeDirty d s).dirty = d := rfl
@[simp] theorem writeDirty_eop (d : Bool) (s : State) : (State.writeDirty d s).eop = s.eop := rfl
@[simp] theorem writeDirty_phase (d : Bool) (s : State) : (State.writeDirty d s).phase = s.phase := rfl
@[simp] theorem writeDirty_fault (d : Bool) (s : State) : (State.writeDirty d s).fault = s.fault := rfl
@[simp] theorem writeDirty_refused (d : Bool) (s : State) : (State.writeDirty d s).refused = s.refused := rfl
@[simp] theorem writeDirty_cmds (d : Bool) (s : State) : (State.writeDirty d s).cmds = s.cmds := rfl
@[simp] theorem writeDirty_pass (d : Bool) (s : State) : (State.writeDirty d s).pass = s.pass := rfl
@[simp] theorem writeDirty_freeCount (d : Bool) (s : State) : (State.writeDirty d s).freeCount = s.freeCount := rfl

/-! ### markRefused -/

@[simp] theorem markRefused_cfg (s : State) : s.markRefused.cfg = s.cfg := rfl
@[simp] theorem markRefused_range (s : State) : s.markRefused.range = s.range := rfl
@[simp] theorem markRefused_value (s : State) : s.markRefused.value = s.value := rfl
@[simp] theorem markRefused_nbBits (s : State) : s.markRefused.nbBits = s.nbBits := rfl
@[simp] theorem markRefused_run (s : State) : s.markRefused.run = s.run := rfl
@[simp] theorem markRefused_pos (s : State) : s.markRefused.pos = s.pos := rfl
@[simp] theorem markRefused_held (s : State) : s.markRefused.held = s.held := rfl
@[simp] theorem markRefused_tok (s : State) : s.markRefused.tok = s.tok := rfl
@[simp] theorem markRefused_npages (s : State) : s.markRefused.npages = s.npages := rfl
@[simp] theorem markRefused_left (s : State) : s.markRefused.left = s.left := rfl
@[simp] theorem markRefused_pageSize (s : State) : s.markRefused.pageSize = s.pageSize := rfl
@[simp] theorem markRefused_tbError (s : State) : s.markRefused.tbError = s.tbError := rfl
@[simp] theorem markRefused_tally (s : State) : s.markRefused.tally = s.tally := rfl
@[simp] theorem markRefused_pw (s : State) : s.markRefused.pw = s.pw := rfl
@[simp] theorem markRefused_out (s : State) : s.markRefused.out = s.out := rfl
@[simp] theorem markRefused_sizeEst (s : State) : s.markRefused.sizeEst = s.sizeEst := rfl
@[simp] theorem markRefused_dirty (s : State) : s.markRefused.dirty = s.dirty := rfl
@[simp] theorem markRefused_eop (s : State) : s.markRefused.eop = s.eop := rfl
@[simp] theorem markRefused_phase (s : State) : s.markRefused.phase = s.phase := rfl
@[simp] theorem markRefused_fault (s : State) : s.markRefused.fault = s.fault := rfl
@[simp] theorem markRefused_refused (s : State) : s.markRefused.refused = true := rfl
@[simp] theorem markRefused_cmds (s : State) : s.markRefused.cmds = s.cmds := rfl
@[simp] theorem markRefused_pass (s : State) : s.markRefused.pass = s.pass := rfl
@[simp] theorem markRefused_freeCount (s : State) : s.markRefused.freeCount = s.freeCount := rfl

/-! ### endTraversal -/

@[simp] theorem endTraversal_cfg (s : State) : s.endTraversal.cfg = s.cfg := rfl
@[simp] theorem endTraversal_range (s : State) : s.endTraversal.range = s.range := rfl
@[simp] theorem endTraversal_value (s : State) : s.endTraversal.value = s.value := rfl
@[simp] theorem endTraversal_nbBits (s : State) : s.endTraversal.nbBits = s.nbBits := rfl
@[simp] theorem endTraversal_run (s : State) : s.endTraversal.run = s.run := rfl
@[simp] theorem endTraversal_pos (s : State) : s.endTraversal.pos = s.pos := rfl
@[simp] theorem endTraversal_held (s : State) : s.endTraversal.held = s.held := rfl
@[simp] theorem endTraversal_tok (s : State) : s.endTraversal.tok = s.tok := rfl
@[simp] theorem endTraversal_npages (s : State) : s.endTraversal.npages = s.npages := rfl
@[simp] theorem endTraversal_left (s : State) : s.endTraversal.left = s.left := rfl
@[simp] theorem endTraversal_pageSize (s : State) : s.endTraversal.pageSize = s.pageSize := rfl
@[simp] theorem endTraversal_tbError (s : State) : s.endTraversal.tbError = s.tbError := rfl
@[simp] theorem endTraversal_tally (s : State) : s.endTraversal.tally = s.tally := rfl
@[simp] theorem endTraversal_pw (s : State) : s.endTraversal.pw = s.pw := rfl
@[simp] theorem endTraversal_out (s : State) : s.endTraversal.out = s.out := rfl
@[simp] theorem endTraversal_sizeEst (s : State) : s.endTraversal.sizeEst = s.sizeEst := rfl
@[simp] theorem endTraversal_dirty (s : State) : s.endTraversal.dirty = s.dirty := rfl
@[simp] theorem endTraversal_eop (s : State) : s.endTraversal.eop = s.eop := rfl
@[simp] theorem endTraversal_phase (s : State) : s.endTraversal.phase = s.phase := rfl
@[simp] theorem endTraversal_fault (s : State) : s.endTraversal.fault = s.fault := rfl
@[simp] theorem endTraversal_refused (s : State) : s.endTraversal.refused = s.refused := rfl
@[simp] theorem endTraversal_cmds (s : State) : s.endTraversal.cmds = s.cmds := rfl
@[simp] theorem endTraversal_pass (s : State) : s.endTraversal.pass = none := rfl
@[simp] theorem endTraversal_freeCount (s : State) : s.endTraversal.freeCount = s.freeCount := rfl

/-! ### storeToken -/

@[simp] theorem storeToken_cfg (t : TokWord) (s : State) : (storeToken t s).cfg = s.cfg := rfl
@[simp] theorem storeToken_range (t : TokWord) (s : State) : (storeToken t s).range = s.range := rfl
@[simp] theorem storeToken_value (t : TokWord) (s : State) : (storeToken t s).value = s.value := rfl
@[simp] theorem storeToken_nbBits (t : TokWord) (s : State) : (storeToken t s).nbBits = s.nbBits := rfl
@[simp] theorem storeToken_run (t : TokWord) (s : State) : (storeToken t s).run = s.run := rfl
@[simp] theorem storeToken_pos (t : TokWord) (s : State) : (storeToken t s).pos = s.pos := rfl
@[simp] theorem storeToken_held (t : TokWord) (s : State) : (storeToken t s).held = s.held := rfl
@[simp] theorem storeToken_tok (t : TokWord) (s : State) : (storeToken t s).tok = Memory.write s.tok (tokAddr s.nextSlot.1 s.nextSlot.2) t := rfl
@[simp] theorem storeToken_npages (t : TokWord) (s : State) : (storeToken t s).npages = s.npages := rfl
@[simp] theorem storeToken_left (t : TokWord) (s : State) : (storeToken t s).left = s.left - 1 := rfl
@[simp] theorem storeToken_pageSize (t : TokWord) (s : State) : (storeToken t s).pageSize = s.pageSize := rfl
@[simp] theorem storeToken_tbError (t : TokWord) (s : State) : (storeToken t s).tbError = s.tbError := rfl
@[simp] theorem storeToken_tally (t : TokWord) (s : State) : (storeToken t s).tally = s.tally := rfl
@[simp] theorem storeToken_pw (t : TokWord) (s : State) : (storeToken t s).pw = s.pw := rfl
@[simp] theorem storeToken_out (t : TokWord) (s : State) : (storeToken t s).out = s.out := rfl
@[simp] theorem storeToken_sizeEst (t : TokWord) (s : State) : (storeToken t s).sizeEst = s.sizeEst := rfl
@[simp] theorem storeToken_dirty (t : TokWord) (s : State) : (storeToken t s).dirty = s.dirty := rfl
@[simp] theorem storeToken_eop (t : TokWord) (s : State) : (storeToken t s).eop = s.eop := rfl
@[simp] theorem storeToken_phase (t : TokWord) (s : State) : (storeToken t s).phase = s.phase := rfl
@[simp] theorem storeToken_fault (t : TokWord) (s : State) : (storeToken t s).fault = s.fault := rfl
@[simp] theorem storeToken_refused (t : TokWord) (s : State) : (storeToken t s).refused = s.refused := rfl
@[simp] theorem storeToken_cmds (t : TokWord) (s : State) : (storeToken t s).cmds = s.cmds := rfl
@[simp] theorem storeToken_pass (t : TokWord) (s : State) : (storeToken t s).pass = s.pass := rfl
@[simp] theorem storeToken_freeCount (t : TokWord) (s : State) : (storeToken t s).freeCount = s.freeCount := rfl

/-! ### allocPage -/

@[simp] theorem allocPage_cfg (s : State) : (allocPage s).cfg = s.cfg := rfl
@[simp] theorem allocPage_range (s : State) : (allocPage s).range = s.range := rfl
@[simp] theorem allocPage_value (s : State) : (allocPage s).value = s.value := rfl
@[simp] theorem allocPage_nbBits (s : State) : (allocPage s).nbBits = s.nbBits := rfl
@[simp] theorem allocPage_run (s : State) : (allocPage s).run = s.run := rfl
@[simp] theorem allocPage_pos (s : State) : (allocPage s).pos = s.pos := rfl
@[simp] theorem allocPage_held (s : State) : (allocPage s).held = s.held := rfl
@[simp] theorem allocPage_tok (s : State) : (allocPage s).tok = s.tok := rfl
@[simp] theorem allocPage_npages (s : State) : (allocPage s).npages = s.npages + 1 := rfl
@[simp] theorem allocPage_left (s : State) : (allocPage s).left = s.pageSize := rfl
@[simp] theorem allocPage_pageSize (s : State) : (allocPage s).pageSize = s.pageSize := rfl
@[simp] theorem allocPage_tbError (s : State) : (allocPage s).tbError = s.tbError := rfl
@[simp] theorem allocPage_tally (s : State) : (allocPage s).tally = s.tally := rfl
@[simp] theorem allocPage_pw (s : State) : (allocPage s).pw = s.pw := rfl
@[simp] theorem allocPage_out (s : State) : (allocPage s).out = s.out := rfl
@[simp] theorem allocPage_sizeEst (s : State) : (allocPage s).sizeEst = s.sizeEst := rfl
@[simp] theorem allocPage_dirty (s : State) : (allocPage s).dirty = s.dirty := rfl
@[simp] theorem allocPage_eop (s : State) : (allocPage s).eop = s.eop := rfl
@[simp] theorem allocPage_phase (s : State) : (allocPage s).phase = s.phase := rfl
@[simp] theorem allocPage_fault (s : State) : (allocPage s).fault = s.fault := rfl
@[simp] theorem allocPage_refused (s : State) : (allocPage s).refused = s.refused := rfl
@[simp] theorem allocPage_cmds (s : State) : (allocPage s).cmds = s.cmds := rfl
@[simp] theorem allocPage_pass (s : State) : (allocPage s).pass = s.pass := rfl
@[simp] theorem allocPage_freeCount (s : State) : (allocPage s).freeCount = s.freeCount := rfl

/-! ### releasePages -/

@[simp] theorem releasePages_cfg (s : State) : (releasePages s).cfg = s.cfg := rfl
@[simp] theorem releasePages_range (s : State) : (releasePages s).range = s.range := rfl
@[simp] theorem releasePages_value (s : State) : (releasePages s).value = s.value := rfl
@[simp] theorem releasePages_nbBits (s : State) : (releasePages s).nbBits = s.nbBits := rfl
@[simp] theorem releasePages_run (s : State) : (releasePages s).run = s.run := rfl
@[simp] theorem releasePages_pos (s : State) : (releasePages s).pos = s.pos := rfl
@[simp] theorem releasePages_held (s : State) : (releasePages s).held = s.held := rfl
@[simp] theorem releasePages_tok (s : State) : (releasePages s).tok = [] := rfl
@[simp] theorem releasePages_npages (s : State) : (releasePages s).npages = 0 := rfl
@[simp] theorem releasePages_left (s : State) : (releasePages s).left = 0 := rfl
@[simp] theorem releasePages_pageSize (s : State) : (releasePages s).pageSize = s.pageSize := rfl
@[simp] theorem releasePages_tbError (s : State) : (releasePages s).tbError = s.tbError := rfl
@[simp] theorem releasePages_tally (s : State) : (releasePages s).tally = s.tally := rfl
@[simp] theorem releasePages_pw (s : State) : (releasePages s).pw = s.pw := rfl
@[simp] theorem releasePages_out (s : State) : (releasePages s).out = s.out := rfl
@[simp] theorem releasePages_sizeEst (s : State) : (releasePages s).sizeEst = s.sizeEst := rfl
@[simp] theorem releasePages_dirty (s : State) : (releasePages s).dirty = s.dirty := rfl
@[simp] theorem releasePages_eop (s : State) : (releasePages s).eop = s.eop := rfl
@[simp] theorem releasePages_phase (s : State) : (releasePages s).phase = s.phase := rfl
@[simp] theorem releasePages_fault (s : State) : (releasePages s).fault = s.fault := rfl
@[simp] theorem releasePages_refused (s : State) : (releasePages s).refused = s.refused := rfl
@[simp] theorem releasePages_cmds (s : State) : (releasePages s).cmds = s.cmds := rfl
@[simp] theorem releasePages_pass (s : State) : (releasePages s).pass = s.pass := rfl
@[simp] theorem releasePages_freeCount (s : State) : (releasePages s).freeCount = s.freeCount := rfl

/-! ### codeBit -/

@[simp] theorem codeBit_cfg (b : Bool) (p : Prob) (s : State) : (codeBit b p s).cfg = s.cfg := rfl
@[simp] theorem codeBit_run (b : Bool) (p : Prob) (s : State) : (codeBit b p s).run = s.run := rfl
@[simp] theorem codeBit_pos (b : Bool) (p : Prob) (s : State) : (codeBit b p s).pos = s.pos := rfl
@[simp] theorem codeBit_held (b : Bool) (p : Prob) (s : State) : (codeBit b p s).held = s.held := rfl
@[simp] theorem codeBit_tok (b : Bool) (p : Prob) (s : State) : (codeBit b p s).tok = s.tok := rfl
@[simp] theorem codeBit_npages (b : Bool) (p : Prob) (s : State) : (codeBit b p s).npages = s.npages := rfl
@[simp] theorem codeBit_left (b : Bool) (p : Prob) (s : State) : (codeBit b p s).left = s.left := rfl
@[simp] theorem codeBit_pageSize (b : Bool) (p : Prob) (s : State) : (codeBit b p s).pageSize = s.pageSize := rfl
@[simp] theorem codeBit_tbError (b : Bool) (p : Prob) (s : State) : (codeBit b p s).tbError = s.tbError := rfl
@[simp] theorem codeBit_tally (b : Bool) (p : Prob) (s : State) : (codeBit b p s).tally = s.tally := rfl
@[simp] theorem codeBit_pw (b : Bool) (p : Prob) (s : State) : (codeBit b p s).pw = s.pw := rfl
@[simp] theorem codeBit_out (b : Bool) (p : Prob) (s : State) : (codeBit b p s).out = s.out := rfl
@[simp] theorem codeBit_sizeEst (b : Bool) (p : Prob) (s : State) : (codeBit b p s).sizeEst = s.sizeEst := rfl
@[simp] theorem codeBit_dirty (b : Bool) (p : Prob) (s : State) : (codeBit b p s).dirty = s.dirty := rfl
@[simp] theorem codeBit_eop (b : Bool) (p : Prob) (s : State) : (codeBit b p s).eop = s.eop := rfl
@[simp] theorem codeBit_phase (b : Bool) (p : Prob) (s : State) : (codeBit b p s).phase = s.phase := rfl
@[simp] theorem codeBit_fault (b : Bool) (p : Prob) (s : State) : (codeBit b p s).fault = s.fault := rfl
@[simp] theorem codeBit_refused (b : Bool) (p : Prob) (s : State) : (codeBit b p s).refused = s.refused := rfl
@[simp] theorem codeBit_cmds (b : Bool) (p : Prob) (s : State) : (codeBit b p s).cmds = s.cmds := rfl
@[simp] theorem codeBit_pass (b : Bool) (p : Prob) (s : State) : (codeBit b p s).pass = s.pass := rfl
@[simp] theorem codeBit_freeCount (b : Bool) (p : Prob) (s : State) : (codeBit b p s).freeCount = s.freeCount := rfl

/-! ### closeEmit -/

@[simp] theorem closeEmit_cfg (s : State) : (closeEmit s).cfg = s.cfg := rfl
@[simp] theorem closeEmit_range (s : State) : (closeEmit s).range = s.range := rfl
@[simp] theorem closeEmit_value (s : State) : (closeEmit s).value = s.value := rfl
@[simp] theorem closeEmit_nbBits (s : State) : (closeEmit s).nbBits = s.nbBits := rfl
@[simp] theorem closeEmit_run (s : State) : (closeEmit s).run = s.run := rfl
@[simp] theorem closeEmit_pos (s : State) : (closeEmit s).pos = s.pos := rfl
@[simp] theorem closeEmit_held (s : State) : (closeEmit s).held = s.held := rfl
@[simp] theorem closeEmit_tok (s : State) : (closeEmit s).tok = [] := rfl
@[simp] theorem closeEmit_npages (s : State) : (closeEmit s).npages = 0 := rfl
@[simp] theorem closeEmit_left (s : State) : (closeEmit s).left = 0 := rfl
@[simp] theorem closeEmit_pageSize (s : State) : (closeEmit s).pageSize = s.pageSize := rfl
@[simp] theorem closeEmit_tbError (s : State) : (closeEmit s).tbError = s.tbError := rfl
@[simp] theorem closeEmit_tally (s : State) : (closeEmit s).tally = s.tally := rfl
@[simp] theorem closeEmit_pw (s : State) : (closeEmit s).pw = s.pw := rfl
@[simp] theorem closeEmit_out (s : State) : (closeEmit s).out = s.out := rfl
@[simp] theorem closeEmit_sizeEst (s : State) : (closeEmit s).sizeEst = s.sizeEst := rfl
@[simp] theorem closeEmit_dirty (s : State) : (closeEmit s).dirty = s.dirty := rfl
@[simp] theorem closeEmit_eop (s : State) : (closeEmit s).eop = eopOf s := rfl
@[simp] theorem closeEmit_phase (s : State) : (closeEmit s).phase = .emitted := rfl
@[simp] theorem closeEmit_fault (s : State) : (closeEmit s).fault = s.fault := rfl
@[simp] theorem closeEmit_refused (s : State) : (closeEmit s).refused = s.refused := rfl
@[simp] theorem closeEmit_cmds (s : State) : (closeEmit s).cmds = s.cmds := rfl
@[simp] theorem closeEmit_pass (s : State) : (closeEmit s).pass = none := rfl
@[simp] theorem closeEmit_freeCount (s : State) : (closeEmit s).freeCount = s.freeCount + 1 := rfl

/-! ### closeEstimate -/

@[simp] theorem closeEstimate_cfg (a : Nat) (s : State) : (closeEstimate a s).cfg = s.cfg := rfl
@[simp] theorem closeEstimate_range (a : Nat) (s : State) : (closeEstimate a s).range = s.range := rfl
@[simp] theorem closeEstimate_value (a : Nat) (s : State) : (closeEstimate a s).value = s.value := rfl
@[simp] theorem closeEstimate_nbBits (a : Nat) (s : State) : (closeEstimate a s).nbBits = s.nbBits := rfl
@[simp] theorem closeEstimate_run (a : Nat) (s : State) : (closeEstimate a s).run = s.run := rfl
@[simp] theorem closeEstimate_pos (a : Nat) (s : State) : (closeEstimate a s).pos = s.pos := rfl
@[simp] theorem closeEstimate_held (a : Nat) (s : State) : (closeEstimate a s).held = s.held := rfl
@[simp] theorem closeEstimate_tok (a : Nat) (s : State) : (closeEstimate a s).tok = s.tok := rfl
@[simp] theorem closeEstimate_npages (a : Nat) (s : State) : (closeEstimate a s).npages = s.npages := rfl
@[simp] theorem closeEstimate_left (a : Nat) (s : State) : (closeEstimate a s).left = s.left := rfl
@[simp] theorem closeEstimate_pageSize (a : Nat) (s : State) : (closeEstimate a s).pageSize = s.pageSize := rfl
@[simp] theorem closeEstimate_tbError (a : Nat) (s : State) : (closeEstimate a s).tbError = s.tbError := rfl
@[simp] theorem closeEstimate_tally (a : Nat) (s : State) : (closeEstimate a s).tally = s.tally := rfl
@[simp] theorem closeEstimate_pw (a : Nat) (s : State) : (closeEstimate a s).pw = s.pw := rfl
@[simp] theorem closeEstimate_out (a : Nat) (s : State) : (closeEstimate a s).out = s.out := rfl
@[simp] theorem closeEstimate_sizeEst (a : Nat) (s : State) : (closeEstimate a s).sizeEst = a := rfl
@[simp] theorem closeEstimate_dirty (a : Nat) (s : State) : (closeEstimate a s).dirty = s.dirty := rfl
@[simp] theorem closeEstimate_eop (a : Nat) (s : State) : (closeEstimate a s).eop = s.eop := rfl
@[simp] theorem closeEstimate_phase (a : Nat) (s : State) : (closeEstimate a s).phase = s.phase := rfl
@[simp] theorem closeEstimate_fault (a : Nat) (s : State) : (closeEstimate a s).fault = s.fault := rfl
@[simp] theorem closeEstimate_refused (a : Nat) (s : State) : (closeEstimate a s).refused = s.refused := rfl
@[simp] theorem closeEstimate_cmds (a : Nat) (s : State) : (closeEstimate a s).cmds = s.cmds := rfl
@[simp] theorem closeEstimate_pass (a : Nat) (s : State) : (closeEstimate a s).pass = none := rfl
@[simp] theorem closeEstimate_freeCount (a : Nat) (s : State) : (closeEstimate a s).freeCount = s.freeCount := rfl

/-! ### closeStream -/

@[simp] theorem closeStream_cfg (s : State) : (closeStream s).cfg = s.cfg := rfl
@[simp] theorem closeStream_range (s : State) : (closeStream s).range = s.range := rfl
@[simp] theorem closeStream_value (s : State) : (closeStream s).value = s.value := rfl
@[simp] theorem closeStream_nbBits (s : State) : (closeStream s).nbBits = s.nbBits := rfl
@[simp] theorem closeStream_run (s : State) : (closeStream s).run = 0 := rfl
@[simp] theorem closeStream_pos (s : State) : (closeStream s).pos = s.pos := rfl
@[simp] theorem closeStream_held (s : State) : (closeStream s).held = 0xFF := rfl
@[simp] theorem closeStream_tok (s : State) : (closeStream s).tok = s.tok := rfl
@[simp] theorem closeStream_npages (s : State) : (closeStream s).npages = s.npages := rfl
@[simp] theorem closeStream_left (s : State) : (closeStream s).left = s.left := rfl
@[simp] theorem closeStream_pageSize (s : State) : (closeStream s).pageSize = s.pageSize := rfl
@[simp] theorem closeStream_tbError (s : State) : (closeStream s).tbError = s.tbError := rfl
@[simp] theorem closeStream_tally (s : State) : (closeStream s).tally = s.tally := rfl
@[simp] theorem closeStream_pw (s : State) : (closeStream s).pw = s.pw := rfl
@[simp] theorem closeStream_out (s : State) : (closeStream s).out = s.out := rfl
@[simp] theorem closeStream_sizeEst (s : State) : (closeStream s).sizeEst = s.sizeEst := rfl
@[simp] theorem closeStream_dirty (s : State) : (closeStream s).dirty = s.dirty := rfl
@[simp] theorem closeStream_eop (s : State) : (closeStream s).eop = s.eop := rfl
@[simp] theorem closeStream_phase (s : State) : (closeStream s).phase = .done := rfl
@[simp] theorem closeStream_fault (s : State) : (closeStream s).fault = s.fault := rfl
@[simp] theorem closeStream_refused (s : State) : (closeStream s).refused = s.refused := rfl
@[simp] theorem closeStream_cmds (s : State) : (closeStream s).cmds = s.cmds := rfl
@[simp] theorem closeStream_pass (s : State) : (closeStream s).pass = s.pass := rfl
@[simp] theorem closeStream_freeCount (s : State) : (closeStream s).freeCount = s.freeCount := rfl

/-! ### advance -/

@[simp] theorem advance_cfg (ts : List TokWord) (s : State) : (s.advance ts).cfg = s.cfg := rfl
@[simp] theorem advance_range (ts : List TokWord) (s : State) : (s.advance ts).range = s.range := rfl
@[simp] theorem advance_value (ts : List TokWord) (s : State) : (s.advance ts).value = s.value := rfl
@[simp] theorem advance_nbBits (ts : List TokWord) (s : State) : (s.advance ts).nbBits = s.nbBits := rfl
@[simp] theorem advance_run (ts : List TokWord) (s : State) : (s.advance ts).run = s.run := rfl
@[simp] theorem advance_pos (ts : List TokWord) (s : State) : (s.advance ts).pos = s.pos := rfl
@[simp] theorem advance_held (ts : List TokWord) (s : State) : (s.advance ts).held = s.held := rfl
@[simp] theorem advance_tok (ts : List TokWord) (s : State) : (s.advance ts).tok = s.tok := rfl
@[simp] theorem advance_npages (ts : List TokWord) (s : State) : (s.advance ts).npages = s.npages := rfl
@[simp] theorem advance_left (ts : List TokWord) (s : State) : (s.advance ts).left = s.left := rfl
@[simp] theorem advance_pageSize (ts : List TokWord) (s : State) : (s.advance ts).pageSize = s.pageSize := rfl
@[simp] theorem advance_tbError (ts : List TokWord) (s : State) : (s.advance ts).tbError = s.tbError := rfl
@[simp] theorem advance_tally (ts : List TokWord) (s : State) : (s.advance ts).tally = s.tally := rfl
@[simp] theorem advance_pw (ts : List TokWord) (s : State) : (s.advance ts).pw = s.pw := rfl
@[simp] theorem advance_out (ts : List TokWord) (s : State) : (s.advance ts).out = s.out := rfl
@[simp] theorem advance_sizeEst (ts : List TokWord) (s : State) : (s.advance ts).sizeEst = s.sizeEst := rfl
@[simp] theorem advance_dirty (ts : List TokWord) (s : State) : (s.advance ts).dirty = s.dirty := rfl
@[simp] theorem advance_eop (ts : List TokWord) (s : State) : (s.advance ts).eop = s.eop := rfl
@[simp] theorem advance_phase (ts : List TokWord) (s : State) : (s.advance ts).phase = s.phase := rfl
@[simp] theorem advance_fault (ts : List TokWord) (s : State) : (s.advance ts).fault = s.fault := rfl
@[simp] theorem advance_refused (ts : List TokWord) (s : State) : (s.advance ts).refused = s.refused := rfl
@[simp] theorem advance_cmds (ts : List TokWord) (s : State) : (s.advance ts).cmds = s.cmds := rfl
@[simp] theorem advance_pass (ts : List TokWord) (s : State) : (s.advance ts).pass = s.pass.map (Pass.withTodo ts) := rfl
@[simp] theorem advance_freeCount (ts : List TokWord) (s : State) : (s.advance ts).freeCount = s.freeCount := rfl

end Sys2Proof.Machine
end

