-- ==== Sys2Proof/Laws/Memory.lean ====
section
/-! SUPPORT. The laws of the sparse memories: a read after a write, and that a write keeps the canonical form. -/

namespace Sys2Proof.Machine

theorem Memory.read_write {w : Nat} (m : Memory w) (a b : Nat) (v : BitVec w) :
    Memory.read (Memory.write m a v) b = if b = a then some v else Memory.read m b := by
  induction m with
  | nil => simp only [Memory.write, Memory.read]
  | cons q m ih =>
    obtain ⟨c, x⟩ := q
    simp only [Memory.write]
    split
    · simp only [Memory.read]
    · split
      · subst_vars
        simp only [Memory.read]
        split <;> rfl
      · simp only [Memory.read, ih]
        split
        · split
          · omega
          · rfl
        · rfl

@[simp] theorem Memory.read_write_same {w : Nat} (m : Memory w) (a : Nat) (v : BitVec w) :
    Memory.read (Memory.write m a v) a = some v := by
  simp [Memory.read_write]

theorem Memory.read_write_other {w : Nat} (m : Memory w) {a b : Nat} (v : BitVec w) (h : b ≠ a) :
    Memory.read (Memory.write m a v) b = Memory.read m b := by
  simp [Memory.read_write, h]

/-- The element numbers of a written memory: those it had, and the written one. -/
theorem Memory.mem_write {w : Nat} (m : Memory w) (a : Nat) (v : BitVec w) (q : Nat × BitVec w)
    (h : q ∈ Memory.write m a v) : q = (a, v) ∨ q ∈ m := by
  induction m with
  | nil => simpa [Memory.write] using h
  | cons p m ih =>
    obtain ⟨c, x⟩ := p
    simp only [Memory.write] at h
    split at h
    · simpa using h
    · split at h
      · simp only [List.mem_cons] at h ⊢
        rcases h with h | h
        · exact .inl h
        · exact .inr (.inr h)
      · simp only [List.mem_cons] at h ⊢
        rcases h with h | h
        · exact .inr (.inl h)
        · rcases ih h with h | h
          · exact .inl h
          · exact .inr (.inr h)

/-- A write keeps the canonical form. -/
theorem Memory.wf_write {w : Nat} (m : Memory w) (a : Nat) (v : BitVec w) (h : Memory.wf m) :
    Memory.wf (Memory.write m a v) := by
  induction m with
  | nil => simp [Memory.write, Memory.wf]
  | cons p m ih =>
    obtain ⟨c, x⟩ := p
    have hc := List.pairwise_cons.mp h
    simp only [Memory.write]
    split
    · refine List.pairwise_cons.mpr ⟨?_, h⟩
      intro q hq
      rcases List.mem_cons.mp hq with rfl | hq
      · assumption
      · have := hc.1 q hq
        simp only at this ⊢
        omega
    · split
      · subst_vars
        exact List.pairwise_cons.mpr ⟨hc.1, hc.2⟩
      · refine List.pairwise_cons.mpr ⟨?_, ih hc.2⟩
        intro q hq
        rcases Memory.mem_write m a v q hq with rfl | hq
        · simp only; omega
        · exact hc.1 q hq

theorem Memory.wf_nil {w : Nat} : Memory.wf ([] : Memory w) := List.Pairwise.nil

/-- The memories of the reset state are canonical. -/
theorem reset_memoryWf : State.reset.MemoryWf := ⟨Memory.wf_nil, Memory.wf_nil⟩

/-- Two slots of pages share an element number only if they are the same slot. -/
theorem tokAddr_inj {p q p' q' : Nat} : tokAddr p q = tokAddr p' q' ↔ p = p' ∧ q = q' := Nat.pair_eq_pair

/-! ### The spaces `OUT` and `TOK` after a write -/

/-- `OUT` after one byte is written: that byte there, every other as before. -/
theorem outByte_write (s : State) (a k : Nat) (b : Byte) :
    ({ s with out := Memory.write s.out a b } : State).outByte k = if k = a then b else s.outByte k := by
  simp only [State.outByte, Memory.read_write]
  split <;> rfl

theorem outWritten_write (s : State) (a k : Nat) (b : Byte) :
    ({ s with out := Memory.write s.out a b } : State).outWritten k = (decide (k = a) || s.outWritten k) := by
  simp only [State.outWritten, Memory.read_write]
  split <;> simp [*]

/-- `TOK` after one token word is stored: that word there, every other slot as before. -/
theorem tokWord_write (s : State) (p q page slot : Nat) (t : TokWord) :
    ({ s with tok := Memory.write s.tok (tokAddr p q) t } : State).tokWord page slot
      = if page = p ∧ slot = q then t else s.tokWord page slot := by
  simp only [State.tokWord, Memory.read_write, tokAddr_inj]
  split <;> rfl

theorem tokWritten_write (s : State) (p q page slot : Nat) (t : TokWord) :
    ({ s with tok := Memory.write s.tok (tokAddr p q) t } : State).tokWritten page slot
      = (decide (page = p ∧ slot = q) || s.tokWritten page slot) := by
  simp only [State.tokWritten, Memory.read_write, tokAddr_inj]
  split <;> simp [*]

/-- A place that nothing has written reads as its free value. -/
theorem outByte_of_not_written {s : State} {k : Nat} (h : s.outWritten k = false) : s.outByte k = Config.freeOut k := by
  simp only [State.outWritten, Option.isSome_eq_false_iff, Option.isNone_iff_eq_none] at h
  simp only [State.outByte, h, Option.getD_none]

theorem tokWord_of_not_written {s : State} {page slot : Nat} (h : s.tokWritten page slot = false) :
    s.tokWord page slot = Config.freeTok page slot := by
  simp only [State.tokWritten, Option.isSome_eq_false_iff, Option.isNone_iff_eq_none] at h
  simp only [State.tokWord, h, Option.getD_none]

end Sys2Proof.Machine
end

