-- ==== Sys2Proof/Laws/Ops.lean ====
section
/-! SUPPORT. For each shared operation, what it can do, said once: the provers cite these instead of unfolding. -/

namespace Sys2Proof.Machine

/-! ### Outcomes -/

@[simp] theorem andThen_of_next (s : State) (f : State → Result) : andThen (.next s) f = f s := rfl
@[simp] theorem andThen_of_fault (x : Fault) (f : State → Result) : andThen (.fault x) f = .fault x := rfl
@[simp] theorem andThen_of_refused (x : Refusal) (f : State → Result) : andThen (.refused x) f = .refused x := rfl

/-- Two effects in order answer a next state exactly when both do. -/
theorem andThen_eq_next {r : Result} {f : State → Result} {t : State} :
    andThen r f = .next t ↔ ∃ s, r = .next s ∧ f s = .next t := by
  cases r <;> simp [andThen]

/-- Sequencing is associative. -/
theorem andThen_assoc (r : Result) (f g : State → Result) :
    andThen (andThen r f) g = andThen r fun s => andThen (f s) g := by
  cases r <;> rfl

@[simp] theorem endOnFault_of_next (s : State) : endOnFault (.next s) = .next s := rfl
@[simp] theorem endOnFault_of_refused (x : Refusal) : endOnFault (.refused x) = .refused x := rfl
@[simp] theorem endOnFault_of_fault (x : Fault) : endOnFault (.fault x) = .fault (x.mapLeft State.endTraversal) := rfl

/-- Ending the traversal on a fault does not touch a completed effect. -/
@[simp] theorem endOnFault_eq_next {r : Result} {t : State} : endOnFault r = .next t ↔ r = .next t := by
  cases r <;> simp [endOnFault]

/-- A fault that ends the traversal is the fault inside it, and its state has no traversal open. -/
theorem endOnFault_eq_fault {r : Result} {x : Fault} :
    endOnFault r = .fault x ↔ ∃ y, r = .fault y ∧ x = y.mapLeft State.endTraversal := by
  cases r <;> simp [endOnFault, eq_comm]

@[simp] theorem raiseFault_ne_next (n : FaultName) (s t : State) : raiseFault n s ≠ .next t := by
  cases n <;> simp [raiseFault]

@[simp] theorem refusePhase_ne_next (s t : State) : refusePhase s ≠ .next t := by simp [refusePhase]
@[simp] theorem refuseBlock_ne_next (s t : State) : refuseBlock s ≠ .next t := by simp [refuseBlock]
@[simp] theorem refuseIllegal_ne_next (s t : State) : refuseIllegal s ≠ .next t := by simp [refuseIllegal]

/-! ### Tables, slots and fields -/

@[simp] theorem tableOf_get {α : Type} {n : Nat} (f : Fin n → α) (i : Fin n) : (tableOf f)[i] = f i := by
  simp [tableOf]

theorem anyIndex_iff {n : Nat} (p : Fin n → Bool) : anyIndex p = true ↔ ∃ i, p i = true := by
  simp [anyIndex]

theorem slotOfField_eq_some {f : BitVec 14} {i : Slot} : slotOfField f = some i ↔ f.toNat = i.val := by
  unfold slotOfField
  split
  · constructor
    · intro h; injection h with h; rw [← h]
    · intro h; exact congrArg some (Fin.ext h)
  · constructor
    · intro h; cases h
    · intro h; have := i.isLt; omega

theorem slotOfField_eq_none {f : BitVec 14} : slotOfField f = none ↔ 1056 ≤ f.toNat := by
  unfold slotOfField
  split <;> simp <;> omega

@[simp] theorem slotOfField_fieldOfSlot (i : Slot) : slotOfField (fieldOfSlot i) = some i := by
  rw [slotOfField_eq_some]
  have := i.isLt
  simp only [fieldOfSlot, BitVec.toNat_ofNat]
  omega

@[simp] theorem slotOf_baseOfSlot (i : Slot) : slotOf (baseOfSlot i) (nodeOfSlot i) = i := by
  apply Fin.ext
  simp only [slotOf, baseOfSlot, nodeOfSlot]
  omega

theorem nodeOfSlot_slotOf (b : SlotBase) (n : Fin 11) : nodeOfSlot (slotOf b n) = n := by
  apply Fin.ext
  simp only [slotOf, nodeOfSlot]
  omega

theorem baseOfSlot_slotOf (b : SlotBase) (n : Fin 11) : baseOfSlot (slotOf b n) = b := by
  obtain ⟨ty, bd, cx⟩ := b
  have := ty.isLt; have := bd.isLt; have := cx.isLt; have := n.isLt
  simp only [baseOfSlot, slotOf, SlotBase.mk.injEq]
  refine ⟨Fin.ext ?_, Fin.ext ?_, Fin.ext ?_⟩ <;> simp only <;> omega

theorem toNat_append_add {n m : Nat} (x : BitVec n) (y : BitVec m) :
    (x ++ y).toNat = x.toNat * 2 ^ m + y.toNat := by
  rw [BitVec.toNat_append, Nat.mul_comm, Nat.two_pow_add_eq_or_of_lt y.isLt, Nat.shiftLeft_eq, Nat.mul_comm]

/-- The word of a dynamic token as a number (30_encoding.md R61). -/
theorem toNat_dynWord (bit : Bool) (slot : BitVec 14) :
    (dynWord bit slot).toNat = bit.toNat * 32768 + slot.toNat := by
  unfold dynWord
  rw [toNat_append_add, toNat_append_add]
  cases bit <;> simp

/-- The word of a constant token as a number (30_encoding.md R61). -/
theorem toNat_constWord (bit : Bool) (prob : Prob) :
    (constWord bit prob).toNat = bit.toNat * 32768 + 16384 + prob.toNat := by
  unfold constWord
  rw [toNat_append_add, toNat_append_add, toNat_append_add]
  cases bit <;> simp

@[simp] theorem tallyCount_tallyWord (t n : Nat) : tallyCount (tallyWord t n) = n % 65536 := by
  rw [tallyCount, tallyWord, BitVec.extractLsb'_append_eq_of_add_le (by omega)]
  simp

@[simp] theorem tallyTotal_tallyWord (t n : Nat) : tallyTotal (tallyWord t n) = t % 65536 := by
  simp only [tallyTotal, tallyWord]
  rw [BitVec.extractLsb'_append_eq_of_le (by omega)]
  simp

theorem tallyCount_lt (w : TallyWord) : tallyCount w < 65536 := (w.extractLsb' 0 16).isLt
theorem tallyTotal_lt (w : TallyWord) : tallyTotal w < 65536 := (w.extractLsb' 16 16).isLt

/-! ### RECORD -/

/-- `record` answers a next state exactly when `count1` fits, and then writes the one tally word. -/
theorem record_eq_next {i : Slot} {b : Bool} {s t : State} :
    record i b s = .next t ↔
      (recordStep (tallyCount (s.tallyAt i)) (tallyTotal (s.tallyAt i)) b).1 ≤ 65535 ∧
        t = { s with
                tally := s.tally.set i
                  (tallyWord (recordStep (tallyCount (s.tallyAt i)) (tallyTotal (s.tallyAt i)) b).2
                    (recordStep (tallyCount (s.tallyAt i)) (tallyTotal (s.tallyAt i)) b).1) } := by
  simp only [record]
  split
  · simp; omega
  · constructor
    · intro h; injection h with h; exact ⟨by omega, h.symm⟩
    · rintro ⟨-, rfl⟩; rfl

/-- The tally words after one is written. -/
theorem tallyAt_set (s : State) (i j : Slot) (w : TallyWord) :
    ({ s with tally := s.tally.set i w } : State).tallyAt j = if j = i then w else s.tallyAt j := by
  simp only [State.tallyAt, Fin.getElem_fin, Vector.getElem_set, Fin.ext_iff]
  split <;> split <;> first | rfl | omega

/-! ### TBAPPEND -/

/-- What an append can do: nothing after an error; set the error; open a page and store; store. -/
theorem tbAppend_cases (t : TokWord) (s : State) :
    (s.tbError = true ∧ tbAppend t s = s) ∨
    (s.tbError = false ∧ s.noRoom = true ∧ s.npages = s.cfg.maxPages ∧ tbAppend t s = s.setTbError) ∨
    (s.tbError = false ∧ s.noRoom = true ∧ s.npages ≠ s.cfg.maxPages ∧
      tbAppend t s = storeToken t (allocPage s)) ∨
    (s.tbError = false ∧ s.noRoom = false ∧ tbAppend t s = storeToken t s) := by
  unfold tbAppend
  by_cases h1 : s.tbError = true
  · simp [h1]
  · by_cases h2 : s.noRoom = true
    · by_cases h3 : s.npages = s.cfg.maxPages <;> simp [h1, h2, h3]
    · simp [h1, h2]

/-- An append changes the token buffer and nothing else. -/
theorem tbAppend_frame (t : TokWord) (s : State) :
    tbAppend t s = { s with
      tok := (tbAppend t s).tok
      npages := (tbAppend t s).npages
      left := (tbAppend t s).left
      tbError := (tbAppend t s).tbError } := by
  rcases tbAppend_cases t s with ⟨-, h⟩ | ⟨-, -, -, h⟩ | ⟨-, -, -, h⟩ | ⟨-, -, h⟩ <;> rw [h] <;> rfl

/-! ### WRITEBYTE -/

/-- `n` copies of a byte written from an element number upward. -/
def writeRun : Nat → Nat → Byte → List Host.Cell → List Host.Cell
  | 0, _, _, m => m
  | n + 1, a, b, m => writeRun n (a + 1) b (Memory.write m a b)

theorem read_writeRun (n a : Nat) (b : Byte) (m : List Host.Cell) (k : Nat) :
    Memory.read (writeRun n a b m) k = if a ≤ k ∧ k < a + n then some b else Memory.read m k := by
  induction n generalizing a m with
  | zero => simp only [writeRun]; rw [if_neg (by omega)]
  | succ n ih =>
    simp only [writeRun, ih, Memory.read_write]
    split
    · rw [if_pos (by omega)]
    · split
      · rw [if_pos (by omega)]
      · rw [if_neg (by omega)]

theorem wf_writeRun (n a : Nat) (b : Byte) (m : List Host.Cell) (h : Memory.wf m) :
    Memory.wf (writeRun n a b m) := by
  induction n generalizing a m with
  | zero => exact h
  | succ n ih => exact ih _ _ (Memory.wf_write m a b h)

/-- `writeByte` answers a next state exactly when there is room, and then writes the one byte at `pos`. -/
theorem writeByte_eq_next {b : Byte} {s t : State} :
    writeByte b s = .next t ↔
      s.pos < s.cfg.outCapacity ∧ t = { s with out := Memory.write s.out s.pos b, pos := s.pos + 1 } := by
  unfold writeByte
  split
  · simp; omega
  · constructor
    · intro h; injection h with h; exact ⟨by omega, h.symm⟩
    · rintro ⟨-, rfl⟩; rfl

/-- `writeBytes` answers a next state exactly when all its bytes have room. -/
theorem writeBytes_eq_next {n : Nat} {b : Byte} {s t : State} :
    writeBytes n b s = .next t ↔
      (n = 0 ∨ s.pos + n ≤ s.cfg.outCapacity) ∧
        t = { s with out := writeRun n s.pos b s.out, pos := s.pos + n } := by
  induction n generalizing s with
  | zero => simp [writeBytes, writeRun, eq_comm]
  | succ n ih =>
    simp only [writeBytes, andThen_eq_next, writeByte_eq_next]
    constructor
    · rintro ⟨_, ⟨hp, rfl⟩, h⟩
      obtain ⟨hc, rfl⟩ := ih.mp h
      refine ⟨.inr (by simp only at hc; omega), ?_⟩
      simp only [writeRun, Nat.add_assoc, Nat.add_comm 1 n]
    · rintro ⟨hc, rfl⟩
      refine ⟨_, ⟨by omega, rfl⟩, ih.mpr ⟨by simp only; omega, ?_⟩⟩
      simp only [writeRun, Nat.add_assoc, Nat.add_comm 1 n]

/-! ### PACK -/

/-- What `PACK` does when the group does not carry: the held byte, if any, then the run as 0xFF. -/
theorem flushPending_eq_next {s t : State} :
    flushPending s = .next t ↔
      (s.held = 0xFF ∧ (s.run = 0 ∨ s.pos + s.run ≤ s.cfg.outCapacity) ∧
        t = { s with out := writeRun s.run s.pos 0xFF s.out, pos := s.pos + s.run }) ∨
      (s.held ≠ 0xFF ∧ s.pos + s.run + 1 ≤ s.cfg.outCapacity ∧
        t = { s with out := writeRun s.run (s.pos + 1) 0xFF (Memory.write s.out s.pos s.held),
                     pos := s.pos + s.run + 1 }) := by
  unfold flushPending flushHeld
  by_cases h : s.held = 0xFF
  · rw [if_pos h, andThen_of_next, writeBytes_eq_next]
    constructor
    · rintro ⟨hc, ht⟩; exact .inl ⟨h, hc, ht⟩
    · rintro (⟨-, hc, ht⟩ | ⟨hh, -⟩)
      · exact ⟨hc, ht⟩
      · exact absurd h hh
  · rw [if_neg h]
    simp only [andThen_eq_next, writeByte_eq_next, writeBytes_eq_next]
    constructor
    · rintro ⟨_, ⟨hp, rfl⟩, hc, rfl⟩
      exact .inr ⟨h, by simp only at hc; omega, by simp only [Nat.add_right_comm]⟩
    · rintro (⟨hh, -⟩ | ⟨-, hc, rfl⟩)
      · exact absurd hh h
      · exact ⟨_, ⟨by omega, rfl⟩, by simp only; omega, by simp only [Nat.add_right_comm]⟩

/-- What `PACK` does when the group carries: the held byte plus one, then the run as 0x00. -/
theorem resolveCarry_eq_next {s t : State} :
    resolveCarry s = .next t ↔
      s.held ≠ 0xFF ∧ s.pos + s.run + 1 ≤ s.cfg.outCapacity ∧
        t = { s with out := writeRun s.run (s.pos + 1) 0x00 (Memory.write s.out s.pos (s.held + 1)),
                     pos := s.pos + s.run + 1 } := by
  unfold resolveCarry
  by_cases h : s.held = 0xFF
  · rw [if_pos h]
    exact ⟨fun e => absurd e (raiseFault_ne_next _ _ _), fun e => absurd h e.1⟩
  · rw [if_neg h]
    simp only [andThen_eq_next, writeByte_eq_next, writeBytes_eq_next]
    constructor
    · rintro ⟨_, ⟨hp, rfl⟩, hc, rfl⟩
      exact ⟨h, by simp only at hc; omega, by simp only [Nat.add_right_comm]⟩
    · rintro ⟨-, hc, rfl⟩
      exact ⟨_, ⟨by omega, rfl⟩, by simp only; omega, by simp only [Nat.add_right_comm]⟩

/-- Everything `PACK` can do when it answers a next state, and when it does. -/
theorem pack_eq_next {bits : BitVec 24} {s t : State} :
    pack bits s = .next t ↔
      (groupByte bits = 0xFF ∧ t = { s with run := s.run + 1 }) ∨
      (groupByte bits ≠ 0xFF ∧ ∃ u, (if carryBit bits then resolveCarry s else flushPending s) = .next u ∧
        t = { u with run := 0, held := groupByte bits }) := by
  unfold pack
  by_cases h : groupByte bits = 0xFF
  · rw [if_pos h]
    constructor
    · intro e; injection e with e; exact .inl ⟨h, e.symm⟩
    · rintro (⟨-, rfl⟩ | ⟨hh, -⟩)
      · rfl
      · exact absurd h hh
  · rw [if_neg h, andThen_eq_next]
    constructor
    · rintro ⟨u, hu, ht⟩
      injection ht with ht
      exact .inr ⟨h, u, hu, ht.symm⟩
    · rintro (⟨hh, -⟩ | ⟨-, u, hu, rfl⟩)
      · exact absurd hh h
      · exact ⟨u, hu, rfl⟩

/-- The state `EXTRACT` hands to `PACK`. -/
def afterExtract (s : State) : State :=
  { s with value := s.value - ((s.value >>> (8 + s.nbBits.toInt).toNat) <<< (8 + s.nbBits.toInt).toNat),
           nbBits := BitVec.ofInt 5 (s.nbBits.toInt - 8) }

theorem extract_eq_pack (s : State) :
    extract s = pack (s.value >>> (8 + s.nbBits.toInt).toNat) (afterExtract s) := rfl

/-! ### The coder's frame -/

/-- `t` differs from `s` in the coder registers and the output at most, and keeps every byte of the output outside
the places written, `s.pos` to `t.pos - 1`. -/
def CoderFrame (s t : State) : Prop :=
  t = { s with range := t.range, value := t.value, nbBits := t.nbBits, run := t.run, pos := t.pos,
               held := t.held, out := t.out } ∧
    s.pos ≤ t.pos ∧ ∀ k, k < s.pos ∨ t.pos ≤ k → t.outByte k = s.outByte k

theorem CoderFrame.refl (s : State) : CoderFrame s s := ⟨rfl, Nat.le_refl _, fun _ _ => rfl⟩

theorem CoderFrame.trans {s t u : State} (h : CoderFrame s t) (h' : CoderFrame t u) : CoderFrame s u := by
  obtain ⟨e, hp, ho⟩ := h
  obtain ⟨e', hp', ho'⟩ := h'
  refine ⟨?_, by omega, ?_⟩
  · rw [e', e]
  · intro k hk
    rw [ho' k (by omega), ho k (by omega)]

theorem writeByte_frame {b : Byte} {s t : State} (h : writeByte b s = .next t) : CoderFrame s t := by
  obtain ⟨-, rfl⟩ := writeByte_eq_next.mp h
  refine ⟨rfl, by simp, fun k hk => ?_⟩
  simp only [State.outByte]
  rw [Memory.read_write_other _ _ (by simp only at hk; omega)]

theorem writeBytes_frame {n : Nat} {b : Byte} {s t : State} (h : writeBytes n b s = .next t) : CoderFrame s t := by
  obtain ⟨-, rfl⟩ := writeBytes_eq_next.mp h
  refine ⟨rfl, by simp, fun k hk => ?_⟩
  simp only [State.outByte, read_writeRun]
  rw [if_neg (by simp only at hk; omega)]

theorem flushPending_frame {s t : State} (h : flushPending s = .next t) : CoderFrame s t := by
  unfold flushPending flushHeld at h
  obtain ⟨u, hu, ht⟩ := andThen_eq_next.mp h
  refine CoderFrame.trans (t := u) ?_ (writeBytes_frame ht)
  split at hu
  · cases hu; exact CoderFrame.refl _
  · exact writeByte_frame hu

theorem resolveCarry_frame {s t : State} (h : resolveCarry s = .next t) : CoderFrame s t := by
  unfold resolveCarry at h
  split at h
  · simp at h
  · obtain ⟨u, hu, ht⟩ := andThen_eq_next.mp h
    exact (writeByte_frame hu).trans (writeBytes_frame ht)

theorem pack_frame {bits : BitVec 24} {s t : State} (h : pack bits s = .next t) : CoderFrame s t := by
  rcases pack_eq_next.mp h with ⟨-, rfl⟩ | ⟨-, u, hu, rfl⟩
  · exact ⟨rfl, Nat.le_refl _, fun _ _ => rfl⟩
  · have hf : CoderFrame s u := by
      split at hu
      · exact resolveCarry_frame hu
      · exact flushPending_frame hu
    exact hf.trans ⟨rfl, Nat.le_refl _, fun _ _ => rfl⟩

theorem extract_frame {s t : State} (h : extract s = .next t) : CoderFrame s t := by
  rw [extract_eq_pack] at h
  exact CoderFrame.trans (t := afterExtract s) ⟨rfl, Nat.le_refl _, fun _ _ => rfl⟩ (pack_frame h)

theorem putBit_frame {b : Bool} {p : Prob} {s t : State} (h : putBit b p s = .next t) : CoderFrame s t := by
  have hc : CoderFrame s (codeBit b p s) := ⟨rfl, Nat.le_refl _, fun _ _ => rfl⟩
  unfold putBit at h
  simp only at h
  split at h
  · exact hc.trans (extract_frame h)
  · cases h; exact hc

theorem padBits_frame {n : Nat} {s t : State} (h : padBits n s = .next t) : CoderFrame s t := by
  induction n generalizing s with
  | zero => cases h; exact CoderFrame.refl _
  | succ n ih =>
    obtain ⟨u, hu, ht⟩ := andThen_eq_next.mp h
    exact (putBit_frame hu).trans (ih ht)

/-! ### Traversals -/

/-- A token word that decodes runs as its instruction. -/
theorem runToken_eq_fault_or (t : TokWord) (s : State) :
    (∃ bit slot, decodeToken t = .ok (.tokDyn bit slot) ∧ runToken t s = execTokDyn bit slot s) ∨
    (∃ bit prob, decodeToken t = .ok (.tokConst bit prob) ∧ runToken t s = execTokConst bit prob s) ∨
    runToken t s = .fault (.reservedToken s.endTraversal) := by
  unfold runToken
  split
  · rename_i bit slot h; exact .inl ⟨bit, slot, h, rfl⟩
  · rename_i bit prob h; exact .inr (.inl ⟨bit, prob, h, rfl⟩)
  · exact .inr (.inr rfl)

theorem runBit_emit {bit : Bool} {p : Prob} {s : State} {todo : List TokWord} (h : s.pass = some (.emit todo)) :
    runBit bit p s = endOnFault (putBit bit p s) := by
  simp [runBit, h]

theorem runBit_estimate {bit : Bool} {p : Prob} {s : State} {todo : List TokWord} {acc : Nat}
    (h : s.pass = some (.estimate todo acc)) :
    runBit bit p s = .next { s with pass := some (.estimate todo (acc + bitCost s.cfg bit p)) } := by
  simp [runBit, h]

end Sys2Proof.Machine
end

