-- ==== Sys2Proof/Laws/Coder.lean ====
section
/-! SUPPORT. The arithmetic of one coded bit: the split, the normalisation, the registers that `codeBit` leaves, and
what extracting a byte group does (44_range_coder.md R137 to R145, R156). -/

namespace Sys2Proof.Machine

/-! ### Numbers -/

theorem splitOf_pos (r p : Nat) : 1 ≤ splitOf r p := by unfold splitOf; omega

theorem splitOf_le {r p : Nat} (h : 1 ≤ r) (h' : r ≤ 255) (hp : p < 256) : splitOf r p ≤ r := by
  unfold splitOf
  have h1 : r * p ≤ r * 255 := Nat.mul_le_mul_left r (by omega)
  have h2 : r * p / 256 < r := Nat.div_lt_of_lt_mul (by omega)
  omega

/-- The true new range lies between 1 and the stored range. -/
theorem newRange_bounds {r p : Nat} (bit : Bool) (h : 1 ≤ r) (h' : r ≤ 255) (hp : p < 256) :
    1 ≤ newRange bit r (splitOf r p) ∧ newRange bit r (splitOf r p) ≤ r := by
  have h1 := splitOf_pos r p
  have h2 := splitOf_le h h' hp
  unfold newRange
  split <;> omega

/-- `clz8` is the shift that normalises. -/
theorem clz8_spec {x : Nat} (h : 1 ≤ x) (h' : x ≤ 255) :
    clz8 x ≤ 7 ∧ 128 ≤ x * 2 ^ clz8 x ∧ x * 2 ^ clz8 x ≤ 255 := by
  unfold clz8
  repeat' split
  all_goals omega

theorem toInt_ofInt5 {x : Int} (h : -16 ≤ x) (h' : x ≤ 15) : (BitVec.ofInt 5 x).toInt = x := by
  rw [BitVec.toInt_ofInt, Int.bmod_def]
  norm_num
  split <;> omega

/-! ### The registers after a bit, before a byte group leaves -/

/-- The shift of a coded bit. -/
def bitShift (bit : Bool) (prob : Prob) (s : State) : Nat :=
  clz8 (newRange bit s.range.toNat (splitOf s.range.toNat prob.toNat))

/-- The true range after the shift. -/
def shiftedRange (bit : Bool) (prob : Prob) (s : State) : Nat :=
  newRange bit s.range.toNat (splitOf s.range.toNat prob.toNat) * 2 ^ bitShift bit prob s

/-- `value` after the shift, before extraction. -/
def shiftedValue (bit : Bool) (prob : Prob) (s : State) : Nat :=
  (s.value.toNat + if bit then splitOf s.range.toNat prob.toNat else 0) * 2 ^ bitShift bit prob s

theorem bitShift_le {bit : Bool} {prob : Prob} {s : State} (h : 1 ≤ s.range.toNat) : bitShift bit prob s ≤ 7 := by
  have hr := s.range.isLt
  have hb := newRange_bounds bit h (by omega) prob.isLt
  exact (clz8_spec hb.1 (by omega)).1

theorem shiftedRange_bounds {bit : Bool} {prob : Prob} {s : State} (h : 1 ≤ s.range.toNat) :
    128 ≤ shiftedRange bit prob s ∧ shiftedRange bit prob s ≤ 255 := by
  have hr := s.range.isLt
  have hb := newRange_bounds bit h (by omega) prob.isLt
  exact (clz8_spec hb.1 (by omega)).2

/-- After a bit the true range is below 255, so the stored range is below 254 (44_range_coder.md R156 (a)). -/
theorem shiftedRange_le {bit : Bool} {prob : Prob} {s : State} (h : 1 ≤ s.range.toNat) (h' : s.range.toNat ≤ 254) :
    shiftedRange bit prob s ≤ 254 := by
  have hb := newRange_bounds bit h (by omega) prob.isLt
  have hs := shiftedRange_bounds (bit := bit) (prob := prob) h
  unfold shiftedRange at *
  generalize hk : bitShift bit prob s = k at *
  rcases Nat.eq_zero_or_pos k with rfl | hpos
  · omega
  · obtain ⟨j, rfl⟩ : ∃ j, k = j + 1 := ⟨k - 1, by omega⟩
    rw [Nat.pow_succ, ← Nat.mul_assoc] at *
    omega

/-- The upper end of the interval only falls, scaled by the shift. -/
theorem shifted_upper (bit : Bool) (prob : Prob) (s : State) (h : 1 ≤ s.range.toNat) :
    shiftedValue bit prob s + shiftedRange bit prob s ≤ s.upperEnd * 2 ^ bitShift bit prob s := by
  have h2 := splitOf_le (p := prob.toNat) h (by have := s.range.isLt; omega) prob.isLt
  unfold shiftedValue shiftedRange State.upperEnd
  rw [← Nat.add_mul]
  apply Nat.mul_le_mul_right
  unfold newRange
  split <;> omega

theorem bitCount_eq {s : State} (h : -8 ≤ s.nbBits.toInt) : (s.bitCount : Int) = s.nbBits.toInt + 8 := by
  unfold State.bitCount
  omega

theorem codeBit_range {bit : Bool} {prob : Prob} {s : State} (h : 1 ≤ s.range.toNat) :
    (codeBit bit prob s).range.toNat = shiftedRange bit prob s - 1 := by
  have hb := shiftedRange_bounds (bit := bit) (prob := prob) h
  change (BitVec.ofNat 8 (shiftedRange bit prob s) - 1).toNat = _
  have h1 : (1 : BitVec 8).toNat = 1 := rfl
  rw [BitVec.toNat_sub, BitVec.toNat_ofNat, h1]
  omega

theorem codeBit_nbBits {bit : Bool} {prob : Prob} {s : State} (h : 1 ≤ s.range.toNat) (hn : -8 ≤ s.nbBits.toInt)
    (hn' : s.nbBits.toInt ≤ 0) : (codeBit bit prob s).nbBits.toInt = s.nbBits.toInt + bitShift bit prob s := by
  have hk := bitShift_le (bit := bit) (prob := prob) h
  exact toInt_ofInt5 (x := s.nbBits.toInt + bitShift bit prob s) (by omega) (by omega)

/-- `value` never overflows 24 bits (44_range_coder.md R156 (b)). -/
theorem shiftedValue_lt {bit : Bool} {prob : Prob} {s : State} (h : 1 ≤ s.range.toNat)
    (hu : s.upperEnd ≤ 2 ^ (s.bitCount + 9)) :
    shiftedValue bit prob s + shiftedRange bit prob s ≤ 2 ^ (s.bitCount + bitShift bit prob s + 9) := by
  refine (shifted_upper bit prob s h).trans ?_
  calc s.upperEnd * 2 ^ bitShift bit prob s ≤ 2 ^ (s.bitCount + 9) * 2 ^ bitShift bit prob s :=
        Nat.mul_le_mul_right _ hu
    _ = _ := by rw [← Nat.pow_add]; congr 1; omega

theorem codeBit_value {bit : Bool} {prob : Prob} {s : State} (h : 1 ≤ s.range.toNat) (hn' : s.nbBits.toInt ≤ 0)
    (hu : s.upperEnd ≤ 2 ^ (s.bitCount + 9)) : (codeBit bit prob s).value.toNat = shiftedValue bit prob s := by
  have hk := bitShift_le (bit := bit) (prob := prob) h
  have hr := (shiftedRange_bounds (bit := bit) (prob := prob) h).1
  have hv := shiftedValue_lt (bit := bit) (prob := prob) h hu
  have hbc : s.bitCount ≤ 8 := by unfold State.bitCount; omega
  have h24 : (2 : Nat) ^ (s.bitCount + bitShift bit prob s + 9) ≤ 2 ^ 24 := Nat.pow_le_pow_right (by omega) (by omega)
  change (BitVec.ofNat 24 (shiftedValue bit prob s)).toNat = _
  rw [BitVec.toNat_ofNat]
  exact Nat.mod_eq_of_lt (by omega)

/-! ### Extraction -/

theorem toNat_groupByte (w : BitVec 24) : (groupByte w).toNat = w.toNat % 256 := by
  simp [groupByte, BitVec.extractLsb'_toNat]

theorem carryBit_iff {w : BitVec 24} (h : w.toNat < 512) : carryBit w = true ↔ 256 ≤ w.toNat := by
  have hb : carryBit w = w.toNat.testBit 8 := rfl
  rw [hb, Nat.testBit_eq_decide_div_mod_eq]
  simp only [decide_eq_true_eq]
  omega

/-- The group that EXTRACT takes, and what it leaves in `value`. -/
theorem extract_values {s : State} {m : Nat} (hm : (8 + s.nbBits.toInt).toNat = m) :
    (s.value >>> m).toNat = s.value.toNat / 2 ^ m ∧ (afterExtract s).value.toNat = s.value.toNat % 2 ^ m := by
  have h1 : (s.value >>> m).toNat = s.value.toNat / 2 ^ m := by
    rw [BitVec.toNat_ushiftRight, Nat.shiftRight_eq_div_pow]
  refine ⟨h1, ?_⟩
  simp only [afterExtract, hm]
  have hlt := s.value.isLt
  have hdm := Nat.div_add_mod s.value.toNat (2 ^ m)
  have h2 : ((s.value >>> m) <<< m).toNat = 2 ^ m * (s.value.toNat / 2 ^ m) := by
    rw [BitVec.toNat_shiftLeft, h1, Nat.shiftLeft_eq, Nat.mul_comm]
    exact Nat.mod_eq_of_lt (by omega)
  rw [BitVec.toNat_sub, h2]
  omega

/-! ### Packing -/

theorem groupByte_eq_ff (w : BitVec 24) : groupByte w = 0xFF ↔ w.toNat % 256 = 255 := by
  rw [← toNat_groupByte]
  constructor
  · intro h; rw [h]; rfl
  · intro h; exact BitVec.eq_of_toNat_eq h

theorem pack_of_carry {w : BitVec 24} {s u : State} (h : groupByte w ≠ 0xFF) (hc : carryBit w = true)
    (hu : resolveCarry s = .next u) : pack w s = .next { u with run := 0, held := groupByte w } :=
  pack_eq_next.mpr (.inr ⟨h, u, by rw [if_pos hc]; exact hu, rfl⟩)

theorem pack_of_no_carry {w : BitVec 24} {s u : State} (h : groupByte w ≠ 0xFF) (hc : ¬carryBit w = true)
    (hu : flushPending s = .next u) : pack w s = .next { u with run := 0, held := groupByte w } :=
  pack_eq_next.mpr (.inr ⟨h, u, by rw [if_neg hc]; exact hu, rfl⟩)

/-- PACK of a group of nine bits: it answers a next state where there is room and a held byte for a carry, and the
state is the one the spec describes. -/
theorem pack_packed {w : BitVec 24} {s : State} (hw : w.toNat < 512) (hc : 256 ≤ w.toNat → s.held ≠ 0xFF)
    (room : s.pos + s.run + 1 ≤ s.cfg.outCapacity) :
    ∃ t, pack w s = .next t ∧ Packed w.toNat s t := by
  by_cases hff : w.toNat % 256 = 255
  · refine ⟨{ s with run := s.run + 1 }, pack_eq_next.mpr (.inl ⟨(groupByte_eq_ff w).mpr hff, rfl⟩), ?_⟩
    unfold Packed
    rw [if_pos hff]
    exact ⟨rfl, rfl, rfl, fun _ => rfl⟩
  · have hne : groupByte w ≠ 0xFF := fun h => hff ((groupByte_eq_ff w).mp h)
    by_cases hcar : carryBit w = true
    · have hg := (carryBit_iff hw).mp hcar
      have hh := hc hg
      refine ⟨_, pack_of_carry hne hcar (resolveCarry_eq_next.mpr ⟨hh, by omega, rfl⟩), ?_⟩
      · unfold Packed
        rw [if_neg hff]
        refine ⟨rfl, toNat_groupByte w, ?_, ?_, ?_, ?_⟩
        · rw [if_neg hh]
        · intro _
          simp only [State.outByte, read_writeRun, Memory.read_write, if_pos hg]
          rw [if_neg (by omega), if_pos (by trivial), Option.getD_some]
        · intro k h1 h2
          simp only at h1 h2
          simp only [State.outByte, read_writeRun, if_pos hg]
          rw [if_pos (by omega), Option.getD_some]
        · intro k hk
          simp only at hk
          simp only [State.outByte, read_writeRun, Memory.read_write]
          rw [if_neg (by omega), if_neg (by omega)]
    · have hg : ¬ 256 ≤ w.toNat := fun h => hcar ((carryBit_iff hw).mpr h)
      by_cases hh : s.held = 0xFF
      · refine ⟨_, pack_of_no_carry hne hcar (flushPending_eq_next.mpr (.inl ⟨hh, .inr (by omega), rfl⟩)), ?_⟩
        · unfold Packed
          rw [if_neg hff]
          refine ⟨rfl, toNat_groupByte w, ?_, fun h => absurd hh h, ?_, ?_⟩
          · rw [if_pos hh]; rfl
          · intro k h1 h2
            simp only at h1 h2
            simp only [State.outByte, read_writeRun, if_neg hg]
            rw [if_pos (by omega), Option.getD_some]
          · intro k hk
            simp only at hk
            simp only [State.outByte, read_writeRun]
            rw [if_neg (by omega)]
      · refine ⟨_, pack_of_no_carry hne hcar (flushPending_eq_next.mpr (.inr ⟨hh, by omega, rfl⟩)), ?_⟩
        · unfold Packed
          rw [if_neg hff]
          refine ⟨rfl, toNat_groupByte w, ?_, ?_, ?_, ?_⟩
          · rw [if_neg hh]
          · intro _
            simp only [State.outByte, read_writeRun, Memory.read_write, if_neg hg]
            rw [if_neg (by omega), if_pos (by trivial), Option.getD_some]
          · intro k h1 h2
            simp only at h1 h2
            simp only [State.outByte, read_writeRun, if_neg hg]
            rw [if_pos (by omega), Option.getD_some]
          · intro k hk
            simp only at hk
            simp only [State.outByte, read_writeRun, Memory.read_write]
            rw [if_neg (by omega), if_neg (by omega)]

theorem writeBytes_keeps {n : Nat} {b : Byte} {s t : State} (h : writeBytes n b s = .next t) :
    t = { s with out := t.out, pos := t.pos } := by
  obtain ⟨-, rfl⟩ := writeBytes_eq_next.mp h
  rfl

/-- PACK writes the run, the position, the held byte and the output, and nothing else. -/
theorem pack_keeps {w : BitVec 24} {s t : State} (h : pack w s = .next t) :
    t = { s with run := t.run, pos := t.pos, held := t.held, out := t.out } := by
  rcases pack_eq_next.mp h with ⟨-, rfl⟩ | ⟨-, u, hu, rfl⟩
  · rfl
  · split at hu
    · obtain ⟨-, -, rfl⟩ := resolveCarry_eq_next.mp hu; rfl
    · rcases flushPending_eq_next.mp hu with ⟨-, -, rfl⟩ | ⟨-, -, rfl⟩ <;> rfl

/-- A group that may be packed without a held byte, or with one, is never `0x1FF` (10_state.md R17 (d), (e)): what the
invariants of the coder say of the group that the next extraction takes. -/
theorem group_bounds {bit : Bool} {prob : Prob} {s : State} (hi : s.CoderInv) (hp : s.phase ≠ .done) :
    shiftedValue bit prob s / 2 ^ (s.bitCount + bitShift bit prob s) ≤ 382 ∧
      (s.held = 0xFF → shiftedValue bit prob s / 2 ^ (s.bitCount + bitShift bit prob s) ≤ 254) := by
  have h1 : 1 ≤ s.range.toNat := by have := hi.range_low; omega
  have hsu := shifted_upper bit prob s h1
  have hr := (shiftedRange_bounds (bit := bit) (prob := prob) h1).1
  have key : ∀ c, s.upperEnd ≤ c * 2 ^ s.bitCount →
      shiftedValue bit prob s / 2 ^ (s.bitCount + bitShift bit prob s) < c := by
    intro c hc
    apply Nat.div_lt_of_lt_mul
    have hb : s.upperEnd * 2 ^ bitShift bit prob s ≤ c * 2 ^ s.bitCount * 2 ^ bitShift bit prob s :=
      Nat.mul_le_mul_right _ hc
    have he : c * 2 ^ s.bitCount * 2 ^ bitShift bit prob s = 2 ^ (s.bitCount + bitShift bit prob s) * c := by
      rw [Nat.pow_add]; ring
    omega
  have ha := key 383 (hi.open_upper hp)
  refine ⟨by omega, fun hh => ?_⟩
  have hb := key 255 (hi.empty_upper hp hh)
  omega

/-! ### One coded bit -/

/-- The state `PUTBIT` extracts from, or ends in. -/
theorem putBit_eq {bit : Bool} {prob : Prob} {s : State} (hi : s.CoderInv) :
    putBit bit prob s =
      if 0 < s.nbBits.toInt + bitShift bit prob s then extract (codeBit bit prob s)
      else .next (codeBit bit prob s) := by
  have h1 : 1 ≤ s.range.toNat := by have := hi.range_low; omega
  unfold putBit
  simp only [codeBit_nbBits h1 hi.bits_low hi.bits_high]

/-- Everything `PUTBIT` can do from a state with the coder's invariants, and that it does it where there is room for
a byte group or none leaves (44_range_coder.md R137 to R145). -/
theorem putBit_coded {bit : Bool} {prob : Prob} {s : State} (hi : s.CoderInv) (hp : s.phase ≠ .done)
    (room : s.nbBits.toInt + bitShift bit prob s ≤ 0 ∨ s.pos + s.run + 1 ≤ s.cfg.outCapacity) :
    ∃ t, putBit bit prob s = .next t ∧ CodedBit bit prob s t := by
  have h1 : 1 ≤ s.range.toNat := by have := hi.range_low; omega
  have hk := bitShift_le (bit := bit) (prob := prob) h1
  have hr := shiftedRange_bounds (bit := bit) (prob := prob) h1
  have hv := codeBit_value (bit := bit) (prob := prob) h1 hi.bits_high hi.upper
  have hn := codeBit_nbBits (bit := bit) (prob := prob) h1 hi.bits_low hi.bits_high
  have hrg := codeBit_range (bit := bit) (prob := prob) h1
  have hb := bitCount_eq hi.bits_low
  rw [putBit_eq hi]
  by_cases hpos : 0 < s.nbBits.toInt + bitShift bit prob s
  · rw [if_pos hpos, extract_eq_pack]
    have hm : (8 + (codeBit bit prob s).nbBits.toInt).toNat = s.bitCount + bitShift bit prob s := by
      rw [hn]; omega
    obtain ⟨hg, hval⟩ := extract_values hm
    have hgb := group_bounds (bit := bit) (prob := prob) hi hp
    rw [hm]
    have hlt : ((codeBit bit prob s).value >>> (s.bitCount + bitShift bit prob s)).toNat < 512 := by
      rw [hg, hv]; omega
    obtain ⟨t, ht, hpk⟩ := pack_packed (s := afterExtract (codeBit bit prob s)) hlt
      (by
        intro h256 hh
        have := hgb.2 hh
        rw [hg, hv] at h256
        omega)
      (by
        rcases room with hx | hx
        · omega
        · exact hx)
    have hf := pack_frame ht
    refine ⟨t, ht, bitShift bit prob s, _, _, _, _, rfl, rfl, hk, hr.1, hr.2, rfl, rfl, hf.1, ?_, ?_⟩
    · rw [pack_keeps ht]
      exact hrg
    · rw [if_neg (by omega)]
      have hm' : (8 + (s.nbBits.toInt + (bitShift bit prob s : Int))).toNat = s.bitCount + bitShift bit prob s := by
        omega
      have hnb : (afterExtract (codeBit bit prob s)).nbBits.toInt = s.nbBits.toInt + bitShift bit prob s - 8 := by
        have := hi.bits_high
        rw [← hn]
        exact toInt_ofInt5 (by omega) (by omega)
      refine ⟨?_, ?_, ?_⟩
      · rw [pack_keeps ht, hm']
        exact hval.trans (by rw [hv]; rfl)
      · rw [pack_keeps ht]
        exact hnb
      · rw [hm']
        rw [hg, hv] at hpk
        exact hpk
  · rw [if_neg hpos]
    refine ⟨_, rfl, bitShift bit prob s, _, _, _, _, rfl, rfl, hk, hr.1, hr.2, rfl, rfl, rfl, hrg, ?_⟩
    rw [if_pos (by omega)]
    exact ⟨hv, hn, rfl, rfl, rfl, fun _ => rfl⟩

/-- A coded bit keeps the invariants of the coder. -/
theorem CodedBit.coderInv {bit : Bool} {prob : Prob} {s t : State} (hi : s.CoderInv) (hp : s.phase ≠ .done)
    (h : CodedBit bit prob s t) : t.CoderInv := by
  obtain ⟨k, split, rn, v, n, hsplit, hrn, hk, hlo, hhi, hv, hn, hframe, hrange, hrest⟩ := h
  have hphase : t.phase = s.phase := by rw [hframe]
  have h1 : 1 ≤ s.range.toNat := by have := hi.range_low; omega
  have hsl : split ≤ s.range.toNat := by rw [hsplit]; exact splitOf_le h1 (by have := s.range.isLt; omega) prob.isLt
  have hbc := bitCount_eq hi.bits_low
  have hbl := hi.bits_low
  have hbh := hi.bits_high
  have hr1 := hi.range_high
  -- the new range is even after a shift, and at most the old one without
  have hrn254 : rn * 2 ^ k ≤ 254 := by
    have hrnle : rn ≤ s.range.toNat := by rw [hrn]; split <;> omega
    rcases Nat.eq_zero_or_pos k with rfl | hpos
    · omega
    · obtain ⟨j, rfl⟩ : ∃ j, k = j + 1 := ⟨k - 1, by omega⟩
      rw [Nat.pow_succ, ← Nat.mul_assoc] at *
      omega
  have hup : v + rn * 2 ^ k ≤ s.upperEnd * 2 ^ k := by
    rw [hv, ← Nat.add_mul]
    apply Nat.mul_le_mul_right
    unfold State.upperEnd
    rw [hrn]
    split <;> omega
  have key : ∀ c m, s.upperEnd ≤ c * 2 ^ s.bitCount → m = s.bitCount + k → v + rn * 2 ^ k ≤ c * 2 ^ m := by
    intro c m hc hm
    have hb : s.upperEnd * 2 ^ k ≤ c * 2 ^ s.bitCount * 2 ^ k := Nat.mul_le_mul_right _ hc
    have he : c * 2 ^ s.bitCount * 2 ^ k = c * 2 ^ m := by rw [hm, Nat.pow_add]; ring
    omega
  have hup9 : s.upperEnd ≤ 512 * 2 ^ s.bitCount := by
    have := hi.upper
    rw [Nat.pow_add] at this
    omega
  split at hrest
  · rename_i hle
    obtain ⟨hval, hnb, hrun, hpos, hheld, -⟩ := hrest
    have htbc : t.bitCount = s.bitCount + k := by
      unfold State.bitCount
      rw [hnb]
      omega
    have hue : t.upperEnd = v + rn * 2 ^ k := by
      unfold State.upperEnd
      rw [hval, hrange]
      omega
    refine ⟨by omega, by omega, by omega, by omega, by omega, ?_, ?_, ?_, ?_⟩
    · rw [hue, htbc, Nat.pow_add _ _ 9, Nat.mul_comm _ (2 ^ 9)]
      exact key 512 _ hup9 rfl
    · rw [hheld, hrun]; exact hi.run_held
    · rw [hue, htbc, hphase]; exact fun _ => key 383 _ (hi.open_upper hp) rfl
    · rw [hue, htbc, hphase, hheld]; exact fun _ hh => key 255 _ (hi.empty_upper hp hh) rfl
  · rename_i hgt
    obtain ⟨hval, hnb, hpacked⟩ := hrest
    obtain ⟨m, hm⟩ : ∃ m, m = (8 + n).toNat := ⟨_, rfl⟩
    rw [← hm] at hval hpacked
    have hmk : m = s.bitCount + k := by omega
    have hm9 : 9 ≤ m := by omega
    have htbc : t.bitCount = m - 8 := by
      unfold State.bitCount
      rw [hnb]
      omega
    obtain ⟨j, rfl⟩ : ∃ j, m = j + 9 := ⟨m - 9, by omega⟩
    have hj : 1 ≤ 2 ^ j := Nat.one_le_two_pow
    have hpw : 2 ^ (j + 9) = 512 * 2 ^ j := by rw [Nat.pow_add]; omega
    have hlt : v % 2 ^ (j + 9) < 2 ^ (j + 9) := Nat.mod_lt _ (by omega)
    have htb1 : 2 ^ t.bitCount = 2 * 2 ^ j := by
      rw [htbc, show j + 9 - 8 = j + 1 by omega, Nat.pow_succ]
      omega
    have hue : t.upperEnd ≤ 512 * 2 ^ j - 1 + 254 := by
      unfold State.upperEnd
      rw [hval, hrange]
      omega
    have hg : s.held = 0xFF → v / 2 ^ (j + 9) < 255 := by
      intro hh
      have := key 255 _ (hi.empty_upper hp hh) hmk
      apply Nat.div_lt_of_lt_mul
      rw [Nat.mul_comm]
      omega
    have hne : t.held ≠ 0xFF := by
      unfold Packed at hpacked
      split at hpacked
      · rename_i hff
        rw [hpacked.2.1]
        intro hh
        have h255 := hg hh
        rw [Nat.mod_eq_of_lt (by omega)] at hff
        omega
      · rename_i hff
        intro hh
        have := hpacked.2.1
        rw [hh] at this
        exact hff this.symm
    refine ⟨by omega, by omega, by omega, by omega, by omega, ?_, ?_, ?_, ?_⟩
    · rw [Nat.pow_add, htb1]; omega
    · exact fun hh => absurd hh hne
    · intro _; rw [htb1]; omega
    · exact fun _ hh => absurd hh hne

end Sys2Proof.Machine
end

