-- ==== Sys2Proof/Laws/PerInstr.lean ====
section
/-! SUPPORT. Statements about every instruction as syntax, one lemma per constructor. -/

namespace Sys2Proof.Laws

/-- How long an instruction is (30_encoding.md R73): RECBLK is nine words, every other command one, and a token word
is one 16-bit word. -/
def EncodeLength.Statement (i : Instr) : Prop :=
  match i with
  | .recblk _ _ _ _ _ => ∃ ws : List CmdWord, encode i = .command ws ∧ ws.length = 9
  | .tokDyn _ _ => ∃ t : TokWord, encode i = .token t
  | .tokConst _ _ => ∃ t : TokWord, encode i = .token t
  | .init _ => ∃ w : CmdWord, encode i = .command [w]
  | .appd _ _ => ∃ w : CmdWord, encode i = .command [w]
  | .appc _ _ => ∃ w : CmdWord, encode i = .command [w]
  | .tally _ _ => ∃ w : CmdWord, encode i = .command [w]
  | .finalize => ∃ w : CmdWord, encode i = .command [w]
  | .estimate => ∃ w : CmdWord, encode i = .command [w]
  | .emit => ∃ w : CmdWord, encode i = .command [w]
  | .finish => ∃ w : CmdWord, encode i = .command [w]
  | .clear => ∃ w : CmdWord, encode i = .command [w]

theorem EncodeLength.init (psize : BitVec 24) : EncodeLength.Statement (.init psize) := ⟨_, rfl⟩

theorem EncodeLength.recblk (ctx ctype : BitVec 2) (first : BitVec 4) (last : BitVec 5) (coefs : Vector Coef 16) :
    EncodeLength.Statement (.recblk ctx ctype first last coefs) := ⟨_, rfl, rfl⟩

theorem EncodeLength.appd (bit : Bool) (slot : BitVec 14) : EncodeLength.Statement (.appd bit slot) := ⟨_, rfl⟩

theorem EncodeLength.appc (bit : Bool) (prob : Prob) : EncodeLength.Statement (.appc bit prob) := ⟨_, rfl⟩

theorem EncodeLength.tally (bit : Bool) (slot : BitVec 14) : EncodeLength.Statement (.tally bit slot) := ⟨_, rfl⟩

theorem EncodeLength.finalize : EncodeLength.Statement .finalize := ⟨_, rfl⟩

theorem EncodeLength.estimate : EncodeLength.Statement .estimate := ⟨_, rfl⟩

theorem EncodeLength.emit : EncodeLength.Statement .emit := ⟨_, rfl⟩

theorem EncodeLength.finish : EncodeLength.Statement .finish := ⟨_, rfl⟩

theorem EncodeLength.clear : EncodeLength.Statement .clear := ⟨_, rfl⟩

theorem EncodeLength.tokDyn (bit : Bool) (slot : BitVec 14) : EncodeLength.Statement (.tokDyn bit slot) := ⟨_, rfl⟩

theorem EncodeLength.tokConst (bit : Bool) (prob : Prob) : EncodeLength.Statement (.tokConst bit prob) := ⟨_, rfl⟩

end Sys2Proof.Laws
end

