-- ==== Sys2Proof/Tests/Slice0.lean ====
section
/-! SUPPORT. The model's own tests: the well-formedness smoke, words written out from the spec's encodings, at most two
one-step tests an instruction with the spec's own values, and a witness for the hypotheses of every statement. -/

namespace Sys2Proof.Tests

open Sys2Proof Sys2Proof.Machine

/-! ### Helpers -/

/-- The test cost table `EC_T` of 95_test_vectors.md. -/
def ecT (x : Nat) : Nat := 256 * (8 - Nat.log2 (max x 1))

/-- The test ROMs of 95_test_vectors.md, with small memories. -/
def cfg : Config :=
  { maxPages := 3, outCapacity := 64, p0 := Vector.replicate 1056 128, upd := Vector.replicate 1056 250
    ec := tableOf fun i => ecT i.val }

/-- A state right after INIT, in the given phase. -/
def at_ (p : Phase) : State := { State.namedValues with cfg := cfg, phase := p }

/-- The first page with these token words, the first in the highest slot (41_token_buffer.md R107). -/
def holding (ts : List TokWord) (s : State) : State :=
  { s with
    npages := 1
    left := 8192 - ts.length
    tok := (List.range ts.length).foldl (fun m k => Memory.write m (tokAddr 0 (8191 - k)) (ts.getD k 0)) [] }

def nextOf : Result → Option State
  | .next s => some s
  | .fault _ => none
  | .refused _ => none

theorem completes_of {r : Result} (h : (nextOf r).isSome = true) : ∃ t, r = .next t := by
  cases r with
  | next s => exact ⟨s, rfl⟩
  | fault x => cases h
  | refused x => cases h

/-- Sixteen coefficients, the given ones first. -/
def coefs (l : List Int) : Vector Coef 16 := tableOf fun i => BitVec.ofInt 16 (l.getD i.val 0)

/-! ### Well-formedness -/

theorem test_wellFormed_appd : (Instr.appd true 1056).wellFormed = false := by decide
theorem test_wellFormed_tally : (Instr.tally true 1056).wellFormed = false := by decide
theorem test_wellFormed_tokDyn : (Instr.tokDyn true 1056).wellFormed = false := by decide
theorem test_wellFormed_last_slot : (Instr.appd true 1055).wellFormed = true
    ∧ (Instr.tally false 1055).wellFormed = true ∧ (Instr.tokDyn true 1055).wellFormed = true := by decide

/-! ### Words written out from the spec's encodings (30_encoding.md R75) -/

theorem test_decode_init : decodeTableWord 32 0x01002000 = some (.init 8192) := by decide
theorem test_decode_recblk :
    decodeTableWord 288 (0x0200030C + 0xFFFE0005 * 2 ^ 32 + 0x00010000 * 2 ^ 64)
      = some (.recblk 0 3 0 3 (coefs [5, -2, 0, 1])) := by decide +kernel
theorem test_decode_appd : decodeTableWord 32 0x03008318 = some (.appd true 792) := by decide
theorem test_decode_appc : decodeTableWord 32 0x0300C0FE = some (.appc true 254) := by decide
theorem test_decode_tally : decodeTableWord 32 0x04008318 = some (.tally true 792) := by decide
theorem test_decode_finalize : decodeTableWord 32 0x05000000 = some .finalize := by decide
theorem test_decode_estimate : decodeTableWord 32 0x06000000 = some .estimate := by decide
theorem test_decode_emit : decodeTableWord 32 0x07000000 = some .emit := by decide
theorem test_decode_finish : decodeTableWord 32 0x08000000 = some .finish := by decide
theorem test_decode_clear : decodeTableWord 32 0x09000000 = some .clear := by decide
theorem test_decode_tokDyn : decodeTableWord 16 0b0000010000011111 = some (.tokDyn false 1055) := by decide
theorem test_decode_tokConst : decodeTableWord 16 0b1100000010000000 = some (.tokConst true 128) := by decide
/-- One word of each case of 30_encoding.md R72, and a byte view (20_memory.md R42). -/
theorem test_decode_illegal :
    ([0x00000000, 0x0A000000, 0x05000001, 0x0200230C, 0x03018318, 0x0400C318, 0x0300C1FE, 0x03000420, 0x04000420].map
      (decodeTableWord 32)) = List.replicate 9 none := by decide
theorem test_decode_reserved_token : decodeTableWord 16 0x0420 = none ∧ decodeTableWord 16 0x4180 = none := by decide
theorem test_fetch_bytes : fetchBytes [0x00, 0x20, 0x00, 0x01] = .command (.init 8192) [] := by decide
theorem test_asm : asm (.appd true 792) = "APPD 1, 792" := by decide

/-! ### One step of each instruction, with the spec's own values -/

/-- 45_frame_control.md R165, example. -/
theorem test_init_clamps : ∀ t, exec (.init 100) (at_ .done) = .next t → t.pageSize = 8192 ∧ t.phase = .recording := by
  intro t h; cases h; decide
/-- 95_test_vectors.md V13b: levels at positions 0, 2 and 3, a zero between them. -/
theorem test_recblk_tokens : (nextOf (exec (.recblk 2 1 0 3 (coefs [-3, 0, 12, 1])) (at_ .recording))).map State.tokseq
    = some [0x811E, 0x811F, 0x8120, 0x0121, 0x8122, 0x0123, 0xC080, 0x813F, 0x0140, 0x814B, 0x814C, 0x814D, 0x8150,
        0x0152, 0x0153, 0x40AD, 0x4094, 0xC08C, 0x4080, 0x8181, 0x8182, 0x0183, 0x4080, 0x01D9] := by decide +kernel
/-- 95_test_vectors.md V13a: the slots of positions 1 to 15. -/
theorem test_block_to_position_15 :
    (blockDecisions 1 0 1 15 (coefs [0, 1, 0, 0, 0, 0, 0, 0, 0, 0, 0, 0, 0, 0, 0, -1])).map Decision.word
      = [0x802C, 0x802D, 0x002E, 0x4080, 0x804D, 0x004E, 0x0064, 0x00C7, 0x0085, 0x00A6, 0x00C7, 0x00C7, 0x00C7,
        0x00C7, 0x00C7, 0x00C7, 0x00C7, 0x00C7, 0x80E8, 0x00E9, 0xC080] := by decide +kernel
/-- 40_token_encoder.md R95: one tally, of a 0 bit. -/
theorem test_recblk_all_zero : (nextOf (exec (.recblk 0 3 0 (-1) (coefs [])) (at_ .recording))).map
    (fun t => t.tallyAt 792) = some 0x00010000 := by decide +kernel
/-- 41_token_buffer.md R105, example. -/
theorem test_appd_word : (nextOf (exec (.appd true 792) (at_ .recording))).map State.tokseq = some [0x8318] := by
  decide +kernel
/-- 41_token_buffer.md R112: the last token of 8193 in page 1, slot 8191. -/
theorem test_appd_opens_a_page : (nextOf (exec (.appd true 792) { at_ .recording with npages := 1 })).map
    (fun t => (t.npages, t.left, t.tokWord 1 8191)) = some (2, 8191, 0x8318) := by decide +kernel
/-- 41_token_buffer.md R106, example. -/
theorem test_appc_word : (nextOf (exec (.appc true 254) (at_ .recording))).map State.tokseq = some [0xC0FE] := by
  decide +kernel
/-- 41_token_buffer.md R103: a page is needed and none is left. -/
theorem test_appc_allocation_fails : (nextOf (exec (.appc true 254) { at_ .recording with npages := 3 })).map
    (fun t => (t.tbError, t.npages, t.left)) = some (true, 3, 0) := by decide +kernel
/-- 42_statistics.md R117, example. -/
theorem test_tally_first : (nextOf (exec (.tally true 792) (at_ .recording))).map (fun t => t.tallyAt 792)
    = some 0x00010001 := by decide +kernel
/-- 42_statistics.md R120: the 65536th 1 bit. -/
theorem test_tally_halves :
    (nextOf (exec (.tally true 792) { at_ .recording with tally := Vector.replicate 1056 0xFFFFFFFF })).map
      (fun t => t.tallyAt 792) = some 0x80008001 := by decide +kernel
/-- 43_finalizer.md R122, example, and R133. -/
theorem test_finalize_slot :
    (nextOf (exec .finalize { at_ .recording with
      tally := (Vector.replicate 1056 0).set 792 (tallyWord 100 100) })).map
      (fun t => (t.pwAt 792, t.pwAt 791)) = some (0, 128) := by decide +kernel
/-- 43_finalizer.md R134, worked values: (14, 14) is the smallest all-ones entry adopted. -/
theorem test_finalize_adopts : slotDirty cfg 792 (tallyWord 14 14) = true ∧ slotDirty cfg 792 (tallyWord 13 13) = false
    ∧ finalProb cfg 792 (tallyWord 100 30) = 128 := by decide +kernel
/-- 44_range_coder.md R152, example. -/
theorem test_estimate_sum : (nextOf (exec .estimate (holding [0x4080, 0xC080] (at_ .recording)))).map
    (fun t => (t.sizeEst, t.npages)) = some (768, 1) := by decide +kernel
/-- 44_range_coder.md R160: the carry of the sixth token. -/
theorem test_emit_carry :
    (nextOf (exec .emit (holding [0xC0FE, 0x40FF, 0xC080, 0x4080, 0xC080, 0xC0FF] (at_ .recording)))).map
      (fun t => (t.range, t.value, t.held, t.pos, t.outByte 0)) = some (127, 0x180, 0x7C, 1, 0xFE) := by
  decide +kernel
theorem test_emit_record :
    (nextOf (exec .emit (holding [0xC080] (at_ .finalized)))).map
      (fun t => (t.eop.range, t.eop.value, t.npages)) = some (253, 0x100, 0) := by decide +kernel
/-- 44_range_coder.md R160: the rest of the partition, `7C C0 00 00`. -/
theorem test_finish_partition :
    (nextOf (exec .finish { at_ .emitted with
      range := 127, value := 0x180, nbBits := -7, held := 0x7C, pos := 1, out := [(0, 0xFE)] })).map
      State.partitionBytes = some [0xFE, 0x7C, 0xC0, 0x00, 0x00] := by decide +kernel
/-- 44_range_coder.md R153, example. -/
theorem test_finish_empty : (nextOf (exec .finish (at_ .emitted))).map State.partitionBytes = some [0x00, 0x00] := by
  decide +kernel
/-- 41_token_buffer.md R109. -/
theorem test_clear : (nextOf (exec .clear { holding [0x4080] (at_ .recording) with tbError := true })).map
    (fun t => (t.npages, t.left, t.tbError)) = some (0, 0, false) := by decide +kernel
/-- 44_range_coder.md R147, example. -/
theorem test_tokDyn :
    (nextOf (exec (.tokDyn true 792) { at_ .recording with
      pw := Vector.replicate 1056 246, pass := some (.emit []) })).map
      (fun t => (t.range, t.value, t.nbBits)) = some (159, 0xF50, -4) := by decide +kernel
/-- 44_range_coder.md R148, example. -/
theorem test_tokConst : (nextOf (exec (.tokConst false 128) { at_ .recording with pass := some (.emit []) })).map
    (fun t => (t.range, t.value, t.nbBits)) = some (127, 0, -8) := by decide +kernel

/-! ### The step after reset -/

theorem test_fetch_init : (nextOf (step (State.reset.withFetchWord 32 0x01002000))).map (fun t => t.pageSize)
    = some 8192 := by decide +kernel
theorem test_fetch_tokConst : (nextOf (step (State.reset.withFetchWord 16 0x4080))).map (fun t => t.range)
    = some 127 := by decide +kernel
theorem test_fetch_emit_refused : step (State.reset.withFetchWord 32 0x07000000)
    = .refused (.phaseViolation State.reset.markRefused) := by rfl

/-! ### Witnesses for the hypotheses of the statements -/

theorem at_coderInv (p : Phase) : (at_ p).CoderInv where
  range_low := by cases p <;> decide
  range_high := by cases p <;> decide
  range_init := fun _ => by cases p <;> decide
  bits_low := by cases p <;> decide
  bits_high := by cases p <;> decide
  upper := by cases p <;> decide
  run_held := fun _ => rfl
  open_upper := fun _ => by cases p <;> decide
  empty_upper := fun _ _ => by cases p <;> decide

theorem at_bufferInv (p : Phase) : (at_ p).BufferInv where
  size_low := by cases p <;> decide
  size_high := by cases p <;> decide
  pages := by cases p <;> decide
  free := fun h => absurd rfl h
  none_free := fun _ => rfl
  written := fun _ h => by cases h
  tokens := fun _ h => by cases h

theorem at_tallyAt (p : Phase) (i : Slot) : (at_ p).tallyAt i = 0 := by
  simp [at_, State.namedValues, State.tallyAt]

theorem at_tallyInv (p : Phase) : (at_ p).TallyInv := fun i => by
  rw [at_tallyAt]
  exact .inl (by decide)

theorem at_outInv (p : Phase) : (at_ p).OutInv where
  capacity := by cases p <;> decide
  written := fun k h => absurd h (Nat.not_lt_zero k)
  outside := fun _ _ => rfl

theorem at_memoryWf (p : Phase) : (at_ p).MemoryWf := ⟨Memory.wf_nil, Memory.wf_nil⟩

theorem witness_DecodeEncodeAgree : (Instr.appd true 1055).wellFormed = true ∧ (Instr.tokConst true 255).wellFormed = true := by
  decide
theorem witness_OnlyEncodingsDecode : decode (.command [0x0300841F]) = .ok (.appd true 1055) := by decide
/-- A legal word and one for each illegal case, at the bounds (30_encoding.md R72). -/
theorem witness_WordDecodesUnlessIllegal : ¬IllegalWord 0x0400041F ∧ [(0x04000420 : CmdWord)].length = commandLength 0x04000420
    ∧ ∀ w ∈ [(0x00000000 : CmdWord), 0x0A000000, 0x05000001, 0x02002000, 0x03010000, 0x04004000, 0x03004100, 0x03000420],
        IllegalWord w := by
  refine ⟨by decide, by decide, ?_⟩
  intro w hw
  fin_cases hw <;> decide
theorem witness_IllegalWordRefused : let s : State := { at_ .recording with cmds := [0x0A000000] }
    s.pass = none ∧ s.cmds = 0x0A000000 :: [] ∧ commandLength 0x0A000000 ≤ ([] : List CmdWord).length + 1
      ∧ IllegalWord 0x0A000000 := by
  exact ⟨rfl, rfl, by decide, by decide⟩
theorem witness_StepRunsTheCommand : let s : State := { at_ .recording with cmds := [0x03008318, 0x05000000] }
    (Instr.appd true 792).wellFormed = true ∧ s.pass = none ∧ encode (.appd true 792) = .command [0x03008318]
      ∧ s.cmds = [0x03008318] ++ [0x05000000] := by decide
theorem witness_StepRunsTheTokenWord : let s : State := { at_ .recording with pass := some (.emit [0x4080]) }
    s.pass = some (.emit [0x4080]) ∧ (Pass.emit [0x4080]).todo = [0x4080]
      ∧ decodeToken 0x4080 = .ok (.tokConst false 128)
      ∧ ({ s with pass := some (.emit []) } : State).pass = some (.emit []) ∧ (Pass.emit []).todo = [] := by decide
/-- Both clauses: no word, and a RECBLK command word with seven data words. -/
theorem witness_IdleWithoutACommand : (at_ .recording).pass = none ∧ (at_ .recording).cmds = []
    ∧ ({ at_ .recording with cmds := 0x02001F0C :: List.replicate 7 0 } : State).cmds
        = 0x02001F0C :: List.replicate 7 0
    ∧ opcodeOf 0x02001F0C = 0x02 ∧ (List.replicate 7 (0 : CmdWord)).length < 8 := by decide
theorem witness_PowerOnAdmitsOnlyInit : State.reset.IsPowerOn ∧ isCommand .clear = true
    ∧ Instr.clear.wellFormed = true ∧ ∀ psize, Instr.clear ≠ .init psize :=
  ⟨⟨_, rfl⟩, rfl, rfl, fun _ h => by cases h⟩
/-- Two states of a frame that differ in `OUT`, in an unused slot of `TOK`, in `EOP` and in the free values, and two
states before the first INIT that differ in registers too. -/
theorem witness_UnspecifiedValuesNeverMatter : (at_ .recording).PassInv ∧ (at_ .uninit).PassInv
    ∧ SameDefined (at_ .recording)
        { at_ .recording with
          out := [(0, 7)], tok := [(0, 7)], eop := { State.namedValues.eop with pos := 5 }, freeCount := 9 }
    ∧ SameDefined (at_ .uninit) { at_ .uninit with range := 3, pos := 9, npages := 2, sizeEst := 4, dirty := true } := by
  refine ⟨fun h => absurd rfl h, fun h => absurd rfl h, ⟨rfl, rfl, rfl, rfl, rfl, rfl, fun _ => ?_⟩,
    ⟨rfl, rfl, rfl, rfl, rfl, rfl, fun h => absurd rfl h⟩⟩
  refine ⟨rfl, rfl, rfl, rfl, rfl, rfl, ?_, rfl, rfl, rfl, rfl, rfl, rfl, ?_, rfl, rfl, ?_⟩
  · exact fun _ h => by cases h
  · exact fun k h => absurd h (Nat.not_lt_zero k)
  · rintro (h | h) <;> cases h
theorem witness_AdmissionTable : isCommand .finish = true ∧ Instr.finish.wellFormed = true
    ∧ (at_ .recording).phase ∉ admittingPhases .finish ∧ (at_ .emitted).phase ∈ admittingPhases .finish := by decide
theorem witness_PhaseTransitions : State.reset.IsPowerOn ∧ ∃ t, exec .clear (at_ .done) = .next t :=
  ⟨⟨_, rfl⟩, _, rfl⟩
theorem witness_RefusalChangesNothing :
    exec (.appd true 1056) (at_ .recording) = .refused (.illegalCommand (at_ .recording).markRefused)
    ∧ exec .finish (at_ .recording) = .refused (.phaseViolation (at_ .recording).markRefused)
    ∧ (∃ left, exec (.recblk 3 0 0 0 (coefs [1])) (at_ .recording) = .refused (.malformedBlock left))
    ∧ (∃ t, exec .clear (at_ .done) = .next t)
    ∧ ∃ x, exec (.tokDyn true 1056) (at_ .recording) = .fault x :=
  ⟨rfl, rfl, ⟨(at_ .recording).markRefused, by
    simp only [exec, execRecblk, refuseBlock]
    rw [if_pos (by rfl), if_neg (fun h => absurd rfl h.1)]⟩, ⟨_, rfl⟩, _, rfl⟩
/-- A state in which the next byte group leaves, and one in which it carries with no held byte. -/
def groupLeaves (v : BitVec 24) (held : BitVec 8) : State :=
  { at_ .recording with
    cfg := { cfg with outCapacity := 0 }, range := 127, value := v, nbBits := 0, held := held
    pass := some (.emit []) }
theorem witness_FaultSetsTheMark :
    (∃ left, exec (.tokConst false 128) (groupLeaves 0x0100 0x10) = .fault (.outOverflow left))
    ∧ (∃ left, exec (.tally true 0) { at_ .recording with tally := Vector.replicate 1056 0xFFFEFFFF }
        = .fault (.tallyCountOverflow left))
    ∧ (∃ left, exec (.tokConst false 128) (groupLeaves 0x010000 0xFF) = .fault (.carryNoHeld left))
    ∧ (∃ t, exec .clear (at_ .done) = .next t)
    ∧ ∃ x, step { groupLeaves 0x0100 0x10 with pass := some (.emit [0x4080, 0xC080]) } = .fault x :=
  ⟨⟨_, rfl⟩, ⟨_, rfl⟩, ⟨_, rfl⟩, ⟨_, rfl⟩, _, rfl⟩
/-- A token word that stops at the capacity, and completes with one byte more of it. -/
theorem witness_OutOverflowKeepsWhatWasWritten : let s := groupLeaves 0x0100 0x10
    (∃ left, exec (.tokConst false 128) s = .fault (.outOverflow left))
    ∧ (∃ t, exec (.tokConst false 128) { s with cfg := { s.cfg with outCapacity := 1 } } = .next t)
    ∧ s.pos ≤ s.cfg.outCapacity ∧ s.pass = some (.emit []) ∧ s.CoderInv ∧ s.phase ≠ .done
    ∧ (∃ left, exec (.tokDyn false 0) s = .fault (.outOverflow left)) ∧ (0 : Slot).val = (0 : BitVec 14).toNat :=
  ⟨⟨_, rfl⟩, completes_of (by decide +kernel), by decide, rfl,
    ⟨by decide, by decide, fun h => absurd h (by decide), by decide, by decide, by decide, fun h => absurd h (by decide),
      fun _ => by decide, fun _ h => absurd h (by decide)⟩, by decide, ⟨_, rfl⟩, rfl⟩
theorem witness_OnlyTheWritersWrite : (∃ t, exec .clear (at_ .done) = .next t) ∧ writes .tally .clear = false :=
  ⟨⟨_, rfl⟩, rfl⟩
theorem witness_OutputBelowPosIsFinal : (∃ t, exec .clear (at_ .done) = .next t) ∧ ∀ psize, Instr.clear ≠ .init psize :=
  ⟨⟨_, rfl⟩, fun _ h => by cases h⟩
theorem witness_AllocationErrorIsSticky : (∃ t, exec (.appc true 1) (at_ .recording).setTbError = .next t)
    ∧ (at_ .recording).setTbError.tbError = true ∧ (∀ psize, Instr.appc true 1 ≠ .init psize)
    ∧ Instr.appc true 1 ≠ .clear ∧ Instr.appc true 1 ≠ .emit :=
  ⟨⟨_, rfl⟩, rfl, (fun _ h => by cases h), by decide, by decide⟩
/-- Outside the contract at a bound (level 2048), inside it at the bound (2047), and a coefficient below `first`. -/
theorem witness_BlockContractChecked : (at_ .recording).phase = .recording
    ∧ ¬BlockContract 0 0 0 (fun i => (coefs [2048])[i].toInt)
    ∧ BlockContract 2 1 15 (fun i => (coefs [0, -2047, 0, 0, 0, 0, 0, 0, 0, 0, 0, 0, 0, 0, 0, 2047])[i].toInt)
    ∧ ∀ i : Fin 16, 1 ≤ i.val → (coefs [9, 3])[i] = (coefs [0, 3])[i] := by
  refine ⟨rfl, fun h => absurd (h.2.2.2.2.2 0 (by decide)) (by decide +kernel), by decide +kernel, by decide +kernel⟩
theorem witness_AllZeroBlock : (at_ .recording).phase = .recording ∧ (-1 : BitVec 5).toInt = -1
    ∧ BlockContract 2 1 (-1) (fun i => (coefs [7])[i].toInt)
    ∧ (847 : Slot).val = 11 * (2 + 3 * (1 + 8 * 3)) := by
  refine ⟨rfl, by decide, ?_, by decide⟩
  decide +kernel
/-- The tokens of a block with one coefficient 1, and no tally near the limit (40_token_encoder.md R88, example). -/
theorem witness_RecblkResult : BlockContract 0 0 0 (fun i => (coefs [1])[i].toInt)
    ∧ blockTokens 0 3 0 0 (fun n => ((coefs [1])[n]?.getD 0).toInt)
        = [.dyn true 792, .dyn true 793, .dyn false 794, .const false 128, .dyn false 836]
    ∧ (at_ .recording).phase = .recording
    ∧ ∀ n, ¬(at_ .recording).OverflowsAt
        [.dyn true 792, .dyn true 793, .dyn false 794, .const false 128, .dyn false 836] n := by
  refine ⟨by decide +kernel, by decide +kernel, rfl, ?_⟩
  rintro n ⟨bit, i, hd, ho⟩
  have he : (at_ .recording).entryAt i = (0, 0) := by
    simp only [State.entryAt, at_tallyAt]
    decide
  rw [he] at ho
  have hn : n < 5 := by
    by_contra h
    rw [List.getElem?_eq_none (by simp only [List.length_cons, List.length_nil]; omega)] at hd
    cases hd
  interval_cases n <;> simp at hd
  all_goals obtain ⟨-, rfl⟩ := hd; revert ho; decide +kernel
/-- 95_test_vectors.md V63: the first decision of the block overflows. -/
theorem witness_RecblkOverflow : let s : State := { at_ .recording with tally := Vector.replicate 1056 0xFFFEFFFF }
    s.phase = .recording ∧ BlockContract 0 0 0 (fun i => (coefs [1])[i].toInt)
    ∧ s.OverflowsAt (blockTokens 0 3 0 0 (fun n => ((coefs [1])[n]?.getD 0).toInt)) 0 :=
  ⟨rfl, by decide +kernel, true, 792, by decide +kernel, by decide +kernel⟩
/-- An all-zero block and a block of sixteen coefficients. -/
theorem witness_BlockTokenCount : BlockContract 0 0 (-1) (fun i => (coefs [])[i].toInt)
    ∧ BlockContract 0 0 15 (fun i => (tableOf fun _ : Fin 16 => (2047 : Coef))[i].toInt) := by
  decide +kernel
/-- No coefficient, the last one at position 14, and the last one at position 15. -/
theorem witness_BlockEnd : BlockContract 0 0 (-1) (fun i => (coefs [])[i].toInt) ∧ (-1 : BitVec 5).toInt = -1
    ∧ BlockContract 0 0 14 (fun i => (coefs [0, 0, 0, 0, 0, 0, 0, 0, 0, 0, 0, 0, 0, 0, 1])[i].toInt)
    ∧ (14 : BitVec 5).toInt = ((14 : Nat) : Int)
    ∧ [0, 1, 2, 3, 6, 4, 5, 6, 6, 6, 6, 6, 6, 6, 6, 7, 0][14 + 1]? = some 7
    ∧ BlockContract 0 0 15 (fun i => (coefs [0, 0, 0, 0, 0, 0, 0, 0, 0, 0, 0, 0, 0, 0, 0, 1])[i].toInt)
    ∧ (15 : BitVec 5).toInt = 15 :=
  ⟨by decide +kernel, by decide, by decide +kernel, by decide, rfl, by decide +kernel, by decide⟩
theorem witness_BlockIsLossless : BlockContract 0 1 1 (fun i => (coefs [5, -3])[i].toInt)
    ∧ BlockContract 0 1 1 (fun i => (coefs [6, -3])[i].toInt)
    ∧ (blockDecisions 0 0 1 1 (coefs [5, -3])).map Decision.word
        = (blockDecisions 0 0 1 1 (coefs [6, -3])).map Decision.word := by
  decide +kernel
/-- The three clauses at the bound of the slot. -/
theorem witness_AppdResult : 1056 ≤ (1056 : BitVec 14).toNat ∧ (1055 : BitVec 14).toNat < 1056
    ∧ (at_ .finalized).phase ≠ .recording ∧ (at_ .recording).phase = .recording := by decide
theorem witness_AppcResult : (at_ .finalized).phase ≠ .recording ∧ (at_ .recording).phase = .recording := by decide
theorem witness_ClearResult : (at_ .uninit).phase = .uninit ∧ (at_ .done).phase ≠ .uninit := by decide
theorem witness_AppendsAreTraversedInOrder : (at_ .recording).phase = .recording ∧ (at_ .recording).BufferInv
    ∧ (at_ .recording).tokseq = []
    ∧ (∀ i ∈ [Instr.appd true 1055, Instr.appc false 0], i.wellFormed = true)
    ∧ [Instr.appd true 1055, Instr.appc false 0].mapM appendedWord = some [dynWord true 1055, constWord false 0]
    ∧ (at_ .recording).HasRoomFor [Instr.appd true 1055, Instr.appc false 0].length :=
  ⟨rfl, at_bufferInv _, rfl, by decide, by decide, rfl, by decide⟩
theorem witness_TokenLayout : (at_ .recording).BufferInv ∧ (at_ .recording).tokseq = [] := ⟨at_bufferInv _, rfl⟩
/-- The clauses of TALLY: the slot at its bound, the phase, an entry that overflows and one that does not. -/
theorem witness_TallyResult : 1056 ≤ (1056 : BitVec 14).toNat ∧ (1055 : Slot).val = (1055 : BitVec 14).toNat
    ∧ (at_ .finalized).phase ≠ .recording ∧ (at_ .recording).phase = .recording
    ∧ tallyCount 0xFFFEFFFF = 65535 ∧ tallyTotal 0xFFFEFFFF = 65534 ∧ tallyCount 0xFFFFFFFF = 65535 := by decide
theorem witness_TallyFaultsOnlyThere : (at_ .recording).phase = .recording ∧ (at_ .recording).TallyInv
    ∧ (0 : Slot).val = (0 : BitVec 14).toNat := ⟨rfl, at_tallyInv _, rfl⟩
theorem witness_HalvingLaw : (at_ .recording).phase = .recording ∧ (792 : Slot).val = (792 : BitVec 14).toNat
    ∧ (at_ .recording).tallyAt 792 = 0 := ⟨rfl, rfl, at_tallyAt _ _⟩
theorem witness_FinalizeResult : (at_ .recording).phase = .recording ∧ (at_ .recording).TallyInv
    ∧ tallyCount ((at_ .recording).tallyAt 0) = 0 ∧ (((255 : Prob).toNat : Int) = if 0 = 0 then 255 else 0) :=
  ⟨rfl, at_tallyInv _, by rw [at_tallyAt]; decide, rfl⟩
/-- Both cases of the invariant, the second at its bound. -/
theorem witness_MeasuredProbability : TallyEntryInv (tallyWord 100 30) ∧ TallyEntryInv (tallyWord 32768 32769) :=
  ⟨.inl (by decide), .inr (by decide)⟩
theorem witness_ZeroTalliesKeepDefaults : (at_ .recording).phase = .recording
    ∧ ∀ i : Slot, (at_ .recording).tallyAt i = 0 := ⟨rfl, at_tallyAt _⟩
theorem witness_SplitFacts : 127 ≤ 127 ∧ 254 ≤ 254 := by decide
/-- A traversal of each kind, the coder's invariants, and both ways to have room: no group leaves, or it fits. -/
theorem witness_TokConstResult : let s : State := { at_ .recording with pass := some (.emit []) }
    s.pass = some (.emit []) ∧ s.CoderInv ∧ s.phase ≠ .done
    ∧ s.nbBits.toInt + clz8 (newRange true s.range.toNat (splitOf s.range.toNat 128)) ≤ 0
    ∧ s.pos + s.run + 1 ≤ s.cfg.outCapacity
    ∧ ({ s with pass := some (.estimate [] 5) } : State).pass = some (.estimate [] 5) := by
  refine ⟨rfl, ?_, by decide, by decide, by decide, rfl⟩
  have h := at_coderInv .recording
  exact ⟨h.1, h.2, h.3, h.4, h.5, h.6, h.7, h.8, h.9⟩
theorem witness_TokDynResult : (1055 : Slot).val = (1055 : BitVec 14).toNat
    ∧ ({ at_ .recording with pass := some (.emit []) } : State).pass = some (.emit [])
    ∧ (at_ .recording).CoderInv ∧ (at_ .recording).phase ≠ .done
    ∧ (at_ .recording).pos + (at_ .recording).run + 1 ≤ (at_ .recording).cfg.outCapacity :=
  ⟨rfl, rfl, at_coderInv _, by decide, by decide⟩
theorem witness_TokenWordStops : 1056 ≤ (1056 : BitVec 14).toNat ∧ (1055 : BitVec 14).toNat < 1056
    ∧ (at_ .recording).pass = none := by decide
theorem witness_TokenMovesTheLowEnd : let s : State := { at_ .recording with pass := some (.emit []) }
    s.pass = some (.emit []) ∧ s.CoderInv ∧ s.phase ≠ .done ∧ ∃ t, exec (.tokConst true 128) s = .next t :=
  ⟨rfl, ⟨by decide, by decide, fun _ => by decide, by decide, by decide, by decide, fun _ => rfl, fun _ => by decide,
    fun _ _ => by decide⟩, by decide, completes_of (by decide)⟩
/-- At the capacity and below it. -/
theorem witness_WriteByteResult : ({ at_ .emitted with pos := 64 } : State).cfg.outCapacity ≤ 64
    ∧ ({ at_ .emitted with pos := 63 } : State).pos < (at_ .emitted).cfg.outCapacity := by decide
theorem witness_CarryAlwaysFindsAHeldByte : (at_ .emitted).CoderInv ∧ (at_ .emitted).phase ≠ .done :=
  ⟨at_coderInv _, by decide⟩
theorem witness_CommandsFaultOnlyAsListed : isCommand .finish = true
    ∧ ({ at_ .emitted with cfg := { cfg with outCapacity := 0 } } : State).CoderInv
    ∧ ({ at_ .emitted with cfg := { cfg with outCapacity := 0 } } : State).BufferInv
    ∧ ∃ x, exec .finish { at_ .emitted with cfg := { cfg with outCapacity := 0 } } = .fault x := by
  have h := at_coderInv .emitted
  have h' := at_bufferInv .emitted
  exact ⟨rfl, ⟨h.1, h.2, h.3, h.4, h.5, h.6, h.7, h.8, h.9⟩, ⟨h'.1, h'.2, h'.3, h'.4, h'.5, h'.6, h'.7⟩, _, rfl⟩
/-- A buffer of two tokens, each resolved. -/
theorem witness_EstimateResult : let s : State := holding [0x4080, 0xC080] (at_ .recording)
    s.pass = none ∧ s.phase = .recording ∧ s.tokseq = [0x4080, 0xC080]
    ∧ s.tokseq.mapM s.resolve = some [(false, 128), (true, 128)]
    ∧ (at_ .emitted).phase ≠ .recording ∧ (at_ .emitted).phase ≠ .finalized := by decide +kernel
theorem witness_EmitResult : let s : State := holding [0x4080, 0xC080] (at_ .finalized)
    s.phase = .finalized ∧ s.pass = none ∧ s.CoderInv ∧ s.tokseq = [0x4080, 0xC080]
    ∧ s.tokseq.mapM s.resolve = some [(false, 128), (true, 128)]
    ∧ s.pos + s.run + 1 + (s.bitCount + 7 * 2) / 8 ≤ s.cfg.outCapacity := by
  have h := at_coderInv .finalized
  exact ⟨rfl, rfl, ⟨h.1, h.2, h.3, h.4, h.5, h.6, h.7, h.8, h.9⟩, by decide +kernel, by decide +kernel, by decide⟩
theorem witness_TraversalIsItsTokenSteps : (holding [0x4080, 0xC080] (at_ .recording)).phase = .recording
    ∧ (holding [0x4080, 0xC080] (at_ .recording)).tokseq = [0x4080, 0xC080] := by decide +kernel
/-- An empty stream, and one with a bit coded. -/
theorem witness_FinishResult : (at_ .emitted).phase = .emitted ∧ (at_ .emitted).CoderInv
    ∧ (at_ .emitted).pos + (at_ .emitted).run + 0 + 2 ≤ (at_ .emitted).cfg.outCapacity
    ∧ ({ at_ .emitted with range := 127 } : State).CoderInv :=
  ⟨rfl, at_coderInv _, by decide, by decide, by decide, fun h => absurd h (by decide), by decide, by decide, by decide,
    fun _ => rfl, fun _ => by decide, fun _ _ => by decide⟩
theorem witness_OutputBound : let s : State := holding [0x4080, 0xC080] (at_ .recording)
    s.phase = .recording ∧ s.pass = none ∧ s.range = 254 ∧ s.value = 0 ∧ s.nbBits.toInt = -8 ∧ s.run = 0 ∧ s.pos = 0
    ∧ s.held = 0xFF ∧ s.tokseq = [0x4080, 0xC080]
    ∧ s.tokseq.mapM s.resolve = some [(false, 128), (true, 128)] ∧ 7 * 2 / 8 + 3 ≤ s.cfg.outCapacity := by
  decide +kernel
/-- A frame of two tokens emitted and closed, for the two statements about the whole partition. -/
theorem witness_PartitionIsTheLowEnd : ∃ t u, exec .emit (holding [0x4080, 0xC080] (at_ .recording)) = .next t
    ∧ exec .finish t = .next u := by
  have h1 : (nextOf (exec .emit (holding [0x4080, 0xC080] (at_ .recording)))).isSome = true := by decide +kernel
  have h2 : ((nextOf (exec .emit (holding [0x4080, 0xC080] (at_ .recording)))).bind
      fun t => nextOf (exec .finish t)).isSome = true := by decide +kernel
  obtain ⟨t, ht⟩ := completes_of h1
  rw [ht] at h2
  obtain ⟨u, hu⟩ := completes_of (r := exec .finish t) h2
  exact ⟨t, u, ht, hu⟩
theorem witness_PartitionDecodesToTheTokens : let s : State := holding [0x4080, 0xC080] (at_ .recording)
    s.pass = none ∧ s.range = 254 ∧ s.value = 0 ∧ s.nbBits.toInt = -8 ∧ s.run = 0 ∧ s.pos = 0 ∧ s.held = 0xFF
    ∧ s.tokseq = [0x4080, 0xC080] ∧ s.tokseq.mapM s.resolve = some [(false, 128), (true, 128)]
    ∧ ∃ t u, exec .emit s = .next t ∧ exec .finish t = .next u :=
  ⟨rfl, rfl, rfl, by decide, rfl, rfl, rfl, by decide +kernel, by decide +kernel, witness_PartitionIsTheLowEnd⟩
theorem witness_StepKeepsCoderInvariants : (at_ .recording).CoderInv ∧ (at_ .recording).PassInv
    ∧ ∃ t, step (at_ .recording) = .next t := ⟨at_coderInv _, fun h => absurd rfl h, _, rfl⟩
theorem witness_StepKeepsBufferInvariants : (at_ .recording).BufferInv ∧ ∃ t, step (at_ .recording) = .next t :=
  ⟨at_bufferInv _, _, rfl⟩
theorem witness_StepKeepsTallyInvariant : (at_ .recording).TallyInv ∧ ∃ t, step (at_ .recording) = .next t :=
  ⟨at_tallyInv _, _, rfl⟩
theorem witness_StepKeepsTableInvariants : (at_ .uninit).TableInv ∧ (at_ .uninit).PassInv
    ∧ ∃ t, step (at_ .uninit) = .next t :=
  ⟨⟨(fun h => by cases h), fun h => absurd rfl h⟩, fun h => absurd rfl h, _, rfl⟩
theorem witness_StepKeepsMemoryInvariants : (at_ .recording).OutInv ∧ (at_ .recording).MemoryWf
    ∧ ∃ t, step (at_ .recording) = .next t := ⟨at_outInv _, at_memoryWf _, _, rfl⟩
theorem witness_InvariantsHoldAtResetAndAfterInit : ∃ t, exec (.init 0) (at_ .done) = .next t := ⟨_, rfl⟩

end Sys2Proof.Tests
end

/-! ### The effects of an instruction

One inversion of `exec` for every claim of this family: a completed instruction is a chain of effects, each an update of
the spec's micro-operations with what is known where it happens. Frames and invariants are proved effect by effect. -/

namespace Sys2Proof.Machine

/-- The state a frame starts in (45_frame_control.md R165). -/
def startFrame (psize : BitVec 24) (s : State) : State :=
  State.writeDirty false (State.clearTbError (releasePages
    { s with
      range := 254, value := 0, nbBits := -8, run := 0, pos := 0, held := 0xFF
      pageSize := max psize.toNat 8192
      tally := Vector.replicate 1056 0, pw := s.cfg.p0
      sizeEst := 0, phase := .recording }))

/-- The state after the probabilities are chosen (43_finalizer.md R122). -/
def finalizeTable (s : State) : State :=
  State.writeDirty (anyIndex fun i : Slot => slotDirty s.cfg i (s.tallyAt i))
    { s with pw := tableOf fun i => finalProb s.cfg i (s.tallyAt i), phase := .finalized }

/-- One effect of an instruction on the state. What an effect may write is bound to the instruction through `writes`,
the table of 10_state.md R11 to R33. -/
inductive Effect : Instr → State → State → Prop
  /-- INIT as a whole. -/
  | start (psize : BitVec 24) (s : State) : Effect (.init psize) s (startFrame psize s)
  /-- `TBAPPEND` of a legal token word. -/
  | append {i : Instr} {s : State} {w : TokWord} (htok : writes .tokens i = true) (herr : writes .tbError i = true)
      (hw : LegalToken w) : Effect i s (tbAppend w s)
  /-- `RECORD` of one decision. -/
  | tallied {i : Instr} {s t : State} {j : Slot} {bit : Bool} (htally : writes .tally i = true)
      (h : record j bit s = .next t) : Effect i s t
  /-- FINALIZE as a whole. -/
  | finalize {s : State} (hp : s.phase = .recording) : Effect .finalize s (finalizeTable s)
  /-- The traversal opened where the phase admits it, or its cursor moved. -/
  | cursor (i : Instr) {s : State} (p : Pass)
      (h : s.pass ≠ none ∨ s.phase = .recording ∨ s.phase = .finalized) : Effect i s { s with pass := some p }
  /-- `PUTBIT` of one token word, within EMIT. -/
  | coded {i : Instr} {s t : State} {bit : Bool} {prob : Prob} {todo : List TokWord} (hcod : writes .coder i = true)
      (hout : writes .output i = true) (hpass : s.pass = some (.emit todo)) (h : putBit bit prob s = .next t) :
      Effect i s t
  /-- The end of EMIT. -/
  | closeEmit {s : State} {todo : List TokWord} (hpass : s.pass = some (.emit todo)) : Effect .emit s (closeEmit s)
  /-- The end of ESTIMATE. -/
  | closeEstimate {s : State} {todo : List TokWord} {acc : Nat} (hpass : s.pass = some (.estimate todo acc)) :
      Effect .estimate s (closeEstimate acc s)
  /-- FINISH as a whole. -/
  | finish {s s1 s2 s3 : State} (hp : s.phase = .emitted) (hpad : padBits (9 - s.nbBits.toInt).toNat s = .next s1)
      (hext : forceExtract s1 = .next s2) (hflush : flushPending s2 = .next s3) : Effect .finish s (closeStream s3)
  /-- CLEAR as a whole. -/
  | clear (s : State) : Effect .clear s (State.clearTbError (releasePages s))

/-- Effects of one instruction, one after another. -/
abbrev Effects (i : Instr) : State → State → Prop := Relation.ReflTransGen (Effect i)

/-- What every effect keeps, a chain of effects keeps. -/
theorem Effects.preserve {P : State → Prop} {i : Instr} {s t : State} (h : Effects i s t)
    (hstep : ∀ u v, Effect i u v → P u → P v) (hs : P s) : P t := by
  induction h with
  | refl => exact hs
  | tail _ huv ih => exact hstep _ _ huv ih

/-! ### The states INIT and FINALIZE leave -/

theorem execInit_eq (psize : BitVec 24) (s : State) : execInit psize s = .next (startFrame psize s) := rfl

theorem execFinalize_eq (s : State) :
    execFinalize s = if s.phase = .recording then .next (finalizeTable s) else refusePhase s := rfl

@[simp] theorem finalizeTable_cfg (s : State) : (finalizeTable s).cfg = s.cfg := by
  rw [finalizeTable, writeDirty_cfg]
@[simp] theorem finalizeTable_range (s : State) : (finalizeTable s).range = s.range := by
  rw [finalizeTable, writeDirty_range]
@[simp] theorem finalizeTable_value (s : State) : (finalizeTable s).value = s.value := by
  rw [finalizeTable, writeDirty_value]
@[simp] theorem finalizeTable_nbBits (s : State) : (finalizeTable s).nbBits = s.nbBits := by
  rw [finalizeTable, writeDirty_nbBits]
@[simp] theorem finalizeTable_run (s : State) : (finalizeTable s).run = s.run := by
  rw [finalizeTable, writeDirty_run]
@[simp] theorem finalizeTable_held (s : State) : (finalizeTable s).held = s.held := by
  rw [finalizeTable, writeDirty_held]
@[simp] theorem finalizeTable_tbError (s : State) : (finalizeTable s).tbError = s.tbError := by
  rw [finalizeTable, writeDirty_tbError]
@[simp] theorem finalizeTable_tally (s : State) : (finalizeTable s).tally = s.tally := by
  rw [finalizeTable, writeDirty_tally]
@[simp] theorem finalizeTable_sizeEst (s : State) : (finalizeTable s).sizeEst = s.sizeEst := by
  rw [finalizeTable, writeDirty_sizeEst]
@[simp] theorem finalizeTable_eop (s : State) : (finalizeTable s).eop = s.eop := by
  rw [finalizeTable, writeDirty_eop]
@[simp] theorem finalizeTable_fault (s : State) : (finalizeTable s).fault = s.fault := by
  rw [finalizeTable, writeDirty_fault]
@[simp] theorem finalizeTable_refused (s : State) : (finalizeTable s).refused = s.refused := by
  rw [finalizeTable, writeDirty_refused]
@[simp] theorem finalizeTable_cmds (s : State) : (finalizeTable s).cmds = s.cmds := by
  rw [finalizeTable, writeDirty_cmds]
@[simp] theorem finalizeTable_pos (s : State) : (finalizeTable s).pos = s.pos := by
  rw [finalizeTable, writeDirty_pos]
@[simp] theorem finalizeTable_out (s : State) : (finalizeTable s).out = s.out := by
  rw [finalizeTable, writeDirty_out]
@[simp] theorem finalizeTable_tok (s : State) : (finalizeTable s).tok = s.tok := by
  rw [finalizeTable, writeDirty_tok]
@[simp] theorem finalizeTable_npages (s : State) : (finalizeTable s).npages = s.npages := by
  rw [finalizeTable, writeDirty_npages]
@[simp] theorem finalizeTable_left (s : State) : (finalizeTable s).left = s.left := by
  rw [finalizeTable, writeDirty_left]
@[simp] theorem finalizeTable_pageSize (s : State) : (finalizeTable s).pageSize = s.pageSize := by
  rw [finalizeTable, writeDirty_pageSize]
@[simp] theorem finalizeTable_phase (s : State) : (finalizeTable s).phase = .finalized := by
  rw [finalizeTable, writeDirty_phase]
@[simp] theorem finalizeTable_pass (s : State) : (finalizeTable s).pass = s.pass := by
  rw [finalizeTable, writeDirty_pass]
@[simp] theorem finalizeTable_freeCount (s : State) : (finalizeTable s).freeCount = s.freeCount := by
  rw [finalizeTable, writeDirty_freeCount]
@[simp] theorem finalizeTable_pw (s : State) :
    (finalizeTable s).pw = tableOf fun i => finalProb s.cfg i (s.tallyAt i) := by
  rw [finalizeTable, writeDirty_pw]
@[simp] theorem finalizeTable_dirty (s : State) :
    (finalizeTable s).dirty = anyIndex fun i : Slot => slotDirty s.cfg i (s.tallyAt i) := by
  rw [finalizeTable, writeDirty_dirty]

/-! ### What coding keeps, field by field -/

namespace CoderFrame

variable {s t : State}

theorem cfg (h : CoderFrame s t) : t.cfg = s.cfg := by rw [h.1]
theorem tok (h : CoderFrame s t) : t.tok = s.tok := by rw [h.1]
theorem npages (h : CoderFrame s t) : t.npages = s.npages := by rw [h.1]
theorem left (h : CoderFrame s t) : t.left = s.left := by rw [h.1]
theorem pageSize (h : CoderFrame s t) : t.pageSize = s.pageSize := by rw [h.1]
theorem pw (h : CoderFrame s t) : t.pw = s.pw := by rw [h.1]
theorem dirty (h : CoderFrame s t) : t.dirty = s.dirty := by rw [h.1]
theorem phase (h : CoderFrame s t) : t.phase = s.phase := by rw [h.1]
theorem pass (h : CoderFrame s t) : t.pass = s.pass := by rw [h.1]
theorem tbError (h : CoderFrame s t) : t.tbError = s.tbError := by rw [h.1]

end CoderFrame

/-! ### The inversion of `exec` -/

/-- A token word is coded within EMIT, or costed within ESTIMATE. -/
theorem runBit_eq_next {bit : Bool} {prob : Prob} {s t : State} (h : runBit bit prob s = .next t) :
    (∃ todo, s.pass = some (.emit todo) ∧ putBit bit prob s = .next t) ∨
    ∃ todo acc acc', s.pass = some (.estimate todo acc) ∧ t = { s with pass := some (.estimate todo acc') } := by
  unfold runBit at h
  split at h
  next todo hp => exact .inl ⟨todo, hp, endOnFault_eq_next.mp h⟩
  next todo acc hp => cases h; exact .inr ⟨todo, acc, _, hp, rfl⟩
  next => cases h

theorem execTokDyn_eq_next {bit : Bool} {slot : BitVec 14} {s t : State} (h : execTokDyn bit slot s = .next t) :
    ∃ j : Slot, runBit bit (s.pwAt j) s = .next t := by
  unfold execTokDyn at h
  split at h
  next => cases h
  next j _ => exact ⟨j, h⟩

/-- A token word that completes resolved to a bit and a probability. -/
theorem runToken_eq_next {w : TokWord} {s t : State} (h : runToken w s = .next t) :
    ∃ bit prob, runBit bit prob s = .next t := by
  rcases runToken_eq_fault_or w s with ⟨bit, slot, -, e⟩ | ⟨bit, prob, -, e⟩ | e
  · obtain ⟨j, hj⟩ := execTokDyn_eq_next (e ▸ h)
    exact ⟨bit, _, hj⟩
  · exact ⟨bit, prob, e.symm.trans h⟩
  · rw [e] at h; cases h

theorem runBit_effect {i : Instr} {bit : Bool} {prob : Prob} {s t : State} (hcod : writes .coder i = true)
    (hout : writes .output i = true) (h : runBit bit prob s = .next t) : Effect i s t := by
  rcases runBit_eq_next h with ⟨todo, hp, hb⟩ | ⟨todo, acc, acc', hp, rfl⟩
  · exact .coded hcod hout hp hb
  · exact .cursor i _ (.inl (by simp [hp]))

/-- The command whose traversal this is. -/
def Pass.command : Pass → Instr
  | .emit _ => .emit
  | .estimate _ _ => .estimate

@[simp] theorem Pass.command_withTodo (todo : List TokWord) (p : Pass) : (p.withTodo todo).command = p.command := by
  cases p <;> rfl

theorem advance_of_pass {s : State} {p : Pass} (hp : s.pass = some p) (ts : List TokWord) :
    s.advance ts = { s with pass := some (p.withTodo ts) } := by
  simp [State.advance, hp]

/-- A token word of a traversal is an effect of the traversal's command,
which it leaves open. -/
theorem runToken_effect {w : TokWord} {s t : State} {p : Pass} (hp : s.pass = some p) (h : runToken w s = .next t) :
    Effect p.command s t ∧ ∃ p', t.pass = some p' ∧ p'.command = p.command := by
  obtain ⟨bit, prob, hb⟩ := runToken_eq_next h
  rcases runBit_eq_next hb with ⟨todo, he, hb⟩ | ⟨todo, acc, acc', he, rfl⟩
  · obtain rfl : p = .emit todo := Option.some.inj (hp.symm.trans he)
    have hpass : t.pass = s.pass := (putBit_frame hb).pass
    exact ⟨.coded rfl rfl he hb, _, hpass.trans he, rfl⟩
  · obtain rfl : p = .estimate todo acc := Option.some.inj (hp.symm.trans he)
    exact ⟨.cursor _ _ (.inl (by simp [he])), _, rfl, rfl⟩

theorem closePass_effect {s : State} {p : Pass} (hp : s.pass = some p) : Effect p.command s (closePass s) := by
  cases p with
  | emit todo => simp only [closePass, hp]; exact .closeEmit hp
  | estimate todo acc => simp only [closePass, hp]; exact .closeEstimate hp

theorem runTokens_effects {ts : List TokWord} {s t : State} {p : Pass} (hp : s.pass = some p)
    (h : runTokens ts s = .next t) : Effects p.command s t := by
  induction ts generalizing s p with
  | nil => cases h; exact .single (closePass_effect hp)
  | cons w ts ih =>
    obtain ⟨u, hu, ht⟩ := andThen_eq_next.mp h
    rw [advance_of_pass hp] at hu
    obtain ⟨he, p', hp', hc⟩ := runToken_effect rfl hu
    rw [Pass.command_withTodo] at he hc
    have hrest : Effects p.command u t := hc ▸ ih hp' ht
    exact .head (.cursor _ _ (.inl (by simp [hp]))) (.head he hrest)

/-- A whole traversal, opened in a phase that admits it. -/
theorem traverse_effects {kind : List TokWord → Pass} {s t : State}
    (hp : s.phase = .recording ∨ s.phase = .finalized) (h : traverse kind s = .next t) :
    Effects (kind s.tokseq).command s t :=
  .head (.cursor _ _ (.inr hp)) (runTokens_effects rfl h)

/-! ### Token words are legal where they are appended -/

theorem bitField_dynWord (bit : Bool) (slot : BitVec 14) : bitField (dynWord bit slot) = bit := by
  rw [bitField, BitVec.getLsbD, toNat_dynWord, Nat.testBit_eq_decide_div_mod_eq]
  cases bit <;> simp <;> omega

theorem bitField_constWord (bit : Bool) (prob : Prob) : bitField (constWord bit prob) = bit := by
  rw [bitField, BitVec.getLsbD, toNat_constWord, Nat.testBit_eq_decide_div_mod_eq]
  cases bit <;> simp <;> omega

theorem slotField_dynWord (bit : Bool) (slot : BitVec 14) : slotField (dynWord bit slot) = slot := by
  apply BitVec.eq_of_toNat_eq
  simp only [slotField, BitVec.extractLsb'_toNat, toNat_dynWord]
  cases bit <;> simp <;> omega

theorem probField_constWord (bit : Bool) (prob : Prob) : probField (constWord bit prob) = prob := by
  apply BitVec.eq_of_toNat_eq
  simp only [probField, BitVec.extractLsb'_toNat, toNat_constWord]
  cases bit <;> simp <;> omega

/-- Bit 14 tells the two forms apart (30_encoding.md R61). -/
theorem getLsbD_dynWord (bit : Bool) (slot : BitVec 14) : (dynWord bit slot).getLsbD 14 = false := by
  rw [BitVec.getLsbD, toNat_dynWord, Nat.testBit_eq_decide_div_mod_eq]
  cases bit <;> simp <;> omega

theorem getLsbD_constWord (bit : Bool) (prob : Prob) : (constWord bit prob).getLsbD 14 = true := by
  rw [BitVec.getLsbD, toNat_constWord, Nat.testBit_eq_decide_div_mod_eq]
  cases bit <;> simp <;> omega

/-- Bits 13 to 8 of a constant token are zero (30_encoding.md R61). -/
theorem zeroField_constWord (bit : Bool) (prob : Prob) : (constWord bit prob).extractLsb' 8 6 = 0 := by
  apply BitVec.eq_of_toNat_eq
  simp only [BitVec.extractLsb'_toNat, toNat_constWord, Nat.shiftRight_eq_div_pow]
  cases bit <;> simp <;> omega

theorem decodeToken_dynWord {bit : Bool} {slot : BitVec 14} (h : slot.toNat < 1056) :
    decodeToken (dynWord bit slot) = .ok (.tokDyn bit slot) := by
  simp only [decodeToken, getLsbD_dynWord, slotField_dynWord, bitField_dynWord, h, Bool.false_eq_true, if_false,
    if_true]

theorem decodeToken_constWord (bit : Bool) (prob : Prob) :
    decodeToken (constWord bit prob) = .ok (.tokConst bit prob) := by
  simp only [decodeToken, getLsbD_constWord, zeroField_constWord, probField_constWord, bitField_constWord, if_true]

theorem legalToken_dynWord {bit : Bool} {slot : BitVec 14} {j : Slot} (h : slotOfField slot = some j) :
    LegalToken (dynWord bit slot) :=
  ⟨_, decodeToken_dynWord (by rw [slotOfField_eq_some.mp h]; exact j.isLt)⟩

theorem legalToken_constWord (bit : Bool) (prob : Prob) : LegalToken (constWord bit prob) :=
  ⟨_, decodeToken_constWord bit prob⟩

/-- Every token word a block appends is legal (40_token_encoder.md R97). -/
theorem Decision.legalToken_word (d : Decision) : LegalToken d.word := by
  cases d with
  | dyn bit j => exact legalToken_dynWord (slotOfField_fieldOfSlot j)
  | const bit prob => exact legalToken_constWord bit prob

/-! ### The inversion, command by command -/

theorem runDecision_effects {i : Instr} {d : Decision} {s t : State} (htok : writes .tokens i = true)
    (herr : writes .tbError i = true) (htally : writes .tally i = true) (h : runDecision d s = .next t) :
    Effects i s t := by
  cases d with
  | dyn bit j => exact .head (.append htok herr (Decision.legalToken_word _)) (.single (.tallied htally h))
  | const bit prob => cases h; exact .single (.append htok herr (Decision.legalToken_word _))

theorem runDecisions_effects {i : Instr} {ds : List Decision} {s t : State} (htok : writes .tokens i = true)
    (herr : writes .tbError i = true) (htally : writes .tally i = true) (h : runDecisions ds s = .next t) :
    Effects i s t := by
  induction ds generalizing s with
  | nil => cases h; exact .refl
  | cons d ds ih =>
    obtain ⟨u, hu, ht⟩ := andThen_eq_next.mp h
    exact (runDecision_effects htok herr htally hu).trans (ih ht)

/-- A check before an effect that passed: what a command that answers a next state has met. -/
theorem ite_refuse_eq_next {c : Prop} [Decidable c] {r q : Result} {t : State} (hq : q ≠ .next t)
    (h : (if c then r else q) = .next t) : c ∧ r = .next t := by
  by_cases hc : c
  · exact ⟨hc, by rwa [if_pos hc] at h⟩
  · rw [if_neg hc] at h; exact absurd h hq

/-- Everything a completed instruction does. -/
theorem exec_effects {i : Instr} {s t : State} (h : exec i s = .next t) : Effects i s t := by
  cases i with
  | init psize =>
    cases (execInit_eq psize s).symm.trans h
    exact .single (.start psize s)
  | recblk ctx ctype first last co =>
    obtain ⟨-, h⟩ := ite_refuse_eq_next (refusePhase_ne_next s t) h
    obtain ⟨-, h⟩ := ite_refuse_eq_next (refuseBlock_ne_next s t) h
    exact runDecisions_effects rfl rfl rfl h
  | appd bit slot =>
    simp only [exec, execAppd] at h
    split at h
    next => exact absurd h (refuseIllegal_ne_next s t)
    next j hj =>
      obtain ⟨-, h⟩ := ite_refuse_eq_next (refusePhase_ne_next s t) h
      cases h
      exact .single (.append rfl rfl (legalToken_dynWord hj))
  | appc bit prob =>
    obtain ⟨-, h⟩ := ite_refuse_eq_next (refusePhase_ne_next s t) h
    cases h
    exact .single (.append rfl rfl (legalToken_constWord bit prob))
  | tally bit slot =>
    simp only [exec, execTally] at h
    split at h
    next => exact absurd h (refuseIllegal_ne_next s t)
    next j hj =>
      obtain ⟨-, h⟩ := ite_refuse_eq_next (refusePhase_ne_next s t) h
      exact .single (.tallied rfl h)
  | finalize =>
    obtain ⟨hp, h⟩ := ite_refuse_eq_next (refusePhase_ne_next s t) ((execFinalize_eq s).symm.trans h)
    cases h
    exact .single (.finalize hp)
  | estimate =>
    obtain ⟨hp, h⟩ := ite_refuse_eq_next (refusePhase_ne_next s t) h
    exact traverse_effects hp h
  | emit =>
    obtain ⟨hp, h⟩ := ite_refuse_eq_next (refusePhase_ne_next s t) h
    exact traverse_effects hp h
  | finish =>
    obtain ⟨hp, h⟩ := ite_refuse_eq_next (refusePhase_ne_next s t) h
    obtain ⟨s1, h1, h⟩ := andThen_eq_next.mp h
    obtain ⟨s2, h2, h⟩ := andThen_eq_next.mp h
    obtain ⟨s3, h3, h⟩ := andThen_eq_next.mp h
    cases h
    exact .single (.finish hp h1 h2 h3)
  | clear =>
    simp only [exec, execClear] at h
    split at h
    · exact absurd h (refusePhase_ne_next s t)
    · cases h
      exact .single (.clear s)
  | tokDyn bit slot =>
    obtain ⟨j, hj⟩ := execTokDyn_eq_next h
    exact .single (runBit_effect rfl rfl hj)
  | tokConst bit prob => exact .single (runBit_effect rfl rfl h)

/-- Everything a step does: some command words are taken, and then the effects of one instruction follow. -/
theorem step_effects {s t : State} (h : step s = .next t) :
    ∃ (i : Instr) (cmds : List CmdWord), Effects i { s with cmds := cmds } t := by
  unfold step at h
  split at h
  next =>
    unfold stepCommand at h
    split at h
    next => cases h; exact ⟨.clear, s.cmds, .refl⟩
    next => exact absurd h (refuseIllegal_ne_next _ t)
    next i rest _ => exact ⟨i, rest, exec_effects h⟩
  next p hp =>
    unfold stepPass at h
    split at h
    next => cases h; exact ⟨_, s.cmds, .single (closePass_effect hp)⟩
    next w ts _ =>
      split at h
      next i _ =>
        rw [advance_of_pass hp] at h
        exact ⟨i, s.cmds, .head (.cursor i _ (.inl (by simp [hp]))) (exec_effects h)⟩
      next => cases h

/-- What taking command words and every effect keep, a step keeps. -/
theorem step_preserves {P : State → Prop} (hcmds : ∀ (s : State) (cmds : List CmdWord), P s → P { s with cmds := cmds })
    (heff : ∀ (i : Instr) (s t : State), Effect i s t → P s → P t) {s t : State} (h : step s = .next t) (hs : P s) :
    P t := by
  obtain ⟨i, cmds, he⟩ := step_effects h
  exact he.preserve (heff i) (hcmds s cmds hs)

end Sys2Proof.Machine

/-! ### What each effect leaves unchanged (10_state.md R11 to R33) -/

namespace Sys2Proof.Machine

theorem SamePiece.refl (q : Piece) (s : State) : SamePiece q s s := by
  cases q <;> simp [SamePiece]

theorem SamePiece.trans {q : Piece} {s t u : State} (h : SamePiece q s t) (h' : SamePiece q t u) : SamePiece q s u := by
  cases q <;> simp_all [SamePiece]

/-- An append writes the token buffer and the allocation error only. -/
theorem tbAppend_same {q : Piece} (w : TokWord) (s : State) (htok : q ≠ .tokens) (herr : q ≠ .tbError) :
    SamePiece q s (tbAppend w s) := by
  rw [tbAppend_frame]
  cases q <;> simp_all [SamePiece, State.outByte, State.tallyAt, State.pwAt]

/-- RECORD writes the statistics only. -/
theorem record_same {q : Piece} {j : Slot} {bit : Bool} {s t : State} (h : record j bit s = .next t)
    (htally : q ≠ .tally) : SamePiece q s t := by
  obtain ⟨-, rfl⟩ := record_eq_next.mp h
  cases q <;> simp_all [SamePiece, State.outByte, State.tokWord, State.pwAt]

/-- Coding writes the coder registers and the output only. -/
theorem CoderFrame.same {q : Piece} {s t : State} (h : CoderFrame s t) (hcod : q ≠ .coder) (hout : q ≠ .output) :
    SamePiece q s t := by
  rw [h.1]
  cases q <;> simp_all [SamePiece, State.tokWord, State.tallyAt, State.pwAt]

/-- The chain of FINISH before its end is coding. -/
theorem finish_frame {n : Nat} {s s1 s2 s3 : State} (hpad : padBits n s = .next s1) (hext : forceExtract s1 = .next s2)
    (hflush : flushPending s2 = .next s3) : CoderFrame s s3 :=
  have hforce : CoderFrame s1 { s1 with nbBits := 0 } := ⟨rfl, Nat.le_refl _, fun _ _ => rfl⟩
  (padBits_frame hpad).trans (hforce.trans ((extract_frame hext).trans (flushPending_frame hflush)))

/-- The traversal in progress is no piece of state (10_state.md R31; log 3). -/
theorem withPass_same (q : Piece) (s : State) (p : Option Pass) : SamePiece q s { s with pass := p } := by
  cases q <;> simp [SamePiece, State.outByte, State.tokWord, State.tallyAt, State.pwAt]

theorem closeStream_same {q : Piece} (s : State) (hcod : q ≠ .coder) (hph : q ≠ .phase) :
    SamePiece q s (closeStream s) := by
  cases q <;> simp_all [SamePiece, State.outByte, State.tokWord, State.tallyAt, State.pwAt]

theorem closeEmit_same {q : Piece} (s : State) (htok : q ≠ .tokens) (heop : q ≠ .eop) (hph : q ≠ .phase) :
    SamePiece q s (closeEmit s) := by
  cases q <;> simp_all [SamePiece, State.outByte, State.tallyAt, State.pwAt]

theorem closeEstimate_same {q : Piece} (acc : Nat) (s : State) (hsize : q ≠ .sizeEst) :
    SamePiece q s (closeEstimate acc s) := by
  cases q <;> simp_all [SamePiece, State.outByte, State.tokWord, State.tallyAt, State.pwAt]

theorem clear_same {q : Piece} (s : State) (htok : q ≠ .tokens) (herr : q ≠ .tbError) :
    SamePiece q s (State.clearTbError (releasePages s)) := by
  cases q <;> simp_all [SamePiece, State.outByte, State.tallyAt, State.pwAt]

theorem finalizeTable_same {q : Piece} (s : State) (hpw : q ≠ .working) (hdirty : q ≠ .dirty) (hph : q ≠ .phase) :
    SamePiece q s (finalizeTable s) := by
  cases q <;> simp_all [SamePiece, State.outByte, State.tokWord, State.tallyAt]

/-- INIT touches neither `OUT`, nor `EOP`, nor the marks (70_reset_and_hazards.md R197). -/
theorem startFrame_same {q : Piece} {psize : BitVec 24} (s : State) (hq : writes q (.init psize) = false) :
    SamePiece q s (startFrame psize s) := by
  cases q <;> simp_all [writes, startFrame, SamePiece, State.outByte]

theorem ne_of_writes {q r : Piece} {i : Instr} (hr : writes r i = true) (hq : writes q i = false) : q ≠ r := by
  rintro rfl
  rw [hr] at hq
  cases hq

/-- The frame of one effect: it writes what its instruction writes and nothing else. -/
theorem Effect.same {q : Piece} {i : Instr} {s t : State} (h : Effect i s t) (hq : writes q i = false) :
    SamePiece q s t := by
  have ne {r : Piece} (hr : writes r i = true) : q ≠ r := ne_of_writes hr hq
  cases h with
  | start psize => exact startFrame_same s hq
  | append htok herr _ => exact tbAppend_same _ s (ne htok) (ne herr)
  | tallied htally h => exact record_same h (ne htally)
  | finalize _ => exact finalizeTable_same s (ne rfl) (ne rfl) (ne rfl)
  | cursor _ _ _ => exact withPass_same q s _
  | coded hcod hout _ h => exact (putBit_frame h).same (ne hcod) (ne hout)
  | closeEmit _ => exact closeEmit_same s (ne rfl) (ne rfl) (ne rfl)
  | closeEstimate _ => exact closeEstimate_same _ s (ne rfl)
  | finish _ hpad hext hflush =>
    exact ((finish_frame hpad hext hflush).same (ne rfl) (ne rfl)).trans (closeStream_same _ (ne rfl) (ne rfl))
  | clear => exact clear_same s (ne rfl) (ne rfl)

/-- Settles O17: each effect of an instruction leaves alone what the instruction does not write. -/
theorem onlyTheWritersWrite : Obligations.OnlyTheWritersWrite := by
  intro q i s t h hq
  exact (exec_effects h).preserve (P := SamePiece q s) (fun u v he hu => hu.trans (he.same hq)) (SamePiece.refl q s)

/-! ### The output below `pos` -/

/-- `pos` is not moved back, and only the bytes from the old `pos` up to the new one may differ (10_state.md R15,
R27). -/
def OutputFinal (s t : State) : Prop := s.pos ≤ t.pos ∧ ∀ k, k < s.pos ∨ t.pos ≤ k → t.outByte k = s.outByte k

theorem OutputFinal.trans {s t u : State} (h : OutputFinal s t) (h' : OutputFinal t u) : OutputFinal s u := by
  obtain ⟨hp, ho⟩ := h
  obtain ⟨hp', ho'⟩ := h'
  refine ⟨by omega, fun k hk => ?_⟩
  rw [ho' k (by omega), ho k (by omega)]

/-- Where neither the coder registers nor the output are written, the output is final. -/
theorem OutputFinal.of_same {s t : State} (hcod : SamePiece .coder s t) (hout : SamePiece .output s t) :
    OutputFinal s t := by
  obtain ⟨-, -, -, -, hpos, -⟩ := hcod
  exact ⟨hpos.ge, fun k _ => hout k⟩

theorem CoderFrame.outputFinal {s t : State} (h : CoderFrame s t) : OutputFinal s t := h.2

theorem Effect.outputFinal {i : Instr} {s t : State} (h : Effect i s t) (hi : ∀ psize, i ≠ .init psize) :
    OutputFinal s t := by
  cases h with
  | start psize => exact absurd rfl (hi psize)
  | append _ _ _ => exact .of_same (tbAppend_same _ s nofun nofun) (tbAppend_same _ s nofun nofun)
  | tallied _ h => exact .of_same (record_same h nofun) (record_same h nofun)
  | finalize _ => exact .of_same (finalizeTable_same s nofun nofun nofun) (finalizeTable_same s nofun nofun nofun)
  | cursor _ _ _ => exact .of_same (withPass_same _ s _) (withPass_same _ s _)
  | coded _ _ _ h => exact (putBit_frame h).outputFinal
  | closeEmit _ => exact .of_same (closeEmit_same s nofun nofun nofun) (closeEmit_same s nofun nofun nofun)
  | closeEstimate _ => exact .of_same (closeEstimate_same _ s nofun) (closeEstimate_same _ s nofun)
  | finish _ hpad hext hflush => exact (finish_frame hpad hext hflush).outputFinal
  | clear => exact .of_same (clear_same s nofun nofun) (clear_same s nofun nofun)

/-- Settles O18: the output stays final through each effect but INIT. -/
theorem outputBelowPosIsFinal : Obligations.OutputBelowPosIsFinal := by
  intro i s t h hi
  exact (exec_effects h).preserve (P := OutputFinal s) (fun u v he hu => hu.trans (he.outputFinal hi))
    ⟨Nat.le_refl _, fun _ _ => rfl⟩

/-! ### The allocation error -/

theorem tbAppend_of_tbError {s : State} (h : s.tbError = true) (w : TokWord) : tbAppend w s = s := by
  simp [tbAppend, h]

/-- Where an effect finds the allocation error it leaves the token buffer alone, but for the release that ends EMIT. -/
theorem Effect.same_of_tbError {q : Piece} {i : Instr} {s t : State} (h : Effect i s t) (he : s.tbError = true)
    (hi : ∀ psize, i ≠ .init psize) (hc : i ≠ .clear) (hq : q = .tbError ∨ q = .tokens ∧ i ≠ .emit) :
    SamePiece q s t := by
  cases h with
  | start psize => exact absurd rfl (hi psize)
  | append _ _ _ => rw [tbAppend_of_tbError he]; exact .refl q s
  | tallied _ h => exact record_same h (by rintro rfl; simp at hq)
  | finalize hp => exact (Effect.finalize hp).same (by rcases hq with rfl | ⟨rfl, -⟩ <;> rfl)
  | cursor _ _ _ => exact withPass_same q s _
  | coded _ _ _ h => exact (putBit_frame h).same (by rintro rfl; simp at hq) (by rintro rfl; simp at hq)
  | closeEmit hp =>
    obtain rfl : q = .tbError := by simpa using hq
    exact closeEmit_same s nofun nofun nofun
  | closeEstimate hp => exact (Effect.closeEstimate hp).same (by rcases hq with rfl | ⟨rfl, -⟩ <;> rfl)
  | finish hp h1 h2 h3 => exact (Effect.finish hp h1 h2 h3).same (by rcases hq with rfl | ⟨rfl, -⟩ <;> rfl)
  | clear => exact absurd rfl hc

/-- Settles O19: under the error an append stores nothing, and only INIT and CLEAR lower it. -/
theorem allocationErrorIsSticky : Obligations.AllocationErrorIsSticky := by
  intro i s t h he hi hc
  refine (exec_effects h).preserve (P := fun u => u.tbError = true ∧ (i ≠ .emit → SamePiece .tokens s u)) ?_
    ⟨he, fun _ => .refl _ s⟩
  rintro u v huv ⟨hu, hsame⟩
  have herr : SamePiece .tbError u v := huv.same_of_tbError hu hi hc (.inl rfl)
  exact ⟨Eq.trans herr hu, fun hemit => (hsame hemit).trans (huv.same_of_tbError hu hi hc (.inr ⟨rfl, hemit⟩))⟩

end Sys2Proof.Machine

/-! ### The token buffer (10_state.md R18, R19, 41_token_buffer.md R101, R107) -/

namespace Sys2Proof.Machine

/-- The slots a traversal reads: those of the full pages, and of the last page those from `left` up. -/
theorem mem_traversal {n left size : Nat} {q : Nat × Nat} :
    q ∈ traversal n left size ↔ q.1 < n ∧ q.2 < size ∧ (q.1 + 1 = n → left ≤ q.2) := by
  obtain ⟨page, slot⟩ := q
  simp only [traversal, List.mem_flatMap, List.mem_map, List.mem_range, Prod.mk.injEq]
  constructor
  · rintro ⟨p, hp, j, hj, rfl, rfl⟩
    split at hj <;> omega
  · rintro ⟨hp, hs, hl⟩
    refine ⟨page, hp, size - 1 - slot, ?_, rfl, by omega⟩
    split <;> omega

/-- A slot has been written and holds a legal token word. -/
def State.GoodSlot (s : State) (q : Nat × Nat) : Prop := s.tokWritten q.1 q.2 = true ∧ LegalToken (s.tokWord q.1 q.2)

/-- The invariants of the buffer, with what they say of its slots said slot by slot. -/
theorem State.bufferInv_iff {s : State} : s.BufferInv ↔
    8192 ≤ s.pageSize ∧ s.pageSize < 2 ^ 24 ∧ s.npages ≤ s.cfg.maxPages ∧ (s.npages ≠ 0 → s.left < s.pageSize)
      ∧ (s.npages = 0 → s.left = 0) ∧ ∀ q ∈ traversal s.npages s.left s.pageSize, s.GoodSlot q := by
  have htok : (∀ t ∈ s.tokseq, LegalToken t) ↔
      ∀ q ∈ traversal s.npages s.left s.pageSize, LegalToken (s.tokWord q.1 q.2) := by
    simp only [State.tokseq, List.forall_mem_map]
  constructor
  · rintro ⟨h1, h2, h3, h4, h5, hw, ht⟩
    exact ⟨h1, h2, h3, h4, h5, fun q hq => ⟨hw q hq, htok.mp ht q hq⟩⟩
  · rintro ⟨h1, h2, h3, h4, h5, hg⟩
    exact ⟨h1, h2, h3, h4, h5, fun q hq => (hg q hq).1, htok.mpr fun q hq => (hg q hq).2⟩

/-- The invariants of the buffer read the buffer's registers, its slots and the number of pages there can be. -/
theorem State.BufferInv.congr {s t : State} (h : s.BufferInv) (hcfg : t.cfg = s.cfg) (htok : t.tok = s.tok)
    (hpages : t.npages = s.npages) (hleft : t.left = s.left) (hsize : t.pageSize = s.pageSize) : t.BufferInv := by
  rw [State.bufferInv_iff] at h ⊢
  simpa only [hcfg, htok, hpages, hleft, hsize, State.GoodSlot, State.tokWritten, State.tokWord] using h

/-- With no page there is no slot to read. -/
theorem bufferInv_of_no_pages {s : State} (hsize : 8192 ≤ s.pageSize) (hsize' : s.pageSize < 2 ^ 24)
    (hpages : s.npages = 0) (hleft : s.left = 0) : s.BufferInv := by
  refine State.bufferInv_iff.mpr ⟨hsize, hsize', by omega, fun h => absurd hpages h, fun _ => hleft, fun q hq => ?_⟩
  have := (mem_traversal.mp hq).1
  omega

/-- A stored token word stands in the next free slot, and every other slot reads as before. -/
theorem goodSlot_storeToken {s : State} {w : TokWord} {q : Nat × Nat} (hw : LegalToken w)
    (hq : q ≠ s.nextSlot → s.GoodSlot q) : (storeToken w s).GoodSlot q := by
  have hwritten : (storeToken w s).tokWritten q.1 q.2 = _ := tokWritten_write s s.nextSlot.1 s.nextSlot.2 q.1 q.2 w
  have hword : (storeToken w s).tokWord q.1 q.2 = _ := tokWord_write s s.nextSlot.1 s.nextSlot.2 q.1 q.2 w
  unfold State.GoodSlot
  rw [hwritten, hword]
  by_cases hn : q = s.nextSlot
  · simpa [hn] using hw
  · have hne : ¬(q.1 = s.nextSlot.1 ∧ q.2 = s.nextSlot.2) := fun hc => hn (Prod.ext hc.1 hc.2)
    rw [decide_eq_false hne, if_neg hne]
    exact hq hn

/-- Storing a legal token word where the last page has room. -/
theorem storeToken_bufferInv {s : State} {w : TokWord} (hw : LegalToken w) (h : s.BufferInv)
    (hroom : s.noRoom = false) : (storeToken w s).BufferInv := by
  obtain ⟨hsize, hsize', hpages, hfree, -, hgood⟩ := State.bufferInv_iff.mp h
  obtain ⟨hn, hl⟩ : s.npages ≠ 0 ∧ s.left ≠ 0 := by simpa [State.noRoom] using hroom
  have hlt := hfree hn
  refine State.bufferInv_iff.mpr ⟨hsize, hsize', hpages, fun _ => ?_, fun h0 => absurd h0 hn, fun q hq => ?_⟩
  · simp only [storeToken_left, storeToken_pageSize]
    omega
  · obtain ⟨hp, hs, hlast⟩ := mem_traversal.mp hq
    simp only [storeToken_npages, storeToken_left, storeToken_pageSize] at hp hs hlast
    refine goodSlot_storeToken hw fun hne => hgood q (mem_traversal.mpr ⟨hp, hs, fun he => ?_⟩)
    have := hlast he
    have : ¬ (q.1 = s.npages - 1 ∧ q.2 = s.left - 1) := fun hc => hne (Prod.ext hc.1 hc.2)
    omega

/-- Storing a legal token word in the first slot of a new page. -/
theorem storeToken_allocPage_bufferInv {s : State} {w : TokWord} (hw : LegalToken w) (h : s.BufferInv)
    (hfull : s.noRoom = true) (hmax : s.npages ≠ s.cfg.maxPages) : (storeToken w (allocPage s)).BufferInv := by
  obtain ⟨hsize, hsize', hpages, -, hnone, hgood⟩ := State.bufferInv_iff.mp h
  have hl : s.left = 0 := by
    rcases (by simpa [State.noRoom] using hfull : s.npages = 0 ∨ s.left = 0) with h0 | h0
    · exact hnone h0
    · exact h0
  refine State.bufferInv_iff.mpr ⟨hsize, hsize', ?_, fun _ => ?_, fun h0 => (nomatch h0), fun q hq => ?_⟩
  · simp only [storeToken_npages, storeToken_cfg, allocPage_npages, allocPage_cfg]
    omega
  · simp only [storeToken_left, storeToken_pageSize, allocPage_left, allocPage_pageSize]
    omega
  · obtain ⟨hp, hs, hlast⟩ := mem_traversal.mp hq
    simp only [storeToken_npages, storeToken_left, storeToken_pageSize, allocPage_npages, allocPage_left,
      allocPage_pageSize] at hp hs hlast
    refine goodSlot_storeToken hw fun hne => ?_
    have hother : ¬ (q.1 = s.npages ∧ q.2 = s.pageSize - 1) := fun hc => hne (Prod.ext hc.1 hc.2)
    exact hgood q (mem_traversal.mpr ⟨by omega, hs, by omega⟩)

theorem tbAppend_bufferInv {s : State} {w : TokWord} (hw : LegalToken w) (h : s.BufferInv) :
    (tbAppend w s).BufferInv := by
  rcases tbAppend_cases w s with ⟨-, e⟩ | ⟨-, -, -, e⟩ | ⟨-, hfull, hmax, e⟩ | ⟨-, hroom, e⟩ <;> rw [e]
  · exact h
  · exact h.congr rfl rfl rfl rfl rfl
  · exact storeToken_allocPage_bufferInv hw h hfull hmax
  · exact storeToken_bufferInv hw h hroom

theorem startFrame_bufferInv (psize : BitVec 24) (s : State) : (startFrame psize s).BufferInv :=
  bufferInv_of_no_pages (Nat.le_max_right _ _) (Nat.max_lt.mpr ⟨psize.isLt, by omega⟩) rfl rfl

theorem CoderFrame.bufferInv {s t : State} (h : CoderFrame s t) (hs : s.BufferInv) : t.BufferInv :=
  hs.congr h.cfg h.tok h.npages h.left h.pageSize

theorem Effect.bufferInv {i : Instr} {s t : State} (h : Effect i s t) (hs : s.BufferInv) : t.BufferInv := by
  cases h with
  | start psize => exact startFrame_bufferInv psize s
  | append _ _ hw => exact tbAppend_bufferInv hw hs
  | tallied _ h =>
    obtain ⟨-, rfl⟩ := record_eq_next.mp h
    exact hs.congr rfl rfl rfl rfl rfl
  | finalize _ =>
    exact hs.congr (finalizeTable_cfg s) (finalizeTable_tok s) (finalizeTable_npages s)
        (finalizeTable_left s) (finalizeTable_pageSize s)
  | cursor _ _ _ => exact hs.congr rfl rfl rfl rfl rfl
  | coded _ _ _ h => exact (putBit_frame h).bufferInv hs
  | closeEmit _ => exact bufferInv_of_no_pages hs.size_low hs.size_high rfl rfl
  | closeEstimate _ => exact hs.congr rfl rfl rfl rfl rfl
  | finish _ hpad hext hflush =>
    exact ((finish_frame hpad hext hflush).bufferInv hs).congr rfl rfl rfl rfl rfl
  | clear => exact bufferInv_of_no_pages hs.size_low hs.size_high rfl rfl

/-- Settles O56: every effect keeps the token buffer's invariants; the one that turns on them is an append. -/
theorem stepKeepsBufferInvariants : Obligations.StepKeepsBufferInvariants := by
  intro s t hs h
  exact step_preserves (fun _ _ hu => hu.congr rfl rfl rfl rfl rfl) (fun _ _ _ he hu => he.bufferInv hu) h hs

/-! ### The traversal in progress and the working table -/

theorem State.PassInv.congr {s t : State} (h : s.PassInv) (hpass : t.pass = s.pass) (hphase : t.phase = s.phase) :
    t.PassInv := by
  unfold State.PassInv at h ⊢
  rwa [hpass, hphase]

theorem CoderFrame.passInv {s t : State} (h : CoderFrame s t) (hs : s.PassInv) : t.PassInv := hs.congr h.pass h.phase

theorem passInv_of_none {s : State} (h : s.pass = none) : s.PassInv := fun hp => absurd h hp

/-- The phase is one that admits a traversal while one is in progress. -/
theorem State.PassInv.phase_of_some {s : State} {p : Pass} (h : s.PassInv) (hp : s.pass = some p) :
    s.phase = .recording ∨ s.phase = .finalized := h (by simp [hp])

theorem tbAppend_pass (w : TokWord) (s : State) : (tbAppend w s).pass = s.pass := by rw [tbAppend_frame]
theorem tbAppend_cfg (w : TokWord) (s : State) : (tbAppend w s).cfg = s.cfg := by rw [tbAppend_frame]
theorem tbAppend_pw (w : TokWord) (s : State) : (tbAppend w s).pw = s.pw := by rw [tbAppend_frame]
theorem tbAppend_dirty (w : TokWord) (s : State) : (tbAppend w s).dirty = s.dirty := by rw [tbAppend_frame]
theorem tbAppend_phase (w : TokWord) (s : State) : (tbAppend w s).phase = s.phase := by rw [tbAppend_frame]

theorem Effect.passInv {i : Instr} {s t : State} (h : Effect i s t) (hs : s.PassInv) : t.PassInv := by
  cases h with
  | start psize => exact fun _ => .inl rfl
  | append _ _ _ => exact hs.congr (tbAppend_pass _ s) (tbAppend_phase _ s)
  | tallied _ h =>
    obtain ⟨-, rfl⟩ := record_eq_next.mp h
    exact hs.congr rfl rfl
  | finalize _ => exact fun _ => .inr rfl
  | cursor _ _ h => exact fun _ => h.elim hs id
  | coded _ _ _ h => exact (putBit_frame h).passInv hs
  | closeEmit _ => exact passInv_of_none rfl
  | closeEstimate _ => exact passInv_of_none rfl
  | @finish _ _ _ s3 hp hpad hext hflush =>
    have hpass : (closeStream s3).pass = s.pass := (finish_frame hpad hext hflush).pass
    refine fun h => absurd (hs (hpass ▸ h)) ?_
    simp [hp]
  | clear => exact hs.congr rfl rfl

theorem State.TableInv.congr {s t : State} (h : s.TableInv) (hcfg : t.cfg = s.cfg) (hpw : t.pw = s.pw)
    (hdirty : t.dirty = s.dirty) (hphase : t.phase = s.phase) : t.TableInv := by
  obtain ⟨hrec, hd⟩ := h
  constructor <;> rw [hcfg, hpw, hphase]
  · exact hrec
  · rwa [hdirty]

/-- The end of EMIT and of FINISH leave the table and `dirty` as they were in a frame that had started. -/
theorem State.TableInv.of_phase {s t : State} (h : s.TableInv) (hcfg : t.cfg = s.cfg) (hpw : t.pw = s.pw)
    (hdirty : t.dirty = s.dirty) (hs : s.phase ≠ .uninit) (ht : t.phase ≠ .recording) : t.TableInv := by
  refine ⟨fun h => absurd h ht, fun _ => ?_⟩
  rw [hcfg, hpw, hdirty]
  exact h.dirty hs

/-- A slot sets `dirty` exactly when the probability chosen for it differs from its default (43_finalizer.md R130). -/
theorem slotDirty_iff (c : Config) (i : Slot) (w : TallyWord) : slotDirty c i w = true ↔ finalProb c i w ≠ c.p0[i] := by
  unfold slotDirty finalProb
  split <;> simp [*]

/-- FINALIZE sets `dirty` exactly when the table it writes differs from the default (43_finalizer.md R131). -/
theorem finalizeTable_tableInv (s : State) : (finalizeTable s).TableInv := by
  refine ⟨fun h => (nomatch h), fun _ => ?_⟩
  rw [finalizeTable_dirty, finalizeTable_pw, finalizeTable_cfg]
  simp only [anyIndex_iff, slotDirty_iff]
  constructor
  · rintro ⟨i, hi⟩ heq
    exact hi (by rw [← heq, tableOf_get])
  · intro hne
    by_contra hall
    refine hne (Vector.ext fun k hk => ?_)
    have hk' : finalProb s.cfg ⟨k, hk⟩ (s.tallyAt ⟨k, hk⟩) = s.cfg.p0[(⟨k, hk⟩ : Slot)] := by
      by_contra h
      exact hall ⟨⟨k, hk⟩, h⟩
    exact (tableOf_get _ (⟨k, hk⟩ : Slot)).trans hk'

theorem startFrame_tableInv (psize : BitVec 24) (s : State) : (startFrame psize s).TableInv :=
  ⟨fun _ => rfl, fun _ => ⟨fun h => (nomatch h), fun h => absurd rfl h⟩⟩

theorem CoderFrame.tableInv {s t : State} (h : CoderFrame s t) (hs : s.TableInv) : t.TableInv :=
  hs.congr h.cfg h.pw h.dirty h.phase

theorem Effect.tableInv {i : Instr} {s t : State} (h : Effect i s t) (hs : s.TableInv) (hp : s.PassInv) :
    t.TableInv := by
  cases h with
  | start psize => exact startFrame_tableInv psize s
  | append _ _ _ => exact hs.congr (tbAppend_cfg _ s) (tbAppend_pw _ s) (tbAppend_dirty _ s) (tbAppend_phase _ s)
  | tallied _ h =>
    obtain ⟨-, rfl⟩ := record_eq_next.mp h
    exact hs.congr rfl rfl rfl rfl
  | finalize _ => exact finalizeTable_tableInv s
  | cursor _ _ _ => exact hs.congr rfl rfl rfl rfl
  | coded _ _ _ h => exact (putBit_frame h).tableInv hs
  | closeEmit hpass =>
    exact hs.of_phase rfl rfl rfl (by rcases hp.phase_of_some hpass with h | h <;> simp [h]) nofun
  | closeEstimate _ => exact hs.congr rfl rfl rfl rfl
  | finish hph hpad hext hflush =>
    have hf := finish_frame hpad hext hflush
    exact hs.of_phase hf.cfg hf.pw hf.dirty (by simp [hph]) nofun
  | clear => exact hs.congr rfl rfl rfl rfl

/-- Settles O58: the table changes only where FINALIZE compares it with the default and where INIT restores it. -/
theorem stepKeepsTableInvariants : Obligations.StepKeepsTableInvariants := by
  intro s t hs hp h
  exact (step_preserves (P := fun u => u.TableInv ∧ u.PassInv)
    (fun _ _ hu => ⟨hu.1.congr rfl rfl rfl rfl, hu.2.congr rfl rfl⟩)
    (fun _ _ _ he hu => ⟨he.tableInv hu.1 hu.2, he.passInv hu.2⟩) h ⟨hs, hp⟩).1

/-! ### The memories -/

/-- The invariants of the two memories together. -/
def State.MemInv (s : State) : Prop := s.OutInv ∧ s.MemoryWf

theorem State.OutInv.congr {s t : State} (h : s.OutInv) (hcfg : t.cfg = s.cfg) (hpos : t.pos = s.pos)
    (hout : t.out = s.out) : t.OutInv := by
  obtain ⟨hcap, hw, ho⟩ := h
  constructor <;> simp only [hcfg, hpos, State.outWritten, hout] <;> assumption

theorem State.MemInv.congr {s t : State} (h : s.MemInv) (hcfg : t.cfg = s.cfg) (hpos : t.pos = s.pos)
    (hout : t.out = s.out) (htok : t.tok = s.tok) : t.MemInv := by
  obtain ⟨hinv, hwf⟩ := h
  refine ⟨hinv.congr hcfg hpos hout, ?_⟩
  unfold State.MemoryWf
  rw [hout, htok]
  exact hwf

/-- The one operation that writes `OUT`: it writes at `pos`, below the capacity, and moves `pos` past the byte. -/
theorem writeByte_memInv {b : Byte} {s t : State} (h : writeByte b s = .next t) (hs : s.MemInv) : t.MemInv := by
  obtain ⟨hroom, rfl⟩ := writeByte_eq_next.mp h
  obtain ⟨⟨-, hw, ho⟩, htok, hout⟩ := hs
  have hwritten := fun k => outWritten_write s s.pos k b
  refine ⟨⟨hroom, fun k hk => ?_, fun k hk => ?_⟩, htok, Memory.wf_write _ _ _ hout⟩
  · refine (hwritten k).trans ?_
    rcases Nat.lt_succ_iff_lt_or_eq.mp hk with hlt | heq
    · simp [hw k hlt]
    · simp [heq]
  · refine (hwritten k).trans ?_
    have hne : k ≠ s.pos := fun he => by simp only at hk; omega
    simp [hne, ho k hk]

theorem writeBytes_memInv {n : Nat} {b : Byte} {s t : State} (h : writeBytes n b s = .next t) (hs : s.MemInv) :
    t.MemInv := by
  induction n generalizing s with
  | zero => cases h; exact hs
  | succ n ih =>
    obtain ⟨u, hu, ht⟩ := andThen_eq_next.mp h
    exact ih ht (writeByte_memInv hu hs)

theorem flushPending_memInv {s t : State} (h : flushPending s = .next t) (hs : s.MemInv) : t.MemInv := by
  obtain ⟨u, hu, ht⟩ := andThen_eq_next.mp h
  refine writeBytes_memInv ht ?_
  unfold flushHeld at hu
  split at hu
  · cases hu; exact hs
  · exact writeByte_memInv hu hs

theorem resolveCarry_memInv {s t : State} (h : resolveCarry s = .next t) (hs : s.MemInv) : t.MemInv := by
  unfold resolveCarry at h
  split at h
  · exact absurd h (raiseFault_ne_next _ s t)
  · obtain ⟨u, hu, ht⟩ := andThen_eq_next.mp h
    exact writeBytes_memInv ht (writeByte_memInv hu hs)

theorem pack_memInv {bits : BitVec 24} {s t : State} (h : pack bits s = .next t) (hs : s.MemInv) : t.MemInv := by
  rcases pack_eq_next.mp h with ⟨-, rfl⟩ | ⟨-, u, hu, rfl⟩
  · exact hs.congr rfl rfl rfl rfl
  · have hinv : u.MemInv := by
      split at hu
      · exact resolveCarry_memInv hu hs
      · exact flushPending_memInv hu hs
    exact hinv.congr rfl rfl rfl rfl

theorem extract_memInv {s t : State} (h : extract s = .next t) (hs : s.MemInv) : t.MemInv :=
  pack_memInv (s := afterExtract s) h (hs.congr rfl rfl rfl rfl)

theorem putBit_memInv {bit : Bool} {prob : Prob} {s t : State} (h : putBit bit prob s = .next t) (hs : s.MemInv) :
    t.MemInv := by
  have hc : (codeBit bit prob s).MemInv := hs.congr rfl rfl rfl rfl
  simp only [putBit] at h
  split at h
  · exact extract_memInv h hc
  · cases h; exact hc

theorem padBits_memInv {n : Nat} {s t : State} (h : padBits n s = .next t) (hs : s.MemInv) : t.MemInv := by
  induction n generalizing s with
  | zero => cases h; exact hs
  | succ n ih =>
    obtain ⟨u, hu, ht⟩ := andThen_eq_next.mp h
    exact ih ht (putBit_memInv hu hs)

theorem storeToken_memInv (w : TokWord) {s : State} (hs : s.MemInv) : (storeToken w s).MemInv := by
  obtain ⟨hinv, htok, hout⟩ := hs
  exact ⟨hinv.congr rfl rfl rfl, Memory.wf_write _ _ _ htok, hout⟩

theorem tbAppend_memInv (w : TokWord) {s : State} (hs : s.MemInv) : (tbAppend w s).MemInv := by
  rcases tbAppend_cases w s with ⟨-, e⟩ | ⟨-, -, -, e⟩ | ⟨-, -, -, e⟩ | ⟨-, -, e⟩ <;> rw [e]
  · exact hs
  · exact hs.congr rfl rfl rfl rfl
  · exact storeToken_memInv w (hs.congr rfl rfl rfl rfl)
  · exact storeToken_memInv w hs

theorem releasePages_memInv {s : State} (hs : s.MemInv) : (releasePages s).MemInv := by
  obtain ⟨hinv, -, hout⟩ := hs
  exact ⟨hinv.congr rfl rfl rfl, Memory.wf_nil, hout⟩

/-- INIT moves `pos` to the start of `OUT` and keeps its bytes. -/
theorem startFrame_memInv (psize : BitVec 24) {s : State} (hs : s.MemInv) : (startFrame psize s).MemInv := by
  obtain ⟨⟨-, -, ho⟩, -, hout⟩ := hs
  exact ⟨⟨Nat.zero_le _, fun k hk => absurd hk (Nat.not_lt_zero k), ho⟩, Memory.wf_nil, hout⟩

theorem Effect.memInv {i : Instr} {s t : State} (h : Effect i s t) (hs : s.MemInv) : t.MemInv := by
  cases h with
  | start psize => exact startFrame_memInv psize hs
  | append _ _ _ => exact tbAppend_memInv _ hs
  | tallied _ h =>
    obtain ⟨-, rfl⟩ := record_eq_next.mp h
    exact hs.congr rfl rfl rfl rfl
  | finalize _ =>
    exact hs.congr (finalizeTable_cfg s) (finalizeTable_pos s) (finalizeTable_out s) (finalizeTable_tok s)
  | cursor _ _ _ => exact hs.congr rfl rfl rfl rfl
  | coded _ _ _ h => exact putBit_memInv h hs
  | closeEmit _ => exact (releasePages_memInv hs).congr rfl rfl rfl rfl
  | closeEstimate _ => exact hs.congr rfl rfl rfl rfl
  | @finish _ s1 s2 s3 _ hpad hext hflush =>
    have h1 : ({ s1 with nbBits := 0 } : State).MemInv := (padBits_memInv hpad hs).congr rfl rfl rfl rfl
    exact (flushPending_memInv hflush (extract_memInv hext h1)).congr rfl rfl rfl rfl
  | clear => exact (releasePages_memInv hs).congr rfl rfl rfl rfl

/-- Settles O59: the output is written by WRITEBYTE alone, and both memories by canonical writes. -/
theorem stepKeepsMemoryInvariants : Obligations.StepKeepsMemoryInvariants := by
  intro s t hout hwf h
  exact step_preserves (P := State.MemInv) (fun _ _ hu => hu.congr rfl rfl rfl rfl) (fun _ _ _ he hu => he.memInv hu) h
    ⟨hout, hwf⟩

end Sys2Proof.Machine

/-! ### The coder registers (10_state.md R17, 44_range_coder.md R156) -/

namespace Sys2Proof.Machine

/-- The invariants of the coder read its registers, and the phase only as far as it closes the stream. -/
theorem State.CoderInv.of_same {s t : State} (h : s.CoderInv) (hsame : SamePiece .coder s t)
    (hphase : t.phase ≠ .done → s.phase ≠ .done) : t.CoderInv := by
  obtain ⟨hrange, hvalue, hbits, hrun, hpos, hheld⟩ := hsame
  obtain ⟨h1, h2, h3, h4, h5, h6, h7, h8, h9⟩ := h
  have hcount : t.bitCount = s.bitCount := by rw [State.bitCount, State.bitCount, hbits]
  have hend : t.upperEnd = s.upperEnd := by rw [State.upperEnd, State.upperEnd, hvalue, hrange]
  constructor <;> simp only [hrange, hvalue, hbits, hrun, hpos, hheld, hcount, hend]
  · exact h1
  · exact h2
  · exact h3
  · exact h4
  · exact h5
  · exact h6
  · exact h7
  · exact fun h => h8 (hphase h)
  · exact fun h => h9 (hphase h)

/-- The values of an empty stream meet the invariants (45_frame_control.md R165). -/
theorem namedValues_coderInv : State.namedValues.CoderInv where
  range_low := by decide
  range_high := by decide
  range_init _ := ⟨rfl, by decide, rfl, rfl, rfl⟩
  bits_low := by decide
  bits_high := by decide
  upper := by decide
  run_held _ := rfl
  open_upper _ := by decide
  empty_upper _ _ := by decide

theorem startFrame_coderInv (psize : BitVec 24) (s : State) : (startFrame psize s).CoderInv :=
  namedValues_coderInv.of_same ⟨rfl, rfl, rfl, rfl, rfl, rfl⟩ fun _ => nofun

/-! ### A completed PACK and PUTBIT, however little room the output has -/

/-- PACK that answers a next state did what the spec describes: it needs no room where it writes no byte. -/
theorem packed_of_pack {w : BitVec 24} {s t : State} (hw : w.toNat < 512) (h : pack w s = .next t) :
    Packed w.toNat s t := by
  have of_room (hc : 256 ≤ w.toNat → s.held ≠ 0xFF) (room : s.pos + s.run + 1 ≤ s.cfg.outCapacity) :
      Packed w.toNat s t := by
    obtain ⟨t', ht', hpk⟩ := pack_packed hw hc room
    cases ht'.symm.trans h
    exact hpk
  rcases pack_eq_next.mp h with ⟨hff, rfl⟩ | ⟨hne, u, hu, rfl⟩
  · rw [Packed, if_pos ((groupByte_eq_ff w).mp hff)]
    exact ⟨rfl, rfl, rfl, fun _ => rfl⟩
  · split at hu
    next =>
      obtain ⟨hheld, room, -⟩ := resolveCarry_eq_next.mp hu
      exact of_room (fun _ => hheld) room
    next hcar =>
      have hg : ¬256 ≤ w.toNat := fun hg => hcar ((carryBit_iff hw).mpr hg)
      rcases flushPending_eq_next.mp hu with ⟨hheld, -, rfl⟩ | ⟨hheld, room, -⟩
      · have hread := read_writeRun s.run s.pos 0xFF s.out
        rw [Packed, if_neg fun hff => hne ((groupByte_eq_ff w).mpr hff)]
        refine ⟨rfl, toNat_groupByte w, ?_, fun hh => absurd hheld hh, fun k hk hk' => ?_, fun k hk => ?_⟩
        · rw [if_pos hheld]
          rfl
        · simp only at hk hk'
          simp only [State.outByte, hread, if_neg hg]
          rw [if_pos (by omega), Option.getD_some]
        · simp only at hk
          simp only [State.outByte, hread]
          rw [if_neg (by omega)]
      · exact of_room (fun _ => hheld) room

/-- The byte group that a coded bit hands to PACK, where one leaves. -/
theorem codeBit_group {bit : Bool} {prob : Prob} {s : State} (hi : s.CoderInv)
    (hpos : 0 < s.nbBits.toInt + bitShift bit prob s) :
    (8 + (codeBit bit prob s).nbBits.toInt).toNat = s.bitCount + bitShift bit prob s ∧
      ((codeBit bit prob s).value >>> (s.bitCount + bitShift bit prob s)).toNat
        = shiftedValue bit prob s / 2 ^ (s.bitCount + bitShift bit prob s) ∧
      (afterExtract (codeBit bit prob s)).value.toNat
        = shiftedValue bit prob s % 2 ^ (s.bitCount + bitShift bit prob s) := by
  have h1 : 1 ≤ s.range.toNat := by have := hi.range_low; omega
  have hn := codeBit_nbBits (bit := bit) (prob := prob) h1 hi.bits_low hi.bits_high
  have hv := codeBit_value (bit := bit) (prob := prob) h1 hi.bits_high hi.upper
  have hm : (8 + (codeBit bit prob s).nbBits.toInt).toNat = s.bitCount + bitShift bit prob s := by
    have := bitCount_eq hi.bits_low
    rw [hn]
    omega
  obtain ⟨hg, hval⟩ := extract_values hm
  exact ⟨hm, by rw [hg, hv], by rw [hval, hv]⟩

/-- PUTBIT that answers a next state coded its bit, whether or not there was room for a byte more. -/
theorem codedBit_of_putBit {bit : Bool} {prob : Prob} {s t : State} (hi : s.CoderInv) (hp : s.phase ≠ .done)
    (h : putBit bit prob s = .next t) : CodedBit bit prob s t := by
  by_cases hpos : 0 < s.nbBits.toInt + bitShift bit prob s
  · have h1 : 1 ≤ s.range.toNat := by have := hi.range_low; omega
    have hk := bitShift_le (bit := bit) (prob := prob) h1
    have hr := shiftedRange_bounds (bit := bit) (prob := prob) h1
    have hlow := hi.bits_low
    have hhigh := hi.bits_high
    have hbc := bitCount_eq hlow
    obtain ⟨hm, hg, hval⟩ := codeBit_group hi hpos
    have hframe := putBit_frame h
    rw [putBit_eq hi, if_pos hpos, extract_eq_pack, hm] at h
    have hlt := (group_bounds (bit := bit) (prob := prob) hi hp).1
    have hpk := packed_of_pack (by omega) h
    rw [hg] at hpk
    have hkeep := pack_keeps h
    have hnb : t.nbBits.toInt = s.nbBits.toInt + bitShift bit prob s - 8 := by
      rw [hkeep, ← codeBit_nbBits h1 hlow hhigh]
      refine toInt_ofInt5 ?_ ?_ <;> rw [codeBit_nbBits h1 hlow hhigh] <;> omega
    have hcount : (8 + (s.nbBits.toInt + (bitShift bit prob s : Int))).toNat = s.bitCount + bitShift bit prob s := by
      omega
    have hrange : t.range.toNat = shiftedRange bit prob s - 1 := by
      rw [hkeep, ← codeBit_range h1]
      rfl
    have hvalue : t.value.toNat = shiftedValue bit prob s % 2 ^ (s.bitCount + bitShift bit prob s) := by
      rw [hkeep, ← hval]
    refine ⟨bitShift bit prob s, splitOf s.range.toNat prob.toNat, newRange bit s.range.toNat _,
      shiftedValue bit prob s, s.nbBits.toInt + bitShift bit prob s, rfl, rfl, hk, hr.1, hr.2, rfl, rfl, hframe.1,
      hrange, ?_⟩
    rw [if_neg (by omega), hcount]
    exact ⟨hvalue, hnb, hpk⟩
  · obtain ⟨u, hu, hc⟩ := putBit_coded (bit := bit) (prob := prob) hi hp (.inl (by omega))
    cases hu.symm.trans h
    exact hc

/-- After a bit the stored range is below 254 (44_range_coder.md R156 (a)). -/
theorem putBit_range_le {bit : Bool} {prob : Prob} {s t : State} (hi : s.CoderInv) (h : putBit bit prob s = .next t) :
    t.range.toNat ≤ 253 := by
  have h1 : 1 ≤ s.range.toNat := by have := hi.range_low; omega
  have hcode : (codeBit bit prob s).range.toNat ≤ 253 := by
    have := shiftedRange_le (bit := bit) (prob := prob) h1 hi.range_high
    rw [codeBit_range h1]
    omega
  simp only [putBit] at h
  split at h
  · rw [extract_eq_pack] at h
    rw [pack_keeps h]
    exact hcode
  · cases h; exact hcode

theorem putBit_coderInv {bit : Bool} {prob : Prob} {s t : State} (hi : s.CoderInv) (hp : s.phase ≠ .done)
    (h : putBit bit prob s = .next t) : t.CoderInv :=
  (codedBit_of_putBit hi hp h).coderInv hi hp

/-! ### FINISH -/

/-- Padding keeps the invariants, and once a bit is coded the range is below 254. -/
theorem padBits_coderInv {n : Nat} {s t : State} (hi : s.CoderInv) (hp : s.phase ≠ .done)
    (h : padBits n s = .next t) : t.CoderInv ∧ (n ≠ 0 ∨ s.range.toNat ≤ 253 → t.range.toNat ≤ 253) := by
  induction n generalizing s with
  | zero => cases h; exact ⟨hi, fun hr => hr.resolve_left fun hn => hn rfl⟩
  | succ n ih =>
    obtain ⟨u, hu, ht⟩ := andThen_eq_next.mp h
    have hpu : u.phase ≠ .done := by rwa [(putBit_frame hu).phase]
    obtain ⟨hinv, hrange⟩ := ih (putBit_coderInv hi hp hu) hpu ht
    exact ⟨hinv, fun _ => hrange (.inr (putBit_range_le hi hu))⟩

/-- The forced extraction takes bits 8 and up of `value` and leaves the eight below, at `nb_bits` -8. -/
theorem forceExtract_registers {s t : State} (h : forceExtract s = .next t) :
    t.range = s.range ∧ t.value.toNat = s.value.toNat % 256 ∧ t.nbBits.toInt = -8 := by
  rw [forceExtract, extract_eq_pack] at h
  rw [pack_keeps h]
  exact ⟨rfl, (extract_values (s := { s with nbBits := 0 }) (m := 8) rfl).2, by simp [afterExtract]⟩

theorem flushPending_registers {s t : State} (h : flushPending s = .next t) :
    t.range = s.range ∧ t.value = s.value ∧ t.nbBits = s.nbBits := by
  rcases flushPending_eq_next.mp h with ⟨-, -, rfl⟩ | ⟨-, -, rfl⟩ <;> exact ⟨rfl, rfl, rfl⟩

/-- FINISH leaves eight bits in `value` and both buffers empty: what the invariants ask of a closed stream. -/
theorem finish_coderInv {s s1 s2 s3 : State} (hi : s.CoderInv) (hp : s.phase = .emitted)
    (hpad : padBits (9 - s.nbBits.toInt).toNat s = .next s1) (hext : forceExtract s1 = .next s2)
    (hflush : flushPending s2 = .next s3) : (closeStream s3).CoderInv := by
  have hhigh := hi.bits_high
  obtain ⟨hinv, hrange⟩ := padBits_coderInv hi (by simp [hp]) hpad
  have h253 : s1.range.toNat ≤ 253 := hrange (.inl (by omega))
  have h127 := hinv.range_low
  obtain ⟨hr2, hv2, hn2⟩ := forceExtract_registers hext
  obtain ⟨hr3, hv3, hn3⟩ := flushPending_registers hflush
  have hr : (closeStream s3).range = s1.range := hr3.trans hr2
  have hn : (closeStream s3).nbBits.toInt = -8 := by rw [closeStream_nbBits, hn3, hn2]
  have hv : (closeStream s3).value.toNat < 256 := by rw [closeStream_value, hv3, hv2]; omega
  have hend : (closeStream s3).upperEnd ≤ 512 := by rw [State.upperEnd, hr]; omega
  have hcount : (closeStream s3).bitCount = 0 := by rw [State.bitCount, hn]; rfl
  refine ⟨by rw [hr]; exact h127, by rw [hr]; omega, fun h254 => ?_, hn.ge, by rw [hn]; decide, ?_, fun _ => rfl,
    fun hd => absurd rfl hd, fun hd => absurd rfl hd⟩
  · rw [hr] at h254
    omega
  · rw [hcount]
    exact hend

/-! ### Every effect keeps the invariants -/

/-- A traversal in progress has the stream open. -/
theorem State.PassInv.phase_ne_done {s : State} {p : Pass} (h : s.PassInv) (hp : s.pass = some p) :
    s.phase ≠ .done := by
  rcases h.phase_of_some hp with h | h <;> simp [h]

theorem Effect.coderInv {i : Instr} {s t : State} (h : Effect i s t) (hi : s.CoderInv) (hp : s.PassInv) :
    t.CoderInv := by
  cases h with
  | start psize => exact startFrame_coderInv psize s
  | append _ _ _ => exact hi.of_same (tbAppend_same _ s nofun nofun) (by rw [tbAppend_phase]; exact id)
  | tallied _ h =>
    obtain ⟨-, rfl⟩ := record_eq_next.mp h
    exact hi.of_same ⟨rfl, rfl, rfl, rfl, rfl, rfl⟩ id
  | finalize hph => exact hi.of_same (finalizeTable_same s nofun nofun nofun) (by simp [hph])
  | cursor _ _ _ => exact hi.of_same (withPass_same _ s _) id
  | coded _ _ hpass h => exact putBit_coderInv hi (hp.phase_ne_done hpass) h
  | closeEmit hpass => exact hi.of_same (closeEmit_same s nofun nofun nofun) fun _ => hp.phase_ne_done hpass
  | closeEstimate _ => exact hi.of_same (closeEstimate_same _ s nofun) id
  | finish hph hpad hext hflush => exact finish_coderInv hi hph hpad hext hflush
  | clear => exact hi.of_same (clear_same s nofun nofun) id

/-- The invariants of the coder and of the traversal, which are inductive together. -/
def State.CoderPassInv (s : State) : Prop := s.CoderInv ∧ s.PassInv

theorem Effect.coderPassInv {i : Instr} {s t : State} (h : Effect i s t) (hs : s.CoderPassInv) : t.CoderPassInv := by
  obtain ⟨hi, hp⟩ := hs
  exact ⟨h.coderInv hi hp, h.passInv hp⟩

theorem withCmds_coderPassInv (s : State) (cmds : List CmdWord) (hs : s.CoderPassInv) :
    ({ s with cmds := cmds } : State).CoderPassInv := by
  obtain ⟨hi, hp⟩ := hs
  exact ⟨hi.of_same ⟨rfl, rfl, rfl, rfl, rfl, rfl⟩ id, hp.congr rfl rfl⟩

/-- Settles O55: a coded bit keeps the invariants while the stream is open, and FINISH meets those of a closed one. -/
theorem stepKeepsCoderInvariants : Obligations.StepKeepsCoderInvariants := by
  intro s t hi hp h
  exact step_preserves withCmds_coderPassInv (fun _ _ _ he => he.coderPassInv) h ⟨hi, hp⟩

end Sys2Proof.Machine

/-! ### A carry always finds a held byte (10_state.md R17 (e), 44_range_coder.md R156 (d)) -/

namespace Sys2Proof.Machine

/-- The outcome is not the fault `CarryNoHeld`. -/
def NoCarryFault (r : Result) : Prop := ∀ left, r ≠ .fault (.carryNoHeld left)

theorem noCarryFault_next (s : State) : NoCarryFault (.next s) := fun _ h => nomatch h

theorem noCarryFault_refused (x : Refusal) : NoCarryFault (.refused x) := fun _ h => nomatch h

theorem noCarryFault_andThen {r : Result} {f : State → Result} (hr : NoCarryFault r)
    (hf : ∀ s, r = .next s → NoCarryFault (f s)) : NoCarryFault (andThen r f) := by
  cases r with
  | next s => exact hf s rfl
  | fault x => exact hr
  | refused x => exact hr

theorem noCarryFault_raiseFault {n : FaultName} (hn : n ≠ .carryNoHeld) (s : State) :
    NoCarryFault (raiseFault n s) := by
  intro left h
  cases n with
  | carryNoHeld => exact hn rfl
  | outOverflow | tallyCountOverflow => cases h

theorem noCarryFault_reservedToken (s : State) : NoCarryFault (.fault (.reservedToken s)) := fun _ h => nomatch h

/-- Ending a traversal keeps the name of a fault. -/
theorem noCarryFault_endOnFault {r : Result} (h : NoCarryFault r) : NoCarryFault (endOnFault r) := by
  intro left e
  obtain ⟨y, rfl, hy⟩ := endOnFault_eq_fault.mp e
  cases y with
  | carryNoHeld s => exact h s rfl
  | outOverflow s | tallyCountOverflow s | reservedToken s => cases hy

theorem noCarryFault_ite {c : Prop} [Decidable c] {r q : Result} (hr : c → NoCarryFault r) (hq : NoCarryFault q) :
    NoCarryFault (if c then r else q) := by
  by_cases h : c
  · rw [if_pos h]; exact hr h
  · rw [if_neg h]; exact hq

/-! ### The operations that cannot meet a carry -/

theorem writeByte_noCarryFault (b : Byte) (s : State) : NoCarryFault (writeByte b s) :=
  noCarryFault_ite (fun _ => noCarryFault_raiseFault (by decide) s) (noCarryFault_next _)

theorem writeBytes_noCarryFault (n : Nat) (b : Byte) (s : State) : NoCarryFault (writeBytes n b s) := by
  induction n generalizing s with
  | zero => exact noCarryFault_next s
  | succ n ih => exact noCarryFault_andThen (writeByte_noCarryFault b s) fun u _ => ih u

theorem flushPending_noCarryFault (s : State) : NoCarryFault (flushPending s) :=
  noCarryFault_andThen (noCarryFault_ite (fun _ => noCarryFault_next s) (writeByte_noCarryFault _ s))
    fun u _ => writeBytes_noCarryFault _ _ u

theorem record_noCarryFault (j : Slot) (bit : Bool) (s : State) : NoCarryFault (record j bit s) :=
  noCarryFault_ite (fun _ => noCarryFault_raiseFault (by decide) s) (noCarryFault_next _)

theorem runDecisions_noCarryFault (ds : List Decision) (s : State) : NoCarryFault (runDecisions ds s) := by
  induction ds generalizing s with
  | nil => exact noCarryFault_next s
  | cons d ds ih =>
    refine noCarryFault_andThen ?_ fun u _ => ih u
    cases d with
    | dyn bit j => exact record_noCarryFault j bit _
    | const bit prob => exact noCarryFault_next _

/-! ### The operations that can -/

/-- The one place that raises the fault: a carry with no held byte (44_range_coder.md R144). -/
theorem pack_noCarryFault {bits : BitVec 24} {s : State} (h : carryBit bits = true → s.held ≠ 0xFF) :
    NoCarryFault (pack bits s) := by
  have hcarry (hc : carryBit bits = true) : NoCarryFault (resolveCarry s) := by
    rw [resolveCarry, if_neg (h hc)]
    exact noCarryFault_andThen (writeByte_noCarryFault _ s) fun u _ => writeBytes_noCarryFault _ _ u
  exact noCarryFault_ite (fun _ => noCarryFault_next _)
    (noCarryFault_andThen (noCarryFault_ite hcarry (flushPending_noCarryFault s)) fun _ _ => noCarryFault_next _)

/-- EXTRACT of a group of at most nine bits that is below the carry while no byte is held. -/
theorem extract_noCarryFault {s : State} {m : Nat} (hm : (8 + s.nbBits.toInt).toNat = m)
    (hlt : s.value.toNat / 2 ^ m < 512) (hempty : s.held = 0xFF → s.value.toNat / 2 ^ m < 256) :
    NoCarryFault (extract s) := by
  have hg := (extract_values hm).1
  rw [extract_eq_pack, hm]
  refine pack_noCarryFault fun hc hheld => ?_
  have h256 := (carryBit_iff (by omega)).mp hc
  have := hempty hheld
  omega

theorem putBit_noCarryFault {bit : Bool} {prob : Prob} {s : State} (hi : s.CoderInv) (hp : s.phase ≠ .done) :
    NoCarryFault (putBit bit prob s) := by
  rw [putBit_eq hi]
  refine noCarryFault_ite (fun hpos => ?_) (noCarryFault_next _)
  have h1 : 1 ≤ s.range.toNat := by have := hi.range_low; omega
  obtain ⟨hm, -⟩ := codeBit_group hi hpos
  obtain ⟨h382, hempty⟩ := group_bounds (bit := bit) (prob := prob) hi hp
  rw [← codeBit_value h1 hi.bits_high hi.upper] at h382 hempty
  exact extract_noCarryFault hm (by omega) fun hheld => (by have := hempty hheld; omega)

theorem padBits_noCarryFault {n : Nat} {s : State} (hi : s.CoderInv) (hp : s.phase ≠ .done) :
    NoCarryFault (padBits n s) := by
  induction n generalizing s with
  | zero => exact noCarryFault_next s
  | succ n ih =>
    refine noCarryFault_andThen (putBit_noCarryFault hi hp) fun u hu => ?_
    exact ih (putBit_coderInv hi hp hu) (by rwa [(putBit_frame hu).phase])

/-- The forced extraction takes a group that the open stream's bounds keep below 383, and below 255 with no byte
held. -/
theorem forceExtract_noCarryFault {s : State} (hi : s.CoderInv) (hp : s.phase ≠ .done) :
    NoCarryFault (forceExtract s) := by
  have hcount : 2 ^ s.bitCount ≤ 2 ^ 8 := by
    refine Nat.pow_le_pow_right (by omega) ?_
    have := hi.bits_high
    unfold State.bitCount
    omega
  have hopen := hi.open_upper hp
  have hempty := hi.empty_upper hp
  unfold State.upperEnd at hopen hempty
  refine extract_noCarryFault (s := { s with nbBits := 0 }) (m := 8) rfl ?_ fun hheld => ?_
  · simp only
    omega
  · have := hempty hheld
    simp only
    omega

theorem execFinish_noCarryFault {s : State} (hi : s.CoderInv) : NoCarryFault (execFinish s) := by
  refine noCarryFault_ite (fun hp => ?_) (noCarryFault_refused _)
  have hopen : s.phase ≠ .done := by simp [hp]
  refine noCarryFault_andThen (padBits_noCarryFault hi hopen) fun s1 h1 => ?_
  have hopen1 : s1.phase ≠ .done := by rwa [(padBits_frame h1).phase]
  refine noCarryFault_andThen (forceExtract_noCarryFault (padBits_coderInv hi hopen h1).1 hopen1) fun s2 _ => ?_
  exact noCarryFault_andThen (flushPending_noCarryFault s2) fun _ _ => noCarryFault_next _

theorem runBit_noCarryFault {bit : Bool} {prob : Prob} {s : State} (hi : s.CoderInv)
    (hp : s.pass ≠ none → s.phase ≠ .done) : NoCarryFault (runBit bit prob s) := by
  unfold runBit
  split
  next todo hpass => exact noCarryFault_endOnFault (putBit_noCarryFault hi (hp (by simp [hpass])))
  next => exact noCarryFault_next _
  next => exact noCarryFault_refused _

theorem execTokDyn_noCarryFault {bit : Bool} {slot : BitVec 14} {s : State} (hi : s.CoderInv)
    (hp : s.pass ≠ none → s.phase ≠ .done) : NoCarryFault (execTokDyn bit slot s) := by
  unfold execTokDyn
  split
  · exact noCarryFault_reservedToken _
  · exact runBit_noCarryFault hi hp

theorem runToken_noCarryFault {w : TokWord} {s : State} (hi : s.CoderInv) (hp : s.pass ≠ none → s.phase ≠ .done) :
    NoCarryFault (runToken w s) := by
  rcases runToken_eq_fault_or w s with ⟨bit, slot, -, e⟩ | ⟨bit, prob, -, e⟩ | e <;> rw [e]
  · exact execTokDyn_noCarryFault hi hp
  · exact runBit_noCarryFault hi hp
  · exact noCarryFault_reservedToken _

/-- Through a whole traversal the invariants hold from token word to token word. -/
theorem runTokens_noCarryFault {ts : List TokWord} {s : State} {p : Pass} (hpass : s.pass = some p)
    (hs : s.CoderPassInv) : NoCarryFault (runTokens ts s) := by
  induction ts generalizing s p with
  | nil => exact noCarryFault_next _
  | cons w ts ih =>
    have hadv := advance_of_pass hpass ts
    have hs' : (s.advance ts).CoderPassInv := by
      rw [hadv]
      exact (Effect.cursor p.command _ (.inl (by simp [hpass]))).coderPassInv hs
    have hpass' : (s.advance ts).pass = some (p.withTodo ts) := by rw [hadv]
    have hopen := State.PassInv.phase_ne_done hs'.2 hpass'
    refine noCarryFault_andThen (runToken_noCarryFault hs'.1 fun _ => hopen) fun u hu => ?_
    obtain ⟨he, p', hp', -⟩ := runToken_effect hpass' hu
    exact ih hp' (he.coderPassInv hs')

theorem traverse_noCarryFault {kind : List TokWord → Pass} {s : State} (hi : s.CoderInv)
    (hp : s.phase = .recording ∨ s.phase = .finalized) : NoCarryFault (traverse kind s) :=
  runTokens_noCarryFault rfl ⟨hi.of_same (withPass_same _ s _) id, fun _ => hp⟩

/-- Settles O46, instruction by instruction. -/
theorem carryAlwaysFindsAHeldByte : Obligations.CarryAlwaysFindsAHeldByte := by
  intro i s left hi hp
  have key : NoCarryFault (exec i s) := by
    cases i with
    | init psize => exact noCarryFault_next _
    | recblk ctx ctype first last co =>
      exact noCarryFault_ite
        (fun _ => noCarryFault_ite (fun _ => runDecisions_noCarryFault _ s) (noCarryFault_refused _))
        (noCarryFault_refused _)
    | appd bit slot =>
      simp only [exec, execAppd]
      split
      · exact noCarryFault_refused _
      · exact noCarryFault_ite (fun _ => noCarryFault_next _) (noCarryFault_refused _)
    | appc bit prob => exact noCarryFault_ite (fun _ => noCarryFault_next _) (noCarryFault_refused _)
    | tally bit slot =>
      simp only [exec, execTally]
      split
      · exact noCarryFault_refused _
      · exact noCarryFault_ite (fun _ => record_noCarryFault _ _ s) (noCarryFault_refused _)
    | finalize => exact noCarryFault_ite (fun _ => noCarryFault_next _) (noCarryFault_refused _)
    | estimate => exact noCarryFault_ite (traverse_noCarryFault hi) (noCarryFault_refused _)
    | emit => exact noCarryFault_ite (traverse_noCarryFault hi) (noCarryFault_refused _)
    | finish => exact execFinish_noCarryFault hi
    | clear => exact noCarryFault_ite (fun _ => noCarryFault_refused _) (noCarryFault_next _)
    | tokDyn bit slot => exact execTokDyn_noCarryFault hi fun _ => hp
    | tokConst bit prob => exact runBit_noCarryFault hi fun _ => hp
  exact key left

end Sys2Proof.Machine

/-! ### The opcode map read by fields (30_encoding.md R61 to R72) -/

namespace Sys2Proof

/-- Appended masks act part by part. -/
theorem append_and_eq_iff {n k : Nat} {x m p : BitVec n} {y m' p' : BitVec k} :
    (x ++ y) &&& (m ++ m') = p ++ p' ↔ x &&& m = p ∧ y &&& m' = p' := by
  rw [BitVec.and_append]
  constructor
  · intro h
    have hx := congrArg (BitVec.extractLsb' k n) h
    have hy := congrArg (BitVec.extractLsb' 0 k) h
    simp only [BitVec.extractLsb'_append_eq_left, BitVec.extractLsb'_append_eq_right] at hx hy
    exact ⟨hx, hy⟩
  · rintro ⟨hx, hy⟩
    rw [hx, hy]

/-- Two neighbouring fields, the lower one first. -/
theorem fields_append {n : Nat} (w : BitVec n) (start low high : Nat) :
    w.extractLsb' (start + low) high ++ w.extractLsb' start low = w.extractLsb' start (high + low) :=
  BitVec.extractLsb'_append_extractLsb'_eq_extractLsb' rfl

/-- A command word is its opcode and the 24 bits below it (30_encoding.md R65). -/
theorem opcode_append_operand (w : CmdWord) : opcodeOf w ++ w.extractLsb' 0 24 = w :=
  (fields_append w 0 24 8).trans BitVec.extractLsb'_eq_self

/-- The operand of a RECBLK command word: bits 23..13, and the fields below (30_encoding.md R67). -/
theorem recblk_operand (w : CmdWord) : w.extractLsb' 13 11 ++ w.extractLsb' 0 13 = w.extractLsb' 0 24 :=
  fields_append w 0 13 11

/-- The operand of a token command word: bits 23..16, and a token word (30_encoding.md R68). -/
theorem cmdt_operand (w : CmdWord) : w.extractLsb' 16 8 ++ w.extractLsb' 0 16 = w.extractLsb' 0 24 :=
  fields_append w 0 16 8

/-- A command word matches the row of an opcode when its opcode and its operand do. -/
theorem rowMatches_iff (w : CmdWord) (op : BitVec 8) (mask pattern : BitVec 24) :
    rowMatches w (0xFF#8 ++ mask) (op ++ pattern) = true ↔ opcodeOf w = op ∧ w.extractLsb' 0 24 &&& mask = pattern := by
  rw [rowMatches, beq_iff_eq]
  conv_lhs => rw [← opcode_append_operand w]
  rw [append_and_eq_iff, show 0xFF#8 = BitVec.allOnes 8 from rfl, BitVec.and_allOnes]

/-- An operand all of whose bits must be zero (30_encoding.md R70). -/
theorem rowMatches_bare (w : CmdWord) (op : BitVec 8) :
    rowMatches w 0xFFFFFFFF (op ++ 0#24) = true ↔ opcodeOf w = op ∧ w.extractLsb' 0 24 = 0 := by
  rw [show (0xFFFFFFFF : CmdWord) = 0xFF#8 ++ BitVec.allOnes 24 from rfl, rowMatches_iff, BitVec.and_allOnes]
  rfl

theorem rowMatches_init (w : CmdWord) : rowMatches w 0xFF000000 0x01000000 = true ↔ opcodeOf w = 0x01 := by
  rw [show (0xFF000000 : CmdWord) = 0xFF#8 ++ 0#24 from rfl, show (0x01000000 : CmdWord) = 0x01#8 ++ 0#24 from rfl,
    rowMatches_iff, BitVec.and_zero, and_iff_left rfl]
  rfl

theorem rowMatches_recblk (w : CmdWord) :
    rowMatches w 0xFFFFE000 0x02000000 = true ↔ opcodeOf w = 0x02 ∧ w.extractLsb' 13 11 = 0 := by
  rw [show (0xFFFFE000 : CmdWord) = 0xFF#8 ++ (BitVec.allOnes 11 ++ 0#13) from rfl,
    show (0x02000000 : CmdWord) = 0x02#8 ++ (0#11 ++ 0#13) from rfl, rowMatches_iff, ← recblk_operand,
    append_and_eq_iff, BitVec.and_allOnes, BitVec.and_zero, and_iff_left rfl]
  rfl

/-- The row of a token command: bits 23..16 must be zero, and the token word matches. -/
theorem rowMatches_cmdt (w : CmdWord) (op : BitVec 8) (mask pattern : TokWord) :
    rowMatches w (0xFF#8 ++ (0xFF#8 ++ mask)) (op ++ (0#8 ++ pattern)) = true ↔
      opcodeOf w = op ∧ w.extractLsb' 16 8 = 0 ∧ w.extractLsb' 0 16 &&& mask = pattern := by
  rw [rowMatches_iff, ← cmdt_operand, append_and_eq_iff, show 0xFF#8 = BitVec.allOnes 8 from rfl, BitVec.and_allOnes]
  rfl

/-- One bit as a field. -/
theorem extractLsb'_one {n : Nat} (w : BitVec n) (k : Nat) : w.extractLsb' k 1 = BitVec.ofBool (w.getLsbD k) := by
  apply BitVec.eq_of_getLsbD_eq
  intro i hi
  obtain rfl : i = 0 := by omega
  simp

/-- The fields of a token word: the bit, the kind, and the slot field (30_encoding.md R61). -/
theorem token_fields {n : Nat} (w : BitVec n) :
    BitVec.ofBool (bitField w) ++ BitVec.ofBool (w.getLsbD 14) ++ slotField w = w.extractLsb' 0 16 := by
  rw [bitField, slotField, ← extractLsb'_one, ← extractLsb'_one, fields_append w 14 1 1]
  exact fields_append w 0 14 2

/-- The slot field of a constant token: bits 13..8 that must be zero, and the probability (30_encoding.md R61). -/
theorem const_fields {n : Nat} (w : BitVec n) : w.extractLsb' 8 6 ++ probField w = slotField w :=
  fields_append w 0 8 6

theorem dynWord_of_fields {n : Nat} {w : BitVec n} (h : w.getLsbD 14 = false) :
    dynWord (bitField w) (slotField w) = w.extractLsb' 0 16 := by
  rw [← token_fields, h]
  rfl

theorem constWord_of_fields {n : Nat} {w : BitVec n} (h : w.getLsbD 14 = true) (hz : w.extractLsb' 8 6 = 0) :
    constWord (bitField w) (probField w) = w.extractLsb' 0 16 := by
  rw [← token_fields, h, ← const_fields, hz, constWord, BitVec.append_assoc (x₃ := probField w)]
  rfl

/-- The row of a command with a slot: bits 23..16 and bit 14 must be zero (30_encoding.md R68, R69). -/
theorem rowMatches_slot (w : CmdWord) (op : BitVec 8) :
    rowMatches w 0xFFFF4000 (op ++ 0#24) = true ↔
      opcodeOf w = op ∧ w.extractLsb' 16 8 = 0 ∧ w.getLsbD 14 = false := by
  have hrow := rowMatches_cmdt w op (0#1 ++ 1#1 ++ 0#14) (0#1 ++ 0#1 ++ 0#14)
  rw [← token_fields, append_and_eq_iff, append_and_eq_iff, BitVec.and_zero, BitVec.and_zero] at hrow
  refine hrow.trans (and_congr_right' (and_congr_right' ?_))
  cases w.getLsbD 14 <;> decide

/-- The row of APPC: bits 23..16 and 13..8 must be zero, and bit 14 one (30_encoding.md R68). -/
theorem rowMatches_appc (w : CmdWord) :
    rowMatches w 0xFFFF7F00 0x03004000 = true ↔
      opcodeOf w = 0x03 ∧ w.extractLsb' 16 8 = 0 ∧ w.getLsbD 14 = true ∧ w.extractLsb' 8 6 = 0 := by
  have hrow := rowMatches_cmdt w 0x03 (0#1 ++ 1#1 ++ (BitVec.allOnes 6 ++ 0#8)) (0#1 ++ 1#1 ++ (0#6 ++ 0#8))
  rw [← token_fields, ← const_fields, append_and_eq_iff, append_and_eq_iff, append_and_eq_iff, BitVec.and_zero,
    BitVec.and_zero, BitVec.and_allOnes] at hrow
  refine hrow.trans (and_congr_right' (and_congr_right' (and_congr ?_ (and_iff_left rfl))))
  cases w.getLsbD 14 <;> decide

/-! ### Decoding, opcode by opcode -/

/-- The commands without operands, by opcode (30_encoding.md R70, R71). -/
def bareCommands : List (BitVec 8 × Instr) :=
  [(0x05, .finalize), (0x06, .estimate), (0x07, .emit), (0x08, .finish), (0x09, .clear)]

/-- Every opcode is one of the table's, or reserved (30_encoding.md R71, R72). -/
theorem opcode_cases (op : BitVec 8) :
    op = 0x01 ∨ op = 0x02 ∨ op = 0x03 ∨ op = 0x04 ∨ (∃ i, (op, i) ∈ bareCommands) ∨ op = 0x00 ∨ 0x0A ≤ op := by
  have hbare : (∃ i, (op, i) ∈ bareCommands) ↔ op ∈ bareCommands.map Prod.fst := by simp
  rw [hbare]
  clear hbare
  revert op
  decide

/-- The decoder with its rows read by fields. -/
theorem decodeCommand_by_fields (w : CmdWord) (data : List CmdWord) :
    decodeCommand w data =
      if opcodeOf w = 0x01 then .ok (.init (w.extractLsb' 0 24))
      else if opcodeOf w = 0x02 ∧ w.extractLsb' 13 11 = 0 then decodeRecblk w data
      else if opcodeOf w = 0x03 ∧ w.extractLsb' 16 8 = 0 ∧ w.getLsbD 14 = false then
        if (slotField w).toNat < 1056 then .ok (.appd (bitField w) (slotField w)) else .error .slotOutOfRange
      else if opcodeOf w = 0x03 ∧ w.extractLsb' 16 8 = 0 ∧ w.getLsbD 14 = true ∧ w.extractLsb' 8 6 = 0 then
        .ok (.appc (bitField w) (probField w))
      else if opcodeOf w = 0x04 ∧ w.extractLsb' 16 8 = 0 ∧ w.getLsbD 14 = false then
        if (slotField w).toNat < 1056 then .ok (.tally (bitField w) (slotField w)) else .error .slotOutOfRange
      else if opcodeOf w = 0x05 ∧ w.extractLsb' 0 24 = 0 then .ok .finalize
      else if opcodeOf w = 0x06 ∧ w.extractLsb' 0 24 = 0 then .ok .estimate
      else if opcodeOf w = 0x07 ∧ w.extractLsb' 0 24 = 0 then .ok .emit
      else if opcodeOf w = 0x08 ∧ w.extractLsb' 0 24 = 0 then .ok .finish
      else if opcodeOf w = 0x09 ∧ w.extractLsb' 0 24 = 0 then .ok .clear
      else .error (noRow w) := by
  simp only [← rowMatches_init, ← rowMatches_recblk, ← rowMatches_slot, ← rowMatches_appc, ← rowMatches_bare]
  rfl

section

variable {w : CmdWord} (data : List CmdWord)

theorem decodeCommand_init (h : opcodeOf w = 0x01) : decodeCommand w data = .ok (.init (w.extractLsb' 0 24)) := by
  simp [decodeCommand_by_fields, h]

theorem decodeCommand_recblk (h : opcodeOf w = 0x02) :
    decodeCommand w data = if w.extractLsb' 13 11 = 0 then decodeRecblk w data else .error .mustBeZero := by
  simp [decodeCommand_by_fields, h, noRow]

/-- The two token commands tell their kinds apart as a token word does (30_encoding.md R68). -/
theorem decodeCommand_append (h : opcodeOf w = 0x03) :
    decodeCommand w data =
      if w.extractLsb' 16 8 ≠ 0 then .error .mustBeZero
      else if w.getLsbD 14 then
        if w.extractLsb' 8 6 = 0 then .ok (.appc (bitField w) (probField w)) else .error .mustBeZero
      else if (slotField w).toNat < 1056 then .ok (.appd (bitField w) (slotField w)) else .error .slotOutOfRange := by
  rw [decodeCommand_by_fields, noRow, h]
  generalize w.extractLsb' 16 8 = z
  cases w.getLsbD 14 <;> by_cases hz : z = 0#8 <;> simp [hz]

theorem decodeCommand_tally (h : opcodeOf w = 0x04) :
    decodeCommand w data =
      if w.extractLsb' 16 8 ≠ 0 ∨ w.getLsbD 14 = true then .error .mustBeZero
      else if (slotField w).toNat < 1056 then .ok (.tally (bitField w) (slotField w)) else .error .slotOutOfRange := by
  rw [decodeCommand_by_fields, noRow, h]
  generalize w.extractLsb' 16 8 = z
  cases w.getLsbD 14 <;> by_cases hz : z = 0#8 <;> simp [hz]

theorem decodeCommand_bare {i : Instr} (h : (opcodeOf w, i) ∈ bareCommands) :
    decodeCommand w data = if w.extractLsb' 0 24 = 0 then .ok i else .error .mustBeZero := by
  simp only [bareCommands, List.mem_cons, Prod.mk.injEq, List.not_mem_nil, or_false] at h
  rcases h with ⟨h, rfl⟩ | ⟨h, rfl⟩ | ⟨h, rfl⟩ | ⟨h, rfl⟩ | ⟨h, rfl⟩ <;>
    simp [decodeCommand_by_fields, h, noRow]

theorem decodeCommand_reserved (h : opcodeOf w = 0x00 ∨ 0x0A ≤ opcodeOf w) :
    decodeCommand w data = .error .reservedOpcode := by
  have hne : ∀ op : BitVec 8, 0x01 ≤ op → op ≤ 0x09 → opcodeOf w ≠ op := by
    intro op _ _ heq
    bv_omega
  have hrow : ¬(0x01 ≤ opcodeOf w ∧ opcodeOf w ≤ 0x09) := fun ⟨h1, h9⟩ => hne _ h1 h9 rfl
  rw [decodeCommand_by_fields, noRow, if_neg hrow]
  simp [hne]

end

/-! ### Lengths and data words (30_encoding.md R67, R73) -/

theorem commandLength_of_ne {w : CmdWord} (h : opcodeOf w ≠ 0x02) : commandLength w = 1 := if_neg h

theorem commandLength_recblk {w : CmdWord} (h : opcodeOf w = 0x02) : commandLength w = 9 := if_pos h

/-- A one-word command has no data words. -/
theorem data_eq_nil {w : CmdWord} {data : List CmdWord} (hlen : data.length + 1 = commandLength w)
    (h : opcodeOf w ≠ 0x02) : data = [] := by
  rw [commandLength_of_ne h] at hlen
  exact List.eq_nil_of_length_eq_zero (by omega)

/-- A command of one word decodes as its word does. -/
theorem decode_single {w : CmdWord} (h : opcodeOf w ≠ 0x02) : decode (.command [w]) = decodeCommand w [] := by
  rw [decode, commandLength_of_ne h, if_pos (by rfl)]

theorem dataWord_even (even odd : Coef) : (dataWord even odd).extractLsb' 0 16 = even :=
  BitVec.extractLsb'_append_eq_right

theorem dataWord_odd (even odd : Coef) : (dataWord even odd).extractLsb' 16 16 = odd :=
  BitVec.extractLsb'_append_eq_left

theorem dataWord_halves (d : CmdWord) : dataWord (d.extractLsb' 0 16) (d.extractLsb' 16 16) = d :=
  (fields_append d 0 16 16).trans BitVec.extractLsb'_eq_self

theorem coefsOf_dataWords (co : Vector Coef 16) :
    coefsOf #v[dataWord co[0] co[1], dataWord co[2] co[3], dataWord co[4] co[5], dataWord co[6] co[7],
      dataWord co[8] co[9], dataWord co[10] co[11], dataWord co[12] co[13], dataWord co[14] co[15]] = co := by
  apply Vector.ext
  intro i hi
  simp only [coefsOf, Vector.getElem_mk, List.getElem_toArray]
  interval_cases i <;> simp [dataWord_even, dataWord_odd]

theorem dataWords_coefsOf (d0 d1 d2 d3 d4 d5 d6 d7 : CmdWord) :
    dataWords (coefsOf #v[d0, d1, d2, d3, d4, d5, d6, d7]) = [d0, d1, d2, d3, d4, d5, d6, d7] := by
  simp [dataWords, coefsOf, dataWord_halves]

/-! ### The words that `encode` writes, field by field -/

theorem opcodeOf_append (op : BitVec 8) (x : BitVec 24) : opcodeOf (op ++ x) = op := BitVec.extractLsb'_append_eq_left

theorem operand_append (op : BitVec 8) (x : BitVec 24) : (op ++ x : CmdWord).extractLsb' 0 24 = x :=
  BitVec.extractLsb'_append_eq_right

/-- A token command word (30_encoding.md R68). -/
def cmdtWord (op : BitVec 8) (t : TokWord) : CmdWord := op ++ 0#8 ++ t

section

variable (op : BitVec 8) (t : TokWord)

theorem opcodeOf_cmdtWord : opcodeOf (cmdtWord op t) = op := by
  rw [opcodeOf, cmdtWord, BitVec.extractLsb'_append_eq_of_le (by omega)]
  exact BitVec.extractLsb'_append_eq_left

theorem zeroField_cmdtWord : (cmdtWord op t).extractLsb' 16 8 = 0 := by
  rw [cmdtWord, BitVec.extractLsb'_append_eq_of_le (by omega)]
  exact BitVec.extractLsb'_append_eq_right

theorem getLsbD_cmdtWord {k : Nat} (hk : k < 16) : (cmdtWord op t).getLsbD k = t.getLsbD k := by
  rw [cmdtWord, BitVec.getLsbD_append, if_pos hk]

theorem bitField_cmdtWord : bitField (cmdtWord op t) = bitField t := getLsbD_cmdtWord op t (by decide)

theorem slotField_cmdtWord : slotField (cmdtWord op t) = slotField t :=
  BitVec.extractLsb'_append_eq_of_add_le (by omega)

theorem probField_cmdtWord : probField (cmdtWord op t) = probField t :=
  BitVec.extractLsb'_append_eq_of_add_le (by omega)

theorem zeroProbField_cmdtWord : (cmdtWord op t).extractLsb' 8 6 = t.extractLsb' 8 6 :=
  BitVec.extractLsb'_append_eq_of_add_le (by omega)

end

/-- A word whose must-be-zero bits 23..16 are clear is the token command word of its token word. -/
theorem cmdtWord_of_fields {w : CmdWord} (h : w.extractLsb' 16 8 = 0) :
    cmdtWord (opcodeOf w) (w.extractLsb' 0 16) = w := by
  have hw : opcodeOf w ++ (w.extractLsb' 16 8 ++ w.extractLsb' 0 16) = w := by
    rw [cmdt_operand]; exact opcode_append_operand w
  rw [h, BitVec.append_assoc'] at hw
  exact hw

theorem cmdtWord_dynWord_of_fields {w : CmdWord} (hz : w.extractLsb' 16 8 = 0) (hk : w.getLsbD 14 = false) :
    cmdtWord (opcodeOf w) (dynWord (bitField w) (slotField w)) = w := by
  rw [dynWord_of_fields hk, cmdtWord_of_fields hz]

theorem cmdtWord_constWord_of_fields {w : CmdWord} (hz : w.extractLsb' 16 8 = 0) (hk : w.getLsbD 14 = true)
    (hp : w.extractLsb' 8 6 = 0) : cmdtWord (opcodeOf w) (constWord (bitField w) (probField w)) = w := by
  rw [constWord_of_fields hk hp, cmdtWord_of_fields hz]

/-- The RECBLK command word (30_encoding.md R67). -/
def recblkWord (ctx ctype : BitVec 2) (first : BitVec 4) (last : BitVec 5) : CmdWord :=
  0x02#8 ++ 0#11 ++ last ++ first ++ ctype ++ ctx

section

variable (ctx ctype : BitVec 2) (first : BitVec 4) (last : BitVec 5)

theorem opcodeOf_recblkWord : opcodeOf (recblkWord ctx ctype first last) = 0x02 := by
  rw [opcodeOf, recblkWord]
  iterate 4 rw [BitVec.extractLsb'_append_eq_of_le (by omega)]
  exact BitVec.extractLsb'_append_eq_left

theorem zeroField_recblkWord : (recblkWord ctx ctype first last).extractLsb' 13 11 = 0 := by
  rw [recblkWord]
  iterate 4 rw [BitVec.extractLsb'_append_eq_of_le (by omega)]
  exact BitVec.extractLsb'_append_eq_right

theorem ctxField_recblkWord : (recblkWord ctx ctype first last).extractLsb' 0 2 = ctx :=
  BitVec.extractLsb'_append_eq_right

theorem typeField_recblkWord : (recblkWord ctx ctype first last).extractLsb' 2 2 = ctype := by
  rw [recblkWord, BitVec.extractLsb'_append_eq_of_le (by omega)]
  exact BitVec.extractLsb'_append_eq_right

theorem firstField_recblkWord : (recblkWord ctx ctype first last).extractLsb' 4 4 = first := by
  rw [recblkWord]
  iterate 2 rw [BitVec.extractLsb'_append_eq_of_le (by omega)]
  exact BitVec.extractLsb'_append_eq_right

theorem lastField_recblkWord : (recblkWord ctx ctype first last).extractLsb' 8 5 = last := by
  rw [recblkWord]
  iterate 3 rw [BitVec.extractLsb'_append_eq_of_le (by omega)]
  exact BitVec.extractLsb'_append_eq_right

end

theorem recblkWord_of_fields {w : CmdWord} (hop : opcodeOf w = 0x02) (h : w.extractLsb' 13 11 = 0) :
    recblkWord (w.extractLsb' 0 2) (w.extractLsb' 2 2) (w.extractLsb' 4 4) (w.extractLsb' 8 5) = w := by
  have hop' : 0x02#8 = w.extractLsb' 24 8 := hop.symm
  have h' : 0#11 = w.extractLsb' 13 11 := h.symm
  rw [recblkWord, hop', h', fields_append w 13 11 8, fields_append w 8 5 19, fields_append w 4 4 24,
    fields_append w 2 2 28, fields_append w 0 2 30]
  exact BitVec.extractLsb'_eq_self

theorem encode_init (psize : BitVec 24) : encode (.init psize) = .command [0x01#8 ++ psize] := rfl

theorem encode_recblk (ctx ctype : BitVec 2) (first : BitVec 4) (last : BitVec 5) (co : Vector Coef 16) :
    encode (.recblk ctx ctype first last co) = .command (recblkWord ctx ctype first last :: dataWords co) := rfl

theorem encode_appd (bit : Bool) (slot : BitVec 14) :
    encode (.appd bit slot) = .command [cmdtWord 0x03 (dynWord bit slot)] := rfl

theorem encode_appc (bit : Bool) (prob : Prob) :
    encode (.appc bit prob) = .command [cmdtWord 0x03 (constWord bit prob)] := rfl

theorem encode_tally (bit : Bool) (slot : BitVec 14) :
    encode (.tally bit slot) = .command [cmdtWord 0x04 (dynWord bit slot)] := rfl

/-! ### Encoding and decoding agree -/

theorem decode_cmdt {op : BitVec 8} (t : TokWord) (h : op ≠ 0x02) :
    decode (.command [cmdtWord op t]) = decodeCommand (cmdtWord op t) [] :=
  decode_single (by rwa [opcodeOf_cmdtWord])

theorem decode_appd {bit : Bool} {slot : BitVec 14} (h : slot.toNat < 1056) :
    decode (.command [cmdtWord 0x03 (dynWord bit slot)]) = .ok (.appd bit slot) := by
  rw [decode_cmdt _ (by decide), decodeCommand_append _ (opcodeOf_cmdtWord _ _), zeroField_cmdtWord,
    getLsbD_cmdtWord _ _ (by decide), Machine.getLsbD_dynWord, slotField_cmdtWord, bitField_cmdtWord,
    Machine.slotField_dynWord, Machine.bitField_dynWord]
  simp [h]

theorem decode_appc (bit : Bool) (prob : Prob) :
    decode (.command [cmdtWord 0x03 (constWord bit prob)]) = .ok (.appc bit prob) := by
  rw [decode_cmdt _ (by decide), decodeCommand_append _ (opcodeOf_cmdtWord _ _), zeroField_cmdtWord,
    getLsbD_cmdtWord _ _ (by decide), Machine.getLsbD_constWord, zeroProbField_cmdtWord, Machine.zeroField_constWord,
    probField_cmdtWord, bitField_cmdtWord, Machine.probField_constWord, Machine.bitField_constWord]
  simp

theorem decode_tally {bit : Bool} {slot : BitVec 14} (h : slot.toNat < 1056) :
    decode (.command [cmdtWord 0x04 (dynWord bit slot)]) = .ok (.tally bit slot) := by
  rw [decode_cmdt _ (by decide), decodeCommand_tally _ (opcodeOf_cmdtWord _ _), zeroField_cmdtWord,
    getLsbD_cmdtWord _ _ (by decide), Machine.getLsbD_dynWord, slotField_cmdtWord, bitField_cmdtWord,
    Machine.slotField_dynWord, Machine.bitField_dynWord]
  simp [h]

theorem decode_recblk (ctx ctype : BitVec 2) (first : BitVec 4) (last : BitVec 5) (co : Vector Coef 16) :
    decode (.command (recblkWord ctx ctype first last :: dataWords co)) = .ok (.recblk ctx ctype first last co) := by
  have hop := opcodeOf_recblkWord ctx ctype first last
  rw [decode, commandLength_recblk hop, if_pos (by rfl), decodeCommand_recblk _ hop, zeroField_recblkWord, if_pos rfl,
    dataWords, decodeRecblk, coefsOf_dataWords, ctxField_recblkWord, typeField_recblkWord, firstField_recblkWord,
    lastField_recblkWord]

/-- Settles O1, instruction by instruction: every field is read back from the place it was written to. -/
theorem decodeEncodeAgree : Obligations.DecodeEncodeAgree := by
  intro i h
  cases i with
  | init psize =>
    have hop := opcodeOf_append 0x01#8 psize
    rw [encode, decode_single (by rw [hop]; decide), decodeCommand_init _ hop, operand_append]
  | recblk ctx ctype first last co => exact decode_recblk ctx ctype first last co
  | appd bit slot => exact decode_appd (of_decide_eq_true h)
  | appc bit prob => exact decode_appc bit prob
  | tally bit slot => exact decode_tally (of_decide_eq_true h)
  | finalize => rfl
  | estimate => rfl
  | emit => rfl
  | finish => rfl
  | clear => rfl
  | tokDyn bit slot => exact Machine.decodeToken_dynWord (of_decide_eq_true h)
  | tokConst bit prob => exact Machine.decodeToken_constWord bit prob

/-! ### What decodes is an encoding -/

/-- A check that a word which decodes has passed. -/
theorem ite_error_eq_ok {c : Prop} [Decidable c] {x : Except DecodeError Instr} {e : DecodeError} {i : Instr}
    (h : (if c then x else .error e) = .ok i) : c ∧ x = .ok i := by
  by_cases hc : c
  · exact ⟨hc, by rwa [if_pos hc] at h⟩
  · rw [if_neg hc] at h; cases h

/-- A word that is a reserved or illegal one on a condition, and passed it. -/
theorem error_ite_eq_ok {c : Prop} [Decidable c] {x : Except DecodeError Instr} {e : DecodeError} {i : Instr}
    (h : (if c then .error e else x) = .ok i) : ¬c ∧ x = .ok i := by
  rw [← ite_not] at h
  exact ite_error_eq_ok h

/-- RECBLK decodes from exactly eight data words, and keeps every bit of them (30_encoding.md R67). -/
theorem encode_of_decodeRecblk {w : CmdWord} {data : List CmdWord} {i : Instr} (hop : opcodeOf w = 0x02)
    (hz : w.extractLsb' 13 11 = 0) (h : decodeRecblk w data = .ok i) :
    encode i = .command (w :: data) ∧ i.wellFormed = true := by
  unfold decodeRecblk at h
  split at h
  next d0 d1 d2 d3 d4 d5 d6 d7 =>
    cases h
    refine ⟨?_, rfl⟩
    rw [encode_recblk, recblkWord_of_fields hop hz, dataWords_coefsOf]
  next => cases h

/-- A command without operands is written as its opcode alone (30_encoding.md R70). -/
theorem encode_bare {op : BitVec 8} {i : Instr} (h : (op, i) ∈ bareCommands) :
    encode i = .command [op ++ 0#24] ∧ i.wellFormed = true := by
  simp only [bareCommands, List.mem_cons, Prod.mk.injEq, List.not_mem_nil, or_false] at h
  rcases h with ⟨rfl, rfl⟩ | ⟨rfl, rfl⟩ | ⟨rfl, rfl⟩ | ⟨rfl, rfl⟩ | ⟨rfl, rfl⟩ <;> decide

theorem bare_ne_recblk {op : BitVec 8} {i : Instr} (h : (op, i) ∈ bareCommands) : op ≠ 0x02 := by
  rintro rfl
  simp [bareCommands] at h

/-- The append commands keep every bit of their word. -/
theorem encode_of_decodeAppend {w : CmdWord} {i : Instr} (hop : opcodeOf w = 0x03)
    (h : decodeCommand w [] = .ok i) : encode i = .command [w] ∧ i.wellFormed = true := by
  rw [decodeCommand_append _ hop] at h
  obtain ⟨hz, h⟩ := error_ite_eq_ok h
  rw [not_not] at hz
  cases hk : w.getLsbD 14 with
  | true =>
    rw [if_pos hk] at h
    obtain ⟨hp, h⟩ := ite_error_eq_ok h
    cases h
    exact ⟨by rw [encode_appc, ← hop, cmdtWord_constWord_of_fields hz hk hp], rfl⟩
  | false =>
    rw [if_neg (ne_true_of_eq_false hk)] at h
    obtain ⟨hs, h⟩ := ite_error_eq_ok h
    cases h
    exact ⟨by rw [encode_appd, ← hop, cmdtWord_dynWord_of_fields hz hk], decide_eq_true hs⟩

/-- TALLY keeps every bit of its word. -/
theorem encode_of_decodeTally {w : CmdWord} {i : Instr} (hop : opcodeOf w = 0x04)
    (h : decodeCommand w [] = .ok i) : encode i = .command [w] ∧ i.wellFormed = true := by
  rw [decodeCommand_tally _ hop] at h
  obtain ⟨hz, h⟩ := error_ite_eq_ok h
  obtain ⟨hz, hk⟩ := not_or.mp hz
  obtain ⟨hs, h⟩ := ite_error_eq_ok h
  cases h
  have hw := cmdtWord_dynWord_of_fields (not_not.mp hz) (eq_false_of_ne_true hk)
  exact ⟨by rw [encode_tally, ← hop, hw], decide_eq_true hs⟩

/-- A command that decodes is written as the words it was decoded from. -/
theorem encode_of_decodeCommand {w : CmdWord} {data : List CmdWord} {i : Instr}
    (hlen : data.length + 1 = commandLength w) (h : decodeCommand w data = .ok i) :
    encode i = .command (w :: data) ∧ i.wellFormed = true := by
  rcases opcode_cases (opcodeOf w) with hop | hop | hop | hop | ⟨j, hop⟩ | hop
  · obtain rfl := data_eq_nil hlen (by rw [hop]; decide)
    cases (decodeCommand_init _ hop).symm.trans h
    have hw : 0x01#8 ++ w.extractLsb' 0 24 = w :=
      (congrArg (· ++ w.extractLsb' 0 24) hop).symm.trans (opcode_append_operand w)
    exact ⟨by rw [encode_init, hw], rfl⟩
  · rw [decodeCommand_recblk _ hop] at h
    obtain ⟨hz, h⟩ := ite_error_eq_ok h
    exact encode_of_decodeRecblk hop hz h
  · obtain rfl := data_eq_nil hlen (by rw [hop]; decide)
    exact encode_of_decodeAppend hop h
  · obtain rfl := data_eq_nil hlen (by rw [hop]; decide)
    exact encode_of_decodeTally hop h
  · obtain rfl := data_eq_nil hlen (bare_ne_recblk hop)
    rw [decodeCommand_bare _ hop] at h
    obtain ⟨hz, h⟩ := ite_error_eq_ok h
    cases h
    have hw : opcodeOf w ++ 0#24 = w := (congrArg (opcodeOf w ++ ·) hz).symm.trans (opcode_append_operand w)
    have he := encode_bare hop
    rwa [hw] at he
  · cases (decodeCommand_reserved _ hop).symm.trans h

/-- A token word that decodes is the word of its token (30_encoding.md R61, R62). -/
theorem encode_of_decodeToken {t : TokWord} {i : Instr} (h : decodeToken t = .ok i) :
    encode i = .token t ∧ i.wellFormed = true := by
  unfold decodeToken at h
  cases hk : t.getLsbD 14 with
  | true =>
    rw [if_pos hk] at h
    obtain ⟨hp, h⟩ := ite_error_eq_ok h
    cases h
    have ht := constWord_of_fields hk hp
    rw [BitVec.extractLsb'_eq_self] at ht
    exact ⟨congrArg Encoded.token ht, rfl⟩
  | false =>
    rw [if_neg (ne_true_of_eq_false hk)] at h
    obtain ⟨hs, h⟩ := ite_error_eq_ok h
    cases h
    have ht := dynWord_of_fields hk
    rw [BitVec.extractLsb'_eq_self] at ht
    exact ⟨congrArg Encoded.token ht, decide_eq_true hs⟩

/-- Settles O2: the fields that decoding reads and the bits it asks to be zero are all the bits of a word. -/
theorem onlyEncodingsDecode : Obligations.OnlyEncodingsDecode := by
  intro e i h
  match e with
  | .command [] => cases h
  | .command (w :: data) =>
    obtain ⟨hlen, h⟩ := ite_error_eq_ok h
    exact encode_of_decodeCommand hlen h
  | .token t => exact encode_of_decodeToken h

/-! ### Illegal words -/

/-- Whether a check that ends in an error is passed. -/
theorem exists_ite_ok_iff {c : Prop} [Decidable c] {x : Except DecodeError Instr} {e : DecodeError} :
    (∃ i, (if c then x else .error e) = .ok i) ↔ c ∧ ∃ i, x = .ok i := by
  by_cases hc : c <;> simp [hc]

theorem decodeRecblk_eq_ok {w : CmdWord} {data : List CmdWord} (h : data.length = 8) :
    ∃ i, decodeRecblk w data = .ok i := by
  match data, h with
  | [_, _, _, _, _, _, _, _], _ => exact ⟨_, rfl⟩

/-- A command word with its data words decodes exactly when it is not illegal, opcode by opcode. -/
theorem exists_decodeCommand_iff {w : CmdWord} {data : List CmdWord} (hlen : data.length + 1 = commandLength w) :
    (∃ i, decodeCommand w data = .ok i) ↔ ¬Machine.IllegalWord w := by
  rcases opcode_cases (opcodeOf w) with hop | hop | hop | hop | ⟨j, hop⟩ | hop
  · simp [decodeCommand_init _ hop, Machine.IllegalWord, hop]
  · rw [commandLength_recblk hop] at hlen
    rw [decodeCommand_recblk _ hop, exists_ite_ok_iff, and_iff_left (decodeRecblk_eq_ok (by omega))]
    simp [Machine.IllegalWord, hop]
  · rw [decodeCommand_append _ hop]
    unfold Machine.IllegalWord
    rw [hop, slotField]
    generalize w.extractLsb' 16 8 = z
    cases w.getLsbD 14 <;> by_cases hz : z = 0#8 <;> simp [hz, exists_ite_ok_iff]
  · rw [decodeCommand_tally _ hop]
    unfold Machine.IllegalWord
    rw [hop, slotField]
    generalize w.extractLsb' 16 8 = z
    cases w.getLsbD 14 <;> by_cases hz : z = 0#8 <;> simp [hz, exists_ite_ok_iff]
  · rw [decodeCommand_bare _ hop, exists_ite_ok_iff, and_iff_left ⟨j, rfl⟩]
    simp only [bareCommands, List.mem_cons, Prod.mk.injEq, List.not_mem_nil, or_false] at hop
    rcases hop with ⟨hop, rfl⟩ | ⟨hop, rfl⟩ | ⟨hop, rfl⟩ | ⟨hop, rfl⟩ | ⟨hop, rfl⟩ <;>
      simp [Machine.IllegalWord, hop]
  · have hill : Machine.IllegalWord w := hop.elim .inl fun h => .inr (.inl h)
    simp [decodeCommand_reserved _ hop, hill]

/-- Settles O3: the opcode map has a row for every word that 30_encoding.md R72 does not list. -/
theorem wordDecodesUnlessIllegal : Obligations.WordDecodesUnlessIllegal := by
  intro w data hlen
  rw [decode, if_pos hlen]
  exact exists_decodeCommand_iff hlen

end Sys2Proof

/-! ### The next command of the host's list -/

namespace Sys2Proof.Machine

/-- An illegal word that stands whole at the head of the list is fetched as such, with the words after it. -/
theorem fetchCommand_illegal {w : CmdWord} {ws : List CmdWord} (hlen : commandLength w ≤ ws.length + 1)
    (h : IllegalWord w) : ∃ why, fetchCommand (w :: ws) = .illegal why (ws.drop (commandLength w - 1)) := by
  have hdata : (ws.take (commandLength w - 1)).length + 1 = commandLength w := by
    have hpos : 1 ≤ commandLength w := by unfold commandLength; split <;> decide
    rw [List.length_take]
    omega
  rw [fetchCommand, if_neg (by omega)]
  match hd : decodeCommand w (ws.take (commandLength w - 1)) with
  | .ok i => exact absurd h ((exists_decodeCommand_iff hdata).mp ⟨i, hd⟩)
  | .error why => exact ⟨why, rfl⟩

/-- Settles O4: the word is taken, and the refusal sets the mark. -/
theorem illegalWordRefused : Obligations.IllegalWordRefused := by
  intro s w ws hpass hcmds hlen hill
  obtain ⟨why, hfetch⟩ := fetchCommand_illegal hlen hill
  refine ⟨ws.drop (commandLength w - 1), ?_⟩
  simp only [step, hpass, stepCommand, hcmds, hfetch]
  rfl

/-- A RECBLK command word short of data words is no command yet (30_encoding.md R73). -/
theorem fetchCommand_idle {cmds : List CmdWord}
    (h : cmds = [] ∨ ∃ w ws, cmds = w :: ws ∧ opcodeOf w = 0x02 ∧ ws.length < 8) : fetchCommand cmds = .idle := by
  rcases h with rfl | ⟨w, ws, rfl, hop, hlen⟩
  · rfl
  · rw [fetchCommand, commandLength_recblk hop, if_pos (by omega)]

/-- Settles O8: an idle fetch takes nothing from the list. -/
theorem idleWithoutACommand : Obligations.IdleWithoutACommand := by
  intro s hpass h
  simp only [step, hpass, stepCommand, fetchCommand_idle h]

/-! ### The worked encodings, and where a token word stops -/

/-- Settles O5, row by row of 30_encoding.md R75. -/
theorem workedEncodings : Obligations.WorkedEncodings := by
  exact ⟨rfl, rfl, rfl, rfl, rfl, rfl, rfl, rfl, rfl, rfl, rfl, rfl, rfl, rfl, rfl, rfl, rfl, rfl, rfl, rfl, rfl⟩

/-- Settles O43: a reserved slot stops before the traversal is looked at, and without one there is no bit to code. -/
theorem tokenWordStops : Obligations.TokenWordStops := by
  intro s bit slot prob
  refine ⟨fun h => ?_, fun hpass h => ?_, fun hpass => ?_⟩
  · simp only [exec, execTokDyn, slotOfField_eq_none.mpr h]
    rfl
  · have hslot : slotOfField slot = some ⟨slot.toNat, h⟩ := slotOfField_eq_some.mpr rfl
    simp only [exec, execTokDyn, hslot, runBit, hpass]
  · simp only [exec, execTokConst, runBit, hpass]

end Sys2Proof.Machine

/-! ### The decisions of a block, position by position (40_token_encoder.md R86 to R95) -/

namespace Sys2Proof.Machine

/-- The contract that RECBLK checks on its fields is the contract over the integers (40_token_encoder.md R86). -/
theorem blockAdmitted_of_contract {ctx : BitVec 2} {first : BitVec 4} {last : BitVec 5} {co : Vector Coef 16}
    (h : BlockContract ctx.toNat first.toNat last.toInt fun i => co[i].toInt) : BlockAdmitted ctx first last co := by
  obtain ⟨hctx, hfirst, hlast, hin, hzero, hrange⟩ := h
  have hz : ∀ i : Fin 16, co[i].toInt = 0 ↔ co[i] = 0 := fun i => BitVec.toInt_inj (y := 0)
  refine ⟨?_, by omega, hlast, fun i hi h0 => ?_, fun i hi hl => ?_, fun i hi => ?_⟩
  · rintro rfl
    revert hctx
    decide
  · exact (hin (by omega) i).1 hi ((hz i).mpr h0)
  · rcases hlast with hl1 | hl1
    · exact (hz i).mp (hzero hl1 i hi)
    · exact (hz i).mp ((hin (by omega) i).2 hl)
  · obtain ⟨hlow, hhigh⟩ := hrange i hi
    simp only at hlow hhigh
    omega

theorem band_val (n : Nat) : (band n).val = bandAt n := (List.getD_map bandTable (0 : Fin 8) Fin.val).symm

/-- The base holds the type, the band of position `n`, and the context. -/
structure SlotBase.IsAt (b : SlotBase) (ctype n ctx : Nat) : Prop where
  ctype : b.ctype.val = ctype
  band : b.band.val = bandAt n
  ctx : b.ctx.val = ctx

theorem SlotBase.IsAt.slotAt {b : SlotBase} {ctype n ctx : Nat} (h : b.IsAt ctype n ctx) (node : Fin 11) :
    slotAt ctype n ctx node = slotOf b node := by
  obtain ⟨rfl, hband, rfl⟩ := h
  apply Fin.ext
  have := (slotOf b node).isLt
  simp only [slotOf] at this
  simp only [Machine.slotAt, ← hband, Fin.ofNat, slotOf]
  exact Nat.mod_eq_of_lt this

theorem SlotBase.IsAt.next {b : SlotBase} {ctype n ctx : Nat} (h : b.IsAt ctype n ctx) (c : Fin 3) :
    (nextBase b (n + 1) c).IsAt ctype (n + 1) c := ⟨h.ctype, band_val _, rfl⟩

/-- The base of the first position: its band is the position itself (40_token_encoder.md R87). -/
theorem firstBase_isAt {ctx ctype : BitVec 2} {first : BitVec 4} (hctx : ctx.toNat < 3) (hfirst : first.toNat ≤ 1) :
    (firstBase ctx ctype first).IsAt ctype.toNat first.toNat ctx.toNat := by
  refine ⟨rfl, ?_, Nat.mod_eq_of_lt hctx⟩
  simp only [firstBase]
  generalize first.toNat = f at *
  interval_cases f <;> rfl

/-- The extra bits, listed from the most significant (40_token_encoder.md R92). -/
theorem extraBits_eq (x : Nat) (tab : List Prob) : extraBits x tab = extraTokens x tab := by
  induction tab with
  | nil => rfl
  | cons p ps ih =>
    rw [extraBits, ih, extraTokens, extraTokens, List.length_cons, List.range_succ_eq_map, List.map_cons, List.map_map]
    congr 1
    · simp [Nat.testBit_eq_decide_div_mod_eq, beq_eq_decide]
    · apply List.map_congr_left
      intro i _
      simp [Nat.sub_sub, Nat.add_comm]

/-- The tree below node 2, bucket by bucket (40_token_encoder.md R92, R93). -/
theorem magnitude_eq {v : Nat} {b : SlotBase} {node : Nat → Slot} (hv : 2 ≤ v)
    (hnode : ∀ k : Fin 11, node k = slotOf b k) : magnitude v b = levelTokens v node := by
  have h3 : node 3 = slotOf b 3 := hnode 3
  have h4 : node 4 = slotOf b 4 := hnode 4
  have h5 : node 5 = slotOf b 5 := hnode 5
  have h6 : node 6 = slotOf b 6 := hnode 6
  have h7 : node 7 = slotOf b 7 := hnode 7
  have h8 : node 8 = slotOf b 8 := hnode 8
  have h9 : node 9 = slotOf b 9 := hnode 9
  have h10 : node 10 = slotOf b 10 := hnode 10
  by_cases hsmall : v ≤ 10
  · simp only [levelTokens, h3, h4, h5, h6, h7]
    interval_cases v <;> rfl
  · have h16 : v - 3 < 16 ↔ v ≤ 18 := by omega
    have h32 : v - 3 < 32 ↔ v ≤ 34 := by omega
    have h64 : v - 3 < 64 ↔ v ≤ 66 := by omega
    have hne : v ≠ 2 ∧ v ≠ 3 ∧ v ≠ 4 := by omega
    have hle : ¬v ≤ 1 ∧ ¬v ≤ 4 ∧ ¬v ≤ 6 := by omega
    simp only [levelTokens, magnitude, h3, h6, h8, h9, h10, extraBits_eq, h16, h32, h64, hne, hle, hsmall, if_false,
      Nat.sub_sub]
    rfl

/-- The decisions between node 2 and the sign of a coefficient. -/
theorem level_eq {v : Nat} {b : SlotBase} {node : Nat → Slot} (hnode : ∀ k : Fin 11, node k = slotOf b k) :
    (if 1 < v then magnitude v b else []) = levelTokens v node := by
  by_cases hv : 1 < v
  · rw [if_pos hv, magnitude_eq hv hnode]
  · rw [if_neg hv, levelTokens, if_pos (by omega)]

/-- The context that a coefficient of magnitude `v` leaves to the next position (40_token_encoder.md R88). -/
def leftContext (v : Nat) : Fin 3 := if v = 0 then 0 else if 1 < v then 2 else 1

theorem leftContext_val (v : Nat) : (leftContext v).val = min v 2 := by
  unfold leftContext
  split
  · subst_vars; rfl
  · split <;> simp <;> omega

theorem codePositions_zero (last : Int) {x : Coef} (xs : List Coef) (n : Nat) (b : SlotBase) (hx : x.toInt = 0) :
    codePositions last (x :: xs) n b =
      .dyn false (slotOf b 1) :: codePositions last xs (n + 1) (nextBase b (n + 1) 0) :=
  if_pos (Int.natAbs_eq_zero.mpr hx)

theorem codePositions_nonzero (last : Int) {x : Coef} (xs : List Coef) (n : Nat) (b : SlotBase) (hx : x.toInt ≠ 0) :
    codePositions last (x :: xs) n b =
      .dyn true (slotOf b 1) :: .dyn (decide (1 < x.toInt.natAbs)) (slotOf b 2) ::
        ((if 1 < x.toInt.natAbs then magnitude x.toInt.natAbs b else []) ++ .const (decide (x.toInt < 0)) 128 ::
          (if n + 1 = 16 then []
           else if (n + 1 : Int) ≤ last then
             .dyn true (slotOf (nextBase b (n + 1) (leftContext x.toInt.natAbs)) 0) ::
               codePositions last xs (n + 1) (nextBase b (n + 1) (leftContext x.toInt.natAbs))
           else [.dyn false (slotOf (nextBase b (n + 1) (leftContext x.toInt.natAbs)) 0)])) := by
  have hv : x.toInt.natAbs ≠ 0 := Int.natAbs_ne_zero.mpr hx
  rw [leftContext, if_neg hv]
  exact if_neg hv

/-- One position: its decisions, and then the positions after it, if it is not the last. -/
theorem codePositions_cons {ctype ctx n : Nat} {last : Int} {x : Coef} {b : SlotBase} (xs : List Coef)
    (hb : b.IsAt ctype n ctx) (hn : (n : Int) ≤ last) (hlast : last ≤ 15) (hend : (n : Int) = last → x.toInt ≠ 0) :
    codePositions last (x :: xs) n b = positionTokens ctype ctx n last x.toInt ++
      if (n : Int) < last then codePositions last xs (n + 1) (nextBase b (n + 1) (leftContext x.toInt.natAbs))
      else [] := by
  have hslot1 : slotAt ctype n ctx 1 = slotOf b 1 := hb.slotAt 1
  have hslot2 : slotAt ctype n ctx 2 = slotOf b 2 := hb.slotAt 2
  by_cases hx : x.toInt = 0
  · rw [codePositions_zero _ _ _ _ hx, positionTokens, if_pos hx, if_pos (by omega), hslot1, hx]
    rfl
  · have hslot0 := (hb.next (leftContext x.toInt.natAbs)).slotAt 0
    rw [leftContext_val] at hslot0
    rw [codePositions_nonzero _ _ _ _ hx, level_eq hb.slotAt, positionTokens, if_neg hx, hslot1, hslot2, ← hslot0]
    by_cases h15 : n = 15
    · rw [if_pos (by omega : n + 1 = 16), if_pos h15, if_neg (by omega)]
      simp [Nat.succ_le_iff]
    · rw [if_neg (by omega : ¬n + 1 = 16), if_neg h15]
      by_cases hlt : (n : Int) < last
      · rw [if_pos (by omega), if_pos hlt, decide_eq_true hlt]
        simp [Nat.succ_le_iff]
      · rw [if_neg (by omega), if_neg hlt, decide_eq_false hlt]
        simp [Nat.succ_le_iff]

/-- The positions that a block codes (40_token_encoder.md R88). -/
def codedPositions (first : Nat) (last : Int) : List Nat :=
  (List.range 16).filter fun n => decide (first ≤ n ∧ (n : Int) ≤ last)

/-- The positions up to `last` of a run of positions. -/
def upTo (last : Int) (n len : Nat) : List Nat := (List.range' n len).filter fun m => decide ((m : Int) ≤ last)

theorem upTo_succ {last : Int} {n : Nat} (len : Nat) (h : (n : Int) ≤ last) :
    upTo last n (len + 1) = n :: upTo last (n + 1) len := by
  rw [upTo, List.range'_succ, List.filter_cons_of_pos (by simpa using h)]
  rfl

theorem upTo_eq_nil {last : Int} {n : Nat} (len : Nat) (h : last < (n : Int)) : upTo last n len = [] := by
  rw [upTo, List.filter_eq_nil_iff]
  intro m hm
  have := (List.mem_range'_1.mp hm).1
  simp
  omega

theorem codedPositions_eq_upTo {first : Nat} {last : Int} (hfirst : first ≤ 1) :
    codedPositions first last = upTo last first (16 - first) := by
  interval_cases first
  · simp [codedPositions, upTo, List.range_eq_range']
  · rw [codedPositions, List.range_eq_range', List.range'_succ, List.filter_cons_of_neg (by simp), upTo]
    refine List.filter_congr fun m hm => ?_
    have := (List.mem_range'_1.mp hm).1
    simp [this]

/-- The positions from `n` on, where `c` gives the coefficients and `cx` the context of each position. -/
theorem codePositions_eq {ctype : Nat} {last : Int} {cx : Nat → Nat} {c : Nat → Int} (hlast : last ≤ 15)
    (hend : ∀ n : Nat, (n : Int) = last → c n ≠ 0) (xs : List Coef) (n : Nat) (b : SlotBase)
    (hxs : ∀ k (hk : k < xs.length), c (n + k) = xs[k].toInt) (hb : b.IsAt ctype n (cx n))
    (hcx : ∀ m, n ≤ m → cx (m + 1) = min (c m).natAbs 2) (hn : (n : Int) ≤ last) :
    codePositions last xs n b =
      (upTo last n xs.length).flatMap fun m => positionTokens ctype (cx m) m last (c m) := by
  induction xs generalizing n b with
  | nil => rfl
  | cons x xs ih =>
    have hx : c n = x.toInt := hxs 0 (Nat.succ_pos _)
    rw [codePositions_cons xs hb hn hlast (hx ▸ hend n), List.length_cons, upTo_succ _ hn, List.flatMap_cons, hx]
    by_cases hlt : (n : Int) < last
    · have hxs' : ∀ k (hk : k < xs.length), c (n + 1 + k) = xs[k].toInt := fun k hk => by
        have h := hxs (k + 1) (Nat.succ_lt_succ hk)
        rwa [List.getElem_cons_succ, ← Nat.add_assoc, Nat.add_right_comm] at h
      have hb' := hb.next (leftContext x.toInt.natAbs)
      rw [leftContext_val, ← hx, ← hcx n le_rfl, hx] at hb'
      rw [if_pos hlt, ih _ _ hxs' hb' (fun m hm => hcx m (by omega)) (by omega)]
    · rw [if_neg hlt, upTo_eq_nil _ (by omega)]
      rfl

theorem blockTokens_eq (ctx ctype first : Nat) (last : Int) (co : Nat → Int) :
    blockTokens ctx ctype first last co =
      .dyn (decide (0 ≤ last)) (slotAt ctype first ctx 0) :: (codedPositions first last).flatMap fun n =>
        positionTokens ctype (contextAt ctx first n co) n last (co n) := rfl

theorem coef_of_lt (co : Vector Coef 16) {n : Nat} (hn : n < 16) : (co[n]?.getD 0).toInt = co[n].toInt := by
  rw [Vector.getElem?_eq_getElem hn, Option.getD_some]

/-- The decisions of an admitted block are those of its positions (40_token_encoder.md R88). -/
theorem blockDecisions_eq {ctx ctype : BitVec 2} {first : BitVec 4} {last : BitVec 5} {co : Vector Coef 16}
    (h : BlockContract ctx.toNat first.toNat last.toInt fun i => co[i].toInt) :
    blockDecisions ctx ctype first last co =
      blockTokens ctx.toNat ctype.toNat first.toNat last.toInt fun n => (co[n]?.getD 0).toInt := by
  obtain ⟨hctx, hfirst, hlast, hin, -, -⟩ := h
  have hb : (firstBase ctx ctype first).IsAt ctype.toNat first.toNat ctx.toNat :=
    firstBase_isAt (by omega) (by omega)
  have hslot : slotAt ctype.toNat first.toNat ctx.toNat 0 = slotOf (firstBase ctx ctype first) 0 := hb.slotAt 0
  rw [blockTokens_eq, codedPositions_eq_upTo (by omega), hslot]
  unfold blockDecisions
  by_cases h0 : 0 ≤ last.toInt
  · have hend : ∀ n : Nat, (n : Int) = last.toInt → (co[n]?.getD 0).toInt ≠ 0 := fun n hn => by
      have h16 : n < 16 := by omega
      rw [coef_of_lt co h16]
      exact (hin h0 ⟨n, h16⟩).1 hn
    have hlen : (co.toList.drop first.toNat).length = 16 - first.toNat := by
      rw [List.length_drop, Vector.length_toList]
    have hxs : ∀ k (hk : k < (co.toList.drop first.toNat).length),
        (co[first.toNat + k]?.getD 0).toInt = (co.toList.drop first.toNat)[k].toInt := fun k hk => by
      rw [coef_of_lt co (by omega), List.getElem_drop, Vector.getElem_toList]
    have hcx : ∀ m, first.toNat ≤ m → contextAt ctx.toNat first.toNat (m + 1) (fun n => (co[n]?.getD 0).toInt) =
        min (co[m]?.getD 0).toInt.natAbs 2 := fun m hm => if_neg (by omega)
    rw [if_pos h0, decide_eq_true h0, ← hlen]
    refine congrArg _ (codePositions_eq (by omega) hend _ _ _ hxs ?_ hcx (by omega))
    rwa [contextAt, if_pos rfl]
  · rw [if_neg h0, decide_eq_false h0, upTo_eq_nil _ (by omega)]
    rfl

/-! ### Appends, one after another (41_token_buffer.md R102 to R104) -/

theorem noRoom_iff (s : State) : s.noRoom = true ↔ s.npages = 0 ∨ s.left = 0 := by
  simp [State.noRoom]

/-- `TBAPPEND` does what 41_token_buffer.md R102 to R104 says of an append. -/
theorem appended_tbAppend (w : TokWord) (s : State) : Appended w s (tbAppend w s) := by
  unfold Appended
  rcases tbAppend_cases w s with ⟨he, h⟩ | ⟨he, hr, hp, h⟩ | ⟨he, hr, hp, h⟩ | ⟨he, hr, h⟩
  · rw [h, if_pos he]
  · rw [h, if_neg (ne_true_of_eq_false he), if_pos ((noRoom_iff s).mp hr), if_pos hp]
    rfl
  · rw [h, if_neg (ne_true_of_eq_false he), if_pos ((noRoom_iff s).mp hr), if_neg hp]
    exact ⟨rfl, fun page slot => tokWord_write s s.npages (s.pageSize - 1) page slot w⟩
  · rw [h, if_neg (ne_true_of_eq_false he), if_neg (mt (noRoom_iff s).mpr (ne_true_of_eq_false hr))]
    exact ⟨rfl, fun page slot => tokWord_write s (s.npages - 1) (s.left - 1) page slot w⟩

/-- Token words appended in order. -/
def appendAll (ws : List TokWord) (s : State) : State := ws.foldl (fun u w => tbAppend w u) s

theorem appendedAll_appendAll (ws : List TokWord) (s : State) : AppendedAll ws s (appendAll ws s) := by
  induction ws generalizing s with
  | nil => rfl
  | cons w ws ih => exact ⟨tbAppend w s, appended_tbAppend w s, ih _⟩

/-- The state with another tally table. -/
def State.withTally (tally : Vector TallyWord 1056) (s : State) : State := { s with tally := tally }

/-- An append and a tally write do not meet. -/
theorem tbAppend_withTally (w : TokWord) (s : State) (tally : Vector TallyWord 1056) :
    tbAppend w (s.withTally tally) = (tbAppend w s).withTally tally := by
  simp only [tbAppend, apply_ite (State.withTally tally)]
  rfl

theorem appendAll_withTally (ws : List TokWord) (s : State) (tally : Vector TallyWord 1056) :
    appendAll ws (s.withTally tally) = (appendAll ws s).withTally tally :=
  List.foldl_hom (State.withTally tally) fun u w => tbAppend_withTally w u tally

theorem tbAppend_tally (w : TokWord) (s : State) : (tbAppend w s).tally = s.tally := by rw [tbAppend_frame]

/-! ### Tallies, one after another (42_statistics.md R116 to R119) -/

theorem recordAll_append (bs cs : List Bool) (e : Nat × Nat) :
    recordAll (bs ++ cs) e = recordAll cs (recordAll bs e) := by
  induction bs generalizing e with
  | nil => rfl
  | cons b bs ih => exact ih _

theorem bitsAt_append (i : Slot) (ds es : List Decision) : bitsAt i (ds ++ es) = bitsAt i ds ++ bitsAt i es := by
  induction ds with
  | nil => rfl
  | cons d ds ih =>
    cases d with
    | dyn bit j =>
      simp only [List.cons_append, bitsAt, ih]
      split <;> rfl
    | const bit prob => exact ih

theorem recordStep_total_le {count1 total : Nat} (bit : Bool) (h : total < 65536) :
    (recordStep count1 total bit).2 < 65536 := by
  unfold recordStep
  split <;> simp only <;> omega

/-- The entries after `RECORD`: the slot's own one step on, every other as before (42_statistics.md R116). -/
theorem entryAt_of_record {i : Slot} {bit : Bool} {s t : State} (h : record i bit s = .next t) (j : Slot) :
    t.entryAt j = recordAll (bitsAt j [.dyn bit i]) (s.entryAt j) := by
  obtain ⟨hfit, rfl⟩ := record_eq_next.mp h
  have htotal := recordStep_total_le (count1 := tallyCount (s.tallyAt i)) bit (tallyTotal_lt (s.tallyAt i))
  simp only [State.entryAt, tallyAt_set, bitsAt]
  by_cases hj : j = i
  · subst hj
    simp only [if_true, tallyCount_tallyWord, tallyTotal_tallyWord, recordAll]
    rw [Nat.mod_eq_of_lt (by omega), Nat.mod_eq_of_lt htotal]
  · rw [if_neg hj, if_neg (Ne.symm hj)]
    rfl

/-- One decision whose tally fits: its word appended, its bit recorded. -/
theorem runDecision_eq_next {d : Decision} {s : State}
    (h : ∀ bit i, d = .dyn bit i → (recordAll (bitsAt i [d]) (s.entryAt i)).1 ≤ 65535) :
    ∃ t, runDecision d s = .next t ∧ t = (tbAppend d.word s).withTally t.tally
      ∧ ∀ j, t.entryAt j = recordAll (bitsAt j [d]) (s.entryAt j) := by
  have hentry : ∀ j, (tbAppend d.word s).entryAt j = s.entryAt j := fun j => by
    simp only [State.entryAt, State.tallyAt, tbAppend_tally]
  cases d with
  | dyn bit i =>
    have hfit := h bit i rfl
    rw [← hentry] at hfit
    simp only [bitsAt, if_true, recordAll] at hfit
    have hrec := record_eq_next.mpr ⟨hfit, rfl⟩
    exact ⟨_, hrec, rfl, fun j => by rw [entryAt_of_record hrec, hentry]⟩
  | const bit prob => exact ⟨_, rfl, rfl, hentry⟩

/-- The tallies after the first decision overflow where those of the whole list do, one decision later. -/
theorem overflowsAt_cons {d : Decision} {ds : List Decision} {s t : State} {n : Nat}
    (hentry : ∀ j, t.entryAt j = recordAll (bitsAt j [d]) (s.entryAt j)) :
    t.OverflowsAt ds n ↔ s.OverflowsAt (d :: ds) (n + 1) := by
  unfold State.OverflowsAt
  simp only [hentry, ← recordAll_append, ← bitsAt_append, List.singleton_append, List.getElem?_cons_succ,
    List.take_succ_cons]

/-- A block none of whose tallies overflows: its words appended in order, its bits recorded in order. -/
theorem runDecisions_eq_next {ds : List Decision} {s : State} (h : ∀ n, ¬s.OverflowsAt ds n) :
    ∃ t, runDecisions ds s = .next t ∧ t = (appendAll (ds.map Decision.word) s).withTally t.tally
      ∧ ∀ i, t.entryAt i = recordAll (bitsAt i ds) (s.entryAt i) := by
  induction ds generalizing s with
  | nil => exact ⟨s, rfl, rfl, fun _ => rfl⟩
  | cons d ds ih =>
    have hfit : ∀ bit i, d = .dyn bit i → (recordAll (bitsAt i [d]) (s.entryAt i)).1 ≤ 65535 := fun bit i hd => by
      by_contra hover
      exact h 0 ⟨bit, i, by rw [hd]; rfl, by simpa using hover⟩
    obtain ⟨u, hu, huframe, huentry⟩ := runDecision_eq_next hfit
    obtain ⟨t, ht, htframe, htentry⟩ := ih (s := u) fun n => mt (overflowsAt_cons huentry).mp (h (n + 1))
    refine ⟨t, ?_, ?_, fun i => ?_⟩
    · rw [runDecisions, hu, andThen_of_next, ht]
    · rw [htframe, huframe, appendAll_withTally]
      rfl
    · rw [htentry, huentry, ← recordAll_append, ← bitsAt_append, List.singleton_append]

/-- Settles O22: the loop of RECBLK makes the decisions of its positions, and carries them out one by one. -/
theorem recblkResult : Obligations.RecblkResult := by
  intro s ctx ctype first last co ds hc hds
  have hdec : blockDecisions ctx ctype first last co = ds := (blockDecisions_eq hc).trans hds.symm
  refine ⟨hdec, fun hphase hfit => ?_⟩
  obtain ⟨t, ht, hframe, hentry⟩ := runDecisions_eq_next hfit
  refine ⟨t, appendAll (ds.map Decision.word) s, ?_, appendedAll_appendAll _ s, hframe, hentry⟩
  simp only [exec, execRecblk]
  rw [if_pos hphase, if_pos (blockAdmitted_of_contract hc), hdec, ht]

/-! ### The end of a block (40_token_encoder.md R94, R95) -/

/-- The last position a block codes. -/
theorem codedPositions_getLast {first n : Nat} (hfirst : first ≤ n) (hn : n ≤ 15) :
    (codedPositions first n).getLast? = some n := by
  have hrange : List.range 16 = List.range (n + 1) ++ (List.range (15 - n)).map (n + 1 + ·) := by
    rw [← List.range_add]
    congr 1
    omega
  have hafter : ((List.range (15 - n)).map (n + 1 + ·)).filter (fun m => decide (first ≤ m ∧ (m : Int) ≤ n)) = [] := by
    rw [List.filter_eq_nil_iff]
    simp
    omega
  rw [codedPositions, hrange, List.filter_append, hafter, List.append_nil, List.range_succ, List.filter_append,
    List.filter_cons_of_pos (by simpa using hfirst), List.filter_nil, List.getLast?_concat]

/-- A block whose last position is `n` ends as that position does. -/
theorem blockTokens_getLast {ctx ctype first n : Nat} {co : Nat → Int} {d : Decision} (hfirst : first ≤ n) (hn : n ≤ 15)
    (hd : (positionTokens ctype (contextAt ctx first n co) n n (co n)).getLast? = some d) :
    (blockTokens ctx ctype first n co).getLast? = some d := by
  obtain ⟨front, hpos⟩ := List.getLast?_eq_some_iff.mp (codedPositions_getLast hfirst hn)
  rw [blockTokens_eq, hpos, List.flatMap_append, List.flatMap_singleton, ← List.cons_append, List.getLast?_append, hd]
  rfl

/-- A last position below 15 ends with node 0 of the next one, which ends the block (40_token_encoder.md R94). -/
theorem positionTokens_getLast {ctype ctx n : Nat} {x : Int} (hx : x ≠ 0) (hn : n ≠ 15) :
    (positionTokens ctype ctx n n x).getLast? = some (.dyn false (slotAt ctype (n + 1) (min x.natAbs 2) 0)) := by
  rw [positionTokens, if_neg hx, if_neg hn, List.getLast?_append, decide_eq_false (lt_irrefl _)]
  rfl

/-- Position 15 ends with its sign: there is no position after it (40_token_encoder.md R94). -/
theorem positionTokens_getLast_sign {ctype ctx : Nat} {last x : Int} (hx : x ≠ 0) :
    (positionTokens ctype ctx 15 last x).getLast? = some (.const (decide (x < 0)) 128) := by
  rw [positionTokens, if_neg hx, if_pos rfl, List.append_nil, List.getLast?_concat]

/-- A slot of node 0 as a number (30_encoding.md R63). -/
theorem slotAt_zero_val {ctype n ctx : Nat} (htype : ctype < 4) (hctx : ctx < 3) :
    (slotAt ctype n ctx 0).val = 11 * (ctx + 3 * (bandAt n + 8 * ctype)) := by
  have hband : bandAt n < 8 := by rw [← band_val]; exact (band n).isLt
  simp only [slotAt, Fin.ofNat]
  omega

/-- Settles O26: the last decision of a block is that of its last position, or the only one of an all-zero block. -/
theorem blockEnd : Obligations.BlockEnd := by
  intro ctx ctype first last co hc
  have htype : ctype.toNat < 4 := ctype.isLt
  rw [blockDecisions_eq hc]
  obtain ⟨hctx, hfirst, hlast, hin, -, -⟩ := hc
  refine ⟨fun hl => ?_, fun n band hl hn hband => ?_, fun hl => ?_⟩
  · refine ⟨slotAt ctype.toNat first.toNat ctx.toNat 0, ?_, ?_⟩
    · rw [slotAt_zero_val htype (by omega)]
      rcases hfirst with hf | hf <;> rw [hf] <;> rfl
    · rw [blockTokens_eq, codedPositions_eq_upTo (by omega), hl, upTo_eq_nil _ (by omega)]
      rfl
  · have hx : (co[n]?.getD 0).toInt ≠ 0 := by
      rw [coef_of_lt co (by omega)]
      exact (hin (by omega) ⟨n, by omega⟩).1 hl.symm
    refine ⟨slotAt ctype.toNat (n + 1) (min (co[n]?.getD 0).toInt.natAbs 2) 0, ?_, ?_⟩
    · have hb : bandAt (n + 1) = band := by rw [bandAt, List.getD_eq_getElem?_getD, hband]; rfl
      have hmin : min (co[n]?.getD 0).toInt.natAbs 2 = if (co[n]?.getD 0).toInt.natAbs = 1 then 1 else 2 := by
        split <;> omega
      rw [slotAt_zero_val htype (by omega), hb, hmin]
    · rw [hl]
      exact blockTokens_getLast (by omega) (by omega) (positionTokens_getLast hx (by omega))
  · have hx : (co[15]?.getD 0).toInt ≠ 0 := by
      rw [coef_of_lt co (by omega)]
      exact (hin (by omega) 15).1 hl.symm
    rw [hl, ← coef_of_lt co (n := 15) (by omega)]
    exact blockTokens_getLast (n := 15) (by omega) (by omega) (positionTokens_getLast_sign hx)

end Sys2Proof.Machine

/-! ### The operand contract of RECBLK (40_token_encoder.md R86) -/

namespace Sys2Proof.Machine

/-- The converse of `blockAdmitted_of_contract`: RECBLK admits no block outside the contract. -/
theorem contract_of_blockAdmitted {ctx : BitVec 2} {first : BitVec 4} {last : BitVec 5} {co : Vector Coef 16}
    (h : BlockAdmitted ctx first last co) : BlockContract ctx.toNat first.toNat last.toInt fun i => co[i].toInt := by
  obtain ⟨hctx, hfirst, hlast, hend, hzero, hrange⟩ := h
  have hz : ∀ i : Fin 16, co[i].toInt = 0 ↔ co[i] = 0 := fun i => BitVec.toInt_inj (y := 0)
  have hctx' : ctx.toNat ≠ 3 := fun h3 => hctx (BitVec.eq_of_toNat_eq h3)
  refine ⟨by omega, by omega, hlast, fun h0 i => ⟨fun hi => mt (hz i).mp (hend i hi), fun hi => ?_⟩, fun h1 i hi => ?_,
    fun i hi => ?_⟩
  · exact (hz i).mpr (hzero i (by omega) hi)
  · exact (hz i).mpr (hzero i hi (by omega))
  · have := hrange i hi
    simp only
    omega

theorem blockAdmitted_iff_contract {ctx : BitVec 2} {first : BitVec 4} {last : BitVec 5} {co : Vector Coef 16} :
    BlockAdmitted ctx first last co ↔ BlockContract ctx.toNat first.toNat last.toInt fun i => co[i].toInt :=
  ⟨contract_of_blockAdmitted, blockAdmitted_of_contract⟩

/-- In phase `REC` the contract decides between the decisions of the block and the refusal. -/
theorem exec_recblk_recording {s : State} {ctx ctype : BitVec 2} {first : BitVec 4} {last : BitVec 5}
    {co : Vector Coef 16} (hphase : s.phase = .recording) :
    exec (.recblk ctx ctype first last co) s =
      if BlockAdmitted ctx first last co then runDecisions (blockDecisions ctx ctype first last co) s
      else refuseBlock s :=
  if_pos hphase

/-- The contract does not look at the coefficients below `first`. -/
theorem BlockContract.congr {ctx first : Nat} {last : Int} {f g : Fin 16 → Int} (h : BlockContract ctx first last f)
    (hfg : ∀ i : Fin 16, first ≤ i.val → g i = f i) : BlockContract ctx first last g := by
  obtain ⟨hctx, hfirst, hlast, hin, hzero, hrange⟩ := h
  refine ⟨hctx, hfirst, hlast, fun h0 i => ⟨fun hi => ?_, fun hi => ?_⟩, fun h1 i hi => ?_, fun i hi => ?_⟩
  · rw [hfg i (by omega)]
    exact (hin h0 i).1 hi
  · rw [hfg i (by omega)]
    exact (hin h0 i).2 hi
  · rw [hfg i hi]
    exact hzero h1 i hi
  · rw [hfg i hi]
    exact hrange i hi

/-- A block reads its coefficients from `first` on. -/
theorem drop_congr {first : Nat} {co co' : Vector Coef 16} (h : ∀ i : Fin 16, first ≤ i.val → co'[i] = co[i]) :
    co'.toList.drop first = co.toList.drop first := by
  apply List.ext_getElem (by simp)
  intro k hk _
  rw [List.length_drop, Vector.length_toList] at hk
  simpa using h ⟨first + k, by omega⟩ (Nat.le_add_right _ _)

theorem blockDecisions_congr {first : BitVec 4} {co co' : Vector Coef 16} (ctx ctype : BitVec 2) (last : BitVec 5)
    (h : ∀ i : Fin 16, first.toNat ≤ i.val → co'[i] = co[i]) :
    blockDecisions ctx ctype first last co' = blockDecisions ctx ctype first last co := by
  simp only [blockDecisions, drop_congr h]

theorem record_ne_refused (i : Slot) (bit : Bool) (s : State) (x : Refusal) : record i bit s ≠ .refused x := by
  simp only [record]
  split <;> exact nofun

theorem runDecision_ne_refused (d : Decision) (s : State) (x : Refusal) : runDecision d s ≠ .refused x := by
  cases d with
  | dyn bit i => exact record_ne_refused i bit _ x
  | const bit prob => exact nofun

/-- Once its decisions run, a block can only complete or fault. -/
theorem runDecisions_ne_refused (ds : List Decision) (s : State) (x : Refusal) : runDecisions ds s ≠ .refused x := by
  induction ds generalizing s with
  | nil => exact nofun
  | cons d ds ih =>
    rw [runDecisions]
    match hd : runDecision d s with
    | .next t => exact ih t
    | .fault y => exact nofun
    | .refused y => exact absurd hd (runDecision_ne_refused d s y)

/-- Settles O20: the check of RECBLK is the contract, and neither the check nor the decisions read below `first`. -/
theorem blockContractChecked : Obligations.BlockContractChecked := by
  intro s ctx ctype first last co hphase
  refine ⟨fun hc => ?_, fun hc left => ?_, fun co' hco => ?_⟩
  · rw [exec_recblk_recording hphase, if_neg (mt contract_of_blockAdmitted hc)]
    rfl
  · rw [exec_recblk_recording hphase, if_pos (blockAdmitted_of_contract hc)]
    exact runDecisions_ne_refused _ _ _
  · have hadm : BlockAdmitted ctx first last co' ↔ BlockAdmitted ctx first last co := by
      rw [blockAdmitted_iff_contract, blockAdmitted_iff_contract]
      exact ⟨fun h => h.congr fun i hi => congrArg BitVec.toInt (hco i hi).symm,
        fun h => h.congr fun i hi => congrArg BitVec.toInt (hco i hi)⟩
    simp only [exec_recblk_recording hphase, blockDecisions_congr ctx ctype last hco, hadm]

/-! ### An all-zero block (40_token_encoder.md R95) -/

theorem blockDecisions_allZero {ctx ctype : BitVec 2} {first : BitVec 4} {last : BitVec 5} (co : Vector Coef 16)
    (hlast : last.toInt = -1) :
    blockDecisions ctx ctype first last co = [.dyn false (slotOf (firstBase ctx ctype first) 0)] :=
  if_neg (by omega)

/-- `SLOT0(type, first, ctx)` as a number (30_encoding.md R63). -/
theorem slotOf_firstBase_zero {ctx ctype : BitVec 2} {first : BitVec 4} (hctx : ctx.toNat < 3)
    (hfirst : first.toNat ≤ 1) :
    (slotOf (firstBase ctx ctype first) 0).val = 11 * (ctx.toNat + 3 * (first.toNat + 8 * ctype.toNat)) := by
  have hc : ctx.toNat % 3 = ctx.toNat := Nat.mod_eq_of_lt hctx
  have hf : first.toNat % 8 = first.toNat := Nat.mod_eq_of_lt (by omega)
  simp [slotOf, firstBase, ctxOperand, hc, hf]

/-- The word of a 0 bit is the slot itself (30_encoding.md R61). -/
theorem dynWord_false (i : Slot) : dynWord false (fieldOfSlot i) = BitVec.ofNat 16 i.val := by
  apply BitVec.eq_of_toNat_eq
  have := i.isLt
  simp only [toNat_dynWord, fieldOfSlot, BitVec.toNat_ofNat, Bool.toNat_false]
  omega

/-- A 0 bit keeps `count1`, or halves it where `total` is at its bound (42_statistics.md R116). -/
theorem recordStep_false_count (count1 total : Nat) :
    (recordStep count1 total false).1 = if total = 65535 then (count1 + 1) / 2 else count1 := by
  by_cases h : total = 65535 <;> simp [recordStep, h]

theorem recordStep_false_total (count1 total : Nat) :
    (recordStep count1 total false).2 = if total = 65535 then 32768 else total + 1 := by
  by_cases h : total = 65535 <;> simp [recordStep, h]

/-- RECORD of a 0 bit, field by field (42_statistics.md R116). -/
theorem record_false (i : Slot) (s : State) : ∃ t, record i false s = .next t ∧ t = s.withTally t.tally
    ∧ (∀ j, j ≠ i → t.tallyAt j = s.tallyAt j)
    ∧ tallyTotal (t.tallyAt i) = (if tallyTotal (s.tallyAt i) = 65535 then 32768 else tallyTotal (s.tallyAt i) + 1)
    ∧ tallyCount (t.tallyAt i) =
        if tallyTotal (s.tallyAt i) = 65535 then (tallyCount (s.tallyAt i) + 1) / 2 else tallyCount (s.tallyAt i) := by
  have hcount := tallyCount_lt (s.tallyAt i)
  have htotal := tallyTotal_lt (s.tallyAt i)
  have hfit : (recordStep (tallyCount (s.tallyAt i)) (tallyTotal (s.tallyAt i)) false).1 ≤ 65535 := by
    rw [recordStep_false_count]
    split <;> omega
  refine ⟨_, record_eq_next.mpr ⟨hfit, rfl⟩, rfl, fun j hj => ?_, ?_, ?_⟩
  · rw [tallyAt_set, if_neg hj]
  · rw [tallyAt_set, if_pos rfl, tallyTotal_tallyWord, recordStep_false_total]
    split <;> omega
  · rw [tallyAt_set, if_pos rfl, tallyCount_tallyWord, recordStep_false_count]
    split <;> omega

/-- Settles O21: the one decision of the block is an append and the RECORD of a 0 bit. -/
theorem allZeroBlock : Obligations.AllZeroBlock := by
  intro s ctx ctype first last co z hphase hlast hc hz
  have hadm := blockAdmitted_of_contract hc
  obtain ⟨hctx, hfirst, -, -, -, -⟩ := hc
  have hslot : slotOf (firstBase ctx ctype first) 0 = z :=
    Fin.ext ((slotOf_firstBase_zero (by omega) (by omega)).trans hz.symm)
  have hsame : ∀ j, (tbAppend (BitVec.ofNat 16 z.val) s).tallyAt j = s.tallyAt j := fun j => by
    simp only [State.tallyAt, tbAppend_tally]
  obtain ⟨t, hrec, hframe, hother, htotal, hcount⟩ := record_false z (tbAppend (BitVec.ofNat 16 z.val) s)
  simp only [hsame] at hother htotal hcount
  refine ⟨t, _, ?_, appended_tbAppend _ s, hframe, hother, htotal, hcount, fun h0 => ?_⟩
  · rw [exec_recblk_recording hphase, if_pos hadm, blockDecisions_allZero co hlast, hslot]
    simp only [runDecisions, runDecision, Decision.word, dynWord_false, hrec, andThen_of_next]
  · rw [hcount, h0]
    split <;> rfl

end Sys2Proof.Machine

/-! ### The buckets of a level (40_token_encoder.md R92, R93) -/

namespace Sys2Proof.Machine

/-- Bucket by bucket: what holds of each bucket's decisions holds of the level's. -/
theorem levelTokens_cases {P : List Decision → Prop} {v : Nat} {node : Nat → Slot}
    (h1 : v ≤ 1 → P [])
    (h2 : v = 2 → P [.dyn false (node 3), .dyn false (node 4)])
    (h3 : v = 3 → P [.dyn false (node 3), .dyn true (node 4), .dyn false (node 5)])
    (h4 : v = 4 → P [.dyn false (node 3), .dyn true (node 4), .dyn true (node 5)])
    (h6 : 5 ≤ v → v ≤ 6 →
      P (.dyn true (node 3) :: .dyn false (node 6) :: .dyn false (node 7) :: extraTokens (v - 5) [159]))
    (h10 : 7 ≤ v → v ≤ 10 →
      P (.dyn true (node 3) :: .dyn false (node 6) :: .dyn true (node 7) :: extraTokens (v - 7) [165, 145]))
    (h18 : 11 ≤ v → v ≤ 18 → P (.dyn true (node 3) :: .dyn true (node 6) :: .dyn false (node 8) ::
      .dyn false (node 9) :: extraTokens (v - 11) cat3))
    (h34 : 19 ≤ v → v ≤ 34 → P (.dyn true (node 3) :: .dyn true (node 6) :: .dyn false (node 8) ::
      .dyn true (node 9) :: extraTokens (v - 19) cat4))
    (h66 : 35 ≤ v → v ≤ 66 → P (.dyn true (node 3) :: .dyn true (node 6) :: .dyn true (node 8) ::
      .dyn false (node 10) :: extraTokens (v - 35) cat5))
    (hbig : 67 ≤ v → P (.dyn true (node 3) :: .dyn true (node 6) :: .dyn true (node 8) ::
      .dyn true (node 10) :: extraTokens (v - 67) cat6)) : P (levelTokens v node) := by
  unfold levelTokens
  refine iteInduction h1 fun n1 => iteInduction h2 fun n2 => iteInduction h3 fun n3 => iteInduction h4 fun n4 =>
    iteInduction (h6 (by omega)) fun n6 => iteInduction (h10 (by omega)) fun n10 => ?_
  exact iteInduction (motive := fun ds => P (_ ++ ds)) (h18 (by omega)) fun n18 =>
    iteInduction (motive := fun ds => P (_ ++ ds)) (h34 (by omega)) fun n34 =>
    iteInduction (motive := fun ds => P (_ ++ ds)) (h66 (by omega)) fun n66 => hbig (by omega)

/-! ### The number of tokens of a block (40_token_encoder.md R96, 70_reset_and_hazards.md R213) -/

@[simp] theorem length_extraTokens (x : Nat) (tab : List Prob) : (extraTokens x tab).length = tab.length := by
  simp [extraTokens]

/-- Node 1, node 2, the level and the sign of a nonzero coefficient (40_token_encoder.md R96). -/
theorem length_levelTokens {v : Nat} (node : Nat → Slot) (hv : v ≠ 0) :
    (levelTokens v node).length + 3 = coefTokens v := by
  refine levelTokens_cases (P := fun ds => ds.length + 3 = coefTokens v) ?_ ?_ ?_ ?_ ?_ ?_ ?_ ?_ ?_ ?_ <;> intros <;>
    simp (disch := omega) only [coefTokens, if_pos, if_neg, List.length_cons, List.length_nil, length_extraTokens,
      cat3, cat4, cat5, cat6]

/-- A coefficient's tokens and its continue token (40_token_encoder.md R94, R96). -/
theorem length_positionTokens (ctype ctx n : Nat) (last x : Int) :
    (positionTokens ctype ctx n last x).length = coefTokens x.natAbs + if x ≠ 0 ∧ n ≠ 15 then 1 else 0 := by
  by_cases hx : x = 0
  · subst hx
    rfl
  · rw [positionTokens, if_neg hx, ← length_levelTokens (slotAt ctype n ctx) (Int.natAbs_ne_zero.mpr hx)]
    by_cases hn : n = 15 <;> simp [hx, hn]

/-- The dynamic decisions of a list, one tally each (42_statistics.md R119). -/
def dynCount (ds : List Decision) : Nat := ds.countP Decision.isDyn

@[simp] theorem dynCount_nil : dynCount [] = 0 := rfl

@[simp] theorem dynCount_dyn_cons (bit : Bool) (i : Slot) (ds : List Decision) :
    dynCount (.dyn bit i :: ds) = dynCount ds + 1 := List.countP_cons_of_pos rfl

@[simp] theorem dynCount_const_cons (bit : Bool) (prob : Prob) (ds : List Decision) :
    dynCount (.const bit prob :: ds) = dynCount ds := List.countP_cons_of_neg nofun

@[simp] theorem dynCount_append (ds es : List Decision) : dynCount (ds ++ es) = dynCount ds + dynCount es :=
  List.countP_append

@[simp] theorem dynCount_extraTokens (x : Nat) (tab : List Prob) : dynCount (extraTokens x tab) = 0 := by
  simp [dynCount, extraTokens, Decision.isDyn]

theorem dynCount_flatMap {α : Type} (l : List α) (f : α → List Decision) :
    dynCount (l.flatMap f) = (l.map fun a => dynCount (f a)).sum := List.countP_flatMap

/-- Below node 2 a level takes at most four nodes of the tree. -/
theorem dynCount_levelTokens_le (v : Nat) (node : Nat → Slot) : dynCount (levelTokens v node) ≤ 4 := by
  refine levelTokens_cases (P := fun ds => dynCount ds ≤ 4) ?_ ?_ ?_ ?_ ?_ ?_ ?_ ?_ ?_ ?_ <;> intros <;> simp

/-- A position takes at most six dynamic tokens of its own, and a continue token. -/
theorem dynCount_positionTokens_le (ctype ctx n : Nat) (last x : Int) :
    dynCount (positionTokens ctype ctx n last x) ≤ 6 + if n ≠ 15 then 1 else 0 := by
  have hlevel := dynCount_levelTokens_le x.natAbs (slotAt ctype n ctx)
  rw [positionTokens]
  by_cases hx : x = 0
  · rw [if_pos hx]
    exact (by decide : 1 ≤ 6).trans (Nat.le_add_right _ _)
  · rw [if_neg hx]
    by_cases hn : n = 15 <;>
      simp only [hn, dynCount_append, dynCount_dyn_cons, dynCount_const_cons, dynCount_nil, ne_eq, not_true, not_false_iff,
        if_true, if_false] at * <;> omega

theorem coefTokens_le (v : Nat) : coefTokens v ≤ 18 := by
  unfold coefTokens
  repeat' refine iteInduction (motive := (· ≤ 18)) (fun _ => by decide) fun _ => ?_
  decide

/-- A sum over the coded positions as a sum over all sixteen. -/
theorem sum_codedPositions (first : Nat) (last : Int) (f : Nat → Nat) :
    ((codedPositions first last).map f).sum =
      ((List.range 16).map fun n => if first ≤ n ∧ (n : Int) ≤ last then f n else 0).sum := by
  rw [List.sum_map_ite]
  simp [codedPositions]

/-- What is bounded at each position is bounded over a block by the sum of the sixteen bounds. -/
theorem sum_codedPositions_le {first : Nat} {last : Int} {f g : Nat → Nat} (h : ∀ n, f n ≤ g n) :
    ((codedPositions first last).map f).sum ≤ ((List.range 16).map g).sum := by
  rw [sum_codedPositions]
  refine List.sum_le_sum fun n _ => ?_
  split
  · exact h n
  · exact Nat.zero_le _

theorem length_blockTokens (ctx ctype first : Nat) (last : Int) (co : Nat → Int) :
    (blockTokens ctx ctype first last co).length = 1 + ((codedPositions first last).map fun n =>
      coefTokens (co n).natAbs + if co n ≠ 0 ∧ n ≠ 15 then 1 else 0).sum := by
  simp only [blockTokens_eq, List.length_cons, List.length_flatMap, length_positionTokens, Nat.add_comm]

theorem length_blockTokens_le (ctx ctype first : Nat) (last : Int) (co : Nat → Int) :
    (blockTokens ctx ctype first last co).length ≤ 304 := by
  have hpos : ∀ n, (coefTokens (co n).natAbs + if co n ≠ 0 ∧ n ≠ 15 then 1 else 0) ≤ 18 + if n ≠ 15 then 1 else 0 :=
    fun n => Nat.add_le_add (coefTokens_le _) (by split_ifs <;> omega)
  calc (blockTokens ctx ctype first last co).length
      = 1 + _ := length_blockTokens ..
    _ ≤ 1 + ((List.range 16).map fun n => 18 + if n ≠ 15 then 1 else 0).sum :=
        Nat.add_le_add_left (sum_codedPositions_le hpos) 1
    _ = 304 := rfl

theorem dynCount_blockTokens_le (ctx ctype first : Nat) (last : Int) (co : Nat → Int) :
    dynCount (blockTokens ctx ctype first last co) ≤ 112 := by
  calc dynCount (blockTokens ctx ctype first last co)
      = ((codedPositions first last).map fun n =>
          dynCount (positionTokens ctype (contextAt ctx first n co) n last (co n))).sum + 1 := by
        rw [blockTokens_eq, dynCount_dyn_cons, dynCount_flatMap]
    _ ≤ ((List.range 16).map fun n => 6 + if n ≠ 15 then 1 else 0).sum + 1 :=
        Nat.add_le_add_right (sum_codedPositions_le fun n => dynCount_positionTokens_le ..) 1
    _ = 112 := rfl

/-- Settles O24: position by position, with each position's own count and bound. -/
theorem blockTokenCount : Obligations.BlockTokenCount := by
  intro ctx ctype first last co hc
  rw [blockDecisions_eq hc, ← List.countP_eq_length_filter]
  refine ⟨?_, length_blockTokens_le .., dynCount_blockTokens_le ..⟩
  have hzero : ∀ i : Fin 16, co[i].toInt = 0 ↔ co[i] = 0 := fun i => BitVec.toInt_inj (y := 0)
  rw [length_blockTokens, sum_codedPositions, ← List.map_coe_finRange_eq_range, List.map_map]
  congr 3
  funext i
  have hi : (co[i.val]?.getD 0).toInt = co[i].toInt := coef_of_lt co i.isLt
  simp only [Function.comp_apply, hi, ne_eq, hzero]

/-! ### Every token word of a block is legal (40_token_encoder.md R97) -/

/-- The probabilities a constant token of a block can have (40_token_encoder.md R97). -/
def BlockProb (prob : Prob) : Prop :=
  prob = 128 ∨ prob = 159 ∨ prob = 165 ∨ prob = 145 ∨ prob ∈ cat3 ∨ prob ∈ cat4 ∨ prob ∈ cat5 ∨ prob ∈ cat6

/-- A decision that a block of this type can make: a slot of the type, or one of the constant probabilities. -/
def Decision.InBlock (ctype : Fin 4) : Decision → Prop
  | .dyn _ i => (baseOfSlot i).ctype = ctype
  | .const _ prob => BlockProb prob

theorem Decision.InBlock.dyn (bit : Bool) (b : SlotBase) (node : Fin 11) :
    (Decision.dyn bit (slotOf b node)).InBlock b.ctype :=
  congrArg SlotBase.ctype (baseOfSlot_slotOf b node)

theorem extraBits_inBlock {ctype : Fin 4} {tab : List Prob} (htab : ∀ p ∈ tab, BlockProb p) (x : Nat) :
    ∀ d ∈ extraBits x tab, d.InBlock ctype := by
  induction tab with
  | nil => exact nofun
  | cons p ps ih =>
    rw [extraBits, List.forall_mem_cons]
    exact ⟨htab p List.mem_cons_self, ih fun q hq => htab q (List.mem_cons_of_mem _ hq)⟩

theorem magnitude_inBlock (v : Nat) (b : SlotBase) : ∀ d ∈ magnitude v b, d.InBlock b.ctype := by
  have hd := fun bit => Decision.InBlock.dyn bit b
  have h159 : ∀ bit, (Decision.const bit 159).InBlock b.ctype := fun _ => .inr (.inl rfl)
  have h165 : ∀ bit, (Decision.const bit 165).InBlock b.ctype := fun _ => .inr (.inr (.inl rfl))
  have h145 : ∀ bit, (Decision.const bit 145).InBlock b.ctype := fun _ => .inr (.inr (.inr (.inl rfl)))
  unfold magnitude
  simp only
  split_ifs <;> simp only [List.forall_mem_cons, hd, h159, h165, h145, true_and, List.not_mem_nil, false_imp_iff,
    implies_true]
  all_goals exact extraBits_inBlock (fun p hp => by simp [BlockProb, hp]) _

theorem codePositions_inBlock (last : Int) (xs : List Coef) (n : Nat) (b : SlotBase) :
    ∀ d ∈ codePositions last xs n b, d.InBlock b.ctype := by
  induction xs generalizing n b with
  | nil => exact nofun
  | cons x xs ih =>
    have hd := fun bit => Decision.InBlock.dyn bit b
    by_cases hx : x.toInt = 0
    · rw [codePositions_zero _ _ _ _ hx, List.forall_mem_cons]
      exact ⟨hd _ _, ih _ (nextBase b (n + 1) 0)⟩
    · rw [codePositions_nonzero _ _ _ _ hx, List.forall_mem_cons, List.forall_mem_cons, List.forall_mem_append,
        List.forall_mem_cons]
      have hnext := fun bit => Decision.InBlock.dyn bit (nextBase b (n + 1) (leftContext x.toInt.natAbs))
      refine ⟨hd _ _, hd _ _, ?_, .inl rfl, ?_⟩
      · split
        · exact magnitude_inBlock _ b
        · exact nofun
      · split_ifs
        · exact nofun
        · exact List.forall_mem_cons.mpr ⟨hnext _ _, ih _ (nextBase b _ _)⟩
        · exact List.forall_mem_singleton.mpr (hnext _ _)

/-- Every decision of a block, whatever its operands, is of the block's type. -/
theorem blockDecisions_inBlock (ctx ctype : BitVec 2) (first : BitVec 4) (last : BitVec 5) (co : Vector Coef 16) :
    ∀ d ∈ blockDecisions ctx ctype first last co, d.InBlock ctype.toFin := by
  have hd := fun bit => Decision.InBlock.dyn bit (firstBase ctx ctype first)
  simp only [blockDecisions]
  split
  · exact List.forall_mem_cons.mpr ⟨hd _ _, codePositions_inBlock _ _ _ _⟩
  · exact List.forall_mem_singleton.mpr (hd _ _)

theorem toNat_fieldOfSlot (i : Slot) : (fieldOfSlot i).toNat = i.val :=
  slotOfField_eq_some.mp (slotOfField_fieldOfSlot i)

theorem decodeToken_word_dyn (bit : Bool) (i : Slot) :
    decodeToken (Decision.dyn bit i).word = .ok (.tokDyn bit (fieldOfSlot i)) :=
  decodeToken_dynWord (by rw [toNat_fieldOfSlot]; exact i.isLt)

/-- Settles O25: a slot of the block's type is one of the 264 from `264·type`. -/
theorem blockTokensAreLegal : Obligations.BlockTokensAreLegal := by
  intro ctx ctype first last co d hd
  have hin := blockDecisions_inBlock ctx ctype first last co d hd
  cases d with
  | dyn bit i =>
    have htype : i.val / 264 = ctype.toNat := congrArg Fin.val hin
    refine .inl ⟨bit, fieldOfSlot i, decodeToken_word_dyn bit i, ?_, ?_⟩ <;> rw [toNat_fieldOfSlot]
    · exact i.isLt
    · exact htype
  | const bit prob => exact .inr ⟨bit, prob, decodeToken_constWord bit prob, hin⟩

end Sys2Proof.Machine

/-! ### Reading a block back from its bits (40_token_encoder.md R88 to R94)

The bits of a block's decisions alone tell its coefficients: the reader below recovers them, so two blocks with the same
token words have the same coefficients. -/

namespace Sys2Proof.Machine

/-- The bit of a decision, which its token word holds (30_encoding.md R61). -/
def Decision.bit : Decision → Bool
  | .dyn bit _ => bit
  | .const bit _ => bit

theorem bitField_word (d : Decision) : bitField d.word = d.bit := by
  cases d with
  | dyn bit i => exact bitField_dynWord bit _
  | const bit prob => exact bitField_constWord bit prob

/-- The number whose binary digits are the bits, most significant first. -/
def bitsValue : List Bool → Nat
  | [] => 0
  | b :: bs => b.toNat * 2 ^ bs.length + bitsValue bs

theorem bitsValue_extraBits (x : Nat) (tab : List Prob) :
    bitsValue ((extraBits x tab).map Decision.bit) = x % 2 ^ tab.length := by
  induction tab with
  | nil => exact (Nat.mod_one x).symm
  | cons p ps ih =>
    have hlen : ((extraBits x ps).map Decision.bit).length = ps.length := by
      rw [List.length_map, extraBits_eq, length_extraTokens]
    rw [extraBits, List.map_cons, bitsValue, ih, hlen, List.length_cons, Nat.mod_pow_succ, Decision.bit,
      Nat.toNat_testBit, Nat.mul_comm, Nat.add_comm]

/-- Reading `k` extra bits of a magnitude that starts at `low`, and what follows them (40_token_encoder.md R93). -/
def readExtra (k low : Nat) (bs : List Bool) : Nat × List Bool := (low + bitsValue (bs.take k), bs.drop k)

theorem readExtra_extraTokens {low v : Nat} {tab : List Prob} (hlow : low ≤ v) (hv : v < low + 2 ^ tab.length)
    (r : List Bool) : readExtra tab.length low ((extraTokens (v - low) tab).map Decision.bit ++ r) = (v, r) := by
  have hlen : ((extraTokens (v - low) tab).map Decision.bit).length = tab.length := by simp
  rw [readExtra, List.take_left' hlen, List.drop_left' hlen, ← extraBits_eq, bitsValue_extraBits,
    Nat.mod_eq_of_lt (by omega), Nat.add_sub_cancel' hlow]

/-- Reading a magnitude of two or more along the nodes 3 to 10 of the tree (40_token_encoder.md R92). -/
def readLevel : List Bool → Nat × List Bool
  | false :: false :: r => (2, r)
  | false :: true :: r => readExtra 1 3 r
  | true :: false :: false :: r => readExtra 1 5 r
  | true :: false :: true :: r => readExtra 2 7 r
  | true :: true :: false :: false :: r => readExtra 3 11 r
  | true :: true :: false :: true :: r => readExtra 4 19 r
  | true :: true :: true :: false :: r => readExtra 5 35 r
  | true :: true :: true :: true :: r => readExtra 11 67 r
  | r => (0, r)

theorem readLevel_levelTokens {v : Nat} (node : Nat → Slot) (hlow : 2 ≤ v) (hhigh : v ≤ 2047) (r : List Bool) :
    readLevel ((levelTokens v node).map Decision.bit ++ r) = (v, r) := by
  refine levelTokens_cases (P := fun ds => readLevel (ds.map Decision.bit ++ r) = (v, r))
    ?_ ?_ ?_ ?_ ?_ ?_ ?_ ?_ ?_ ?_
  · omega
  · rintro rfl; rfl
  · rintro rfl; rfl
  · rintro rfl; rfl
  · exact fun h h' => readExtra_extraTokens (tab := [159]) h (Nat.lt_succ_of_le h') r
  · exact fun h h' => readExtra_extraTokens (tab := [165, 145]) h (Nat.lt_succ_of_le h') r
  · exact fun h h' => readExtra_extraTokens (tab := cat3) h (Nat.lt_succ_of_le h') r
  · exact fun h h' => readExtra_extraTokens (tab := cat4) h (Nat.lt_succ_of_le h') r
  · exact fun h h' => readExtra_extraTokens (tab := cat5) h (Nat.lt_succ_of_le h') r
  · exact fun h => readExtra_extraTokens (tab := cat6) h (hhigh.trans_lt (by decide)) r

/-- Reading the sign after a magnitude (40_token_encoder.md R91). -/
def readSign (v : Nat) : List Bool → Int × List Bool
  | neg :: r => (if neg then -(v : Int) else v, r)
  | [] => (v, [])

theorem readSign_natAbs (x : Int) (r : List Bool) : readSign x.natAbs (decide (x < 0) :: r) = (x, r) := by
  by_cases h : x < 0
  · simp only [readSign, h, decide_true, if_true]
    congr
    omega
  · simp only [readSign, h, decide_false, Bool.false_eq_true, if_false]
    congr
    omega

/-- Reading a coefficient from its node 1 on (40_token_encoder.md R91). -/
def readCoef : List Bool → Int × List Bool
  | false :: r => (0, r)
  | true :: false :: r => readSign 1 r
  | true :: true :: r => readSign (readLevel r).1 (readLevel r).2
  | _ => (0, [])

theorem readCoef_of_nonzero {x : Int} (node : Nat → Slot) (hx : x ≠ 0) (hhigh : x.natAbs ≤ 2047) (r : List Bool) :
    readCoef (true :: decide (2 ≤ x.natAbs) ::
      ((levelTokens x.natAbs node).map Decision.bit ++ decide (x < 0) :: r)) = (x, r) := by
  by_cases h : 2 ≤ x.natAbs
  · simp only [h, decide_true, readCoef, readLevel_levelTokens node h hhigh, readSign_natAbs]
  · have h1 : x.natAbs = 1 := by omega
    have hsign := readSign_natAbs x r
    rw [h1] at hsign ⊢
    exact hsign

/-- Reading the coefficients of `k` positions up to position 15: after a nonzero one but at position 15, node 0 says
whether the block goes on; after its end all are zero (40_token_encoder.md R94). -/
def readPositions : Nat → List Bool → List Int
  | 0, _ => []
  | k + 1, bs =>
    if (readCoef bs).1 = 0 then 0 :: readPositions k (readCoef bs).2
    else (readCoef bs).1 ::
      match (readCoef bs).2 with
      | true :: r => readPositions k r
      | _ => List.replicate k 0

theorem readPositions_zero (k : Nat) (r : List Bool) :
    readPositions (k + 1) (false :: r) = 0 :: readPositions k r := rfl

theorem readPositions_end (r : List Bool) (k : Nat) {bs : List Bool} {x : Int} (hx : x ≠ 0)
    (hbs : readCoef bs = (x, false :: r) ∨ readCoef bs = (x, [])) :
    readPositions (k + 1) bs = x :: List.replicate k 0 := by
  rcases hbs with h | h <;> simp only [readPositions, h, hx, if_false]

theorem readPositions_continue (r : List Bool) (k : Nat) {bs : List Bool} {x : Int} (hx : x ≠ 0)
    (hbs : readCoef bs = (x, true :: r)) : readPositions (k + 1) bs = x :: readPositions k r := by
  simp only [readPositions, hbs, hx, if_false]

/-- The coefficients of a block, as a function of the position: `last` is the last nonzero one, and the coded ones are
in range (40_token_encoder.md R86). -/
structure CodedLevels (first : Nat) (last : Int) (c : Nat → Int) : Prop where
  last_le : last ≤ 15
  last_nonzero : ∀ n : Nat, (n : Int) = last → c n ≠ 0
  zero_after : ∀ n : Nat, first ≤ n → last < (n : Int) → c n = 0
  range : ∀ n, first ≤ n → (c n).natAbs ≤ 2047

theorem BlockContract.codedLevels {ctx first : Nat} {last : Int} {co : Vector Coef 16}
    (h : BlockContract ctx first last fun i => co[i].toInt) :
    CodedLevels first last fun n => (co[n]?.getD 0).toInt := by
  obtain ⟨-, -, hlast, hin, hzero, hrange⟩ := h
  have hbeyond : ∀ n, 16 ≤ n → (co[n]?.getD 0).toInt = 0 := fun n hn => by
    rw [Vector.getElem?_eq_none hn]
    rfl
  refine ⟨by omega, fun n hn => ?_, fun n hf hn => ?_, fun n hf => ?_⟩
  · rw [coef_of_lt co (by omega)]
    exact (hin (by omega) ⟨n, by omega⟩).1 hn
  · by_cases h16 : n < 16
    · rw [coef_of_lt co h16]
      rcases hlast with h1 | h0
      · exact hzero h1 ⟨n, h16⟩ hf
      · exact (hin (by omega) ⟨n, h16⟩).2 hn
    · exact hbeyond n (by omega)
  · by_cases h16 : n < 16
    · rw [coef_of_lt co h16]
      have := hrange ⟨n, h16⟩ hf
      simp only [Fin.getElem_fin] at this
      omega
    · rw [hbeyond n (by omega)]
      decide

theorem CodedLevels.zeros {first n : Nat} {last : Int} {c : Nat → Int} (h : CodedLevels first last c)
    (hf : first ≤ n) (hn : last < (n : Int)) (k : Nat) : (List.range' n k).map c = List.replicate k 0 := by
  rw [List.eq_replicate_iff, List.length_map, List.length_range']
  refine ⟨rfl, fun x hx => ?_⟩
  obtain ⟨m, hm, rfl⟩ := List.mem_map.mp hx
  have := (List.mem_range'_1.mp hm).1
  exact h.zero_after m (by omega) (by omega)

/-- The bits of a position before those of the positions after it. -/
theorem bits_positionTokens {ctype ctx n : Nat} {last x : Int} (hx : x ≠ 0) (r : List Bool) :
    (positionTokens ctype ctx n last x).map Decision.bit ++ r =
      true :: decide (2 ≤ x.natAbs) :: ((levelTokens x.natAbs (slotAt ctype n ctx)).map Decision.bit ++
        decide (x < 0) :: ((if n = 15 then [] else [decide ((n : Int) < last)]) ++ r)) := by
  rw [positionTokens, if_neg hx]
  split <;> simp [Decision.bit]

/-- The reader recovers the coefficients of the positions from `n` on. -/
theorem readPositions_bits {ctype first : Nat} {last : Int} {cx : Nat → Nat} {c : Nat → Int}
    (h : CodedLevels first last c) (k n : Nat) (hk : n + k = 16) (hf : first ≤ n) (hn : (n : Int) ≤ last) :
    readPositions k (((upTo last n k).flatMap fun m => positionTokens ctype (cx m) m last (c m)).map Decision.bit) =
      (List.range' n k).map c := by
  induction k generalizing n with
  | zero => rfl
  | succ k ih =>
    rw [upTo_succ k hn, List.flatMap_cons, List.map_append, List.range'_succ, List.map_cons]
    by_cases hx : c n = 0
    · have hlt : (n : Int) < last := lt_of_le_of_ne hn fun he => h.last_nonzero n he hx
      rw [hx, positionTokens, if_pos rfl]
      exact (readPositions_zero k _).trans (congrArg _ (ih (n + 1) (by omega) (by omega) (by omega)))
    · have hread := fun r => readCoef_of_nonzero (slotAt ctype n (cx n)) hx (h.range n hf) r
      rw [bits_positionTokens hx]
      by_cases hlt : (n : Int) < last
      · have h15 : n ≠ 15 := by have := h.last_le; omega
        rw [if_neg h15, decide_eq_true hlt, List.singleton_append, readPositions_continue _ k hx (hread _),
          ih (n + 1) (by omega) (by omega) (by omega)]
      · rw [upTo_eq_nil k (by omega), h.zeros (by omega) (by omega), decide_eq_false hlt]
        refine readPositions_end [] k hx ?_
        rw [hread]
        split <;> simp

/-- Reading the coefficients of a block from its first position on, `k` of them (40_token_encoder.md R88, R95). -/
def readBlock (k : Nat) : List Bool → List Int
  | true :: r => readPositions k r
  | _ => List.replicate k 0

/-- The reader recovers the coefficients of an admitted block. -/
theorem readBlock_bits {ctx ctype : BitVec 2} {first : BitVec 4} {last : BitVec 5} {co : Vector Coef 16}
    (h : BlockContract ctx.toNat first.toNat last.toInt fun i => co[i].toInt) :
    readBlock (16 - first.toNat) ((blockDecisions ctx ctype first last co).map Decision.bit) =
      (List.range' first.toNat (16 - first.toNat)).map fun n => (co[n]?.getD 0).toInt := by
  have hlevels := h.codedLevels
  rw [blockDecisions_eq h]
  obtain ⟨-, hfirst, hlast, -, -, -⟩ := h
  rw [blockTokens_eq, codedPositions_eq_upTo (by omega), List.map_cons]
  by_cases h0 : 0 ≤ last.toInt
  · rw [decide_eq_true h0]
    exact readPositions_bits hlevels _ _ (by omega) le_rfl (by omega)
  · rw [decide_eq_false h0, hlevels.zeros le_rfl (by omega)]
    rfl

/-- The coefficients of a block determine its `last`, the position of the last nonzero one. -/
theorem CodedLevels.last_le_of_agree {first : Nat} {last last' : Int} {c c' : Nat → Int}
    (h : CodedLevels first last c) (h' : CodedLevels first last' c') (hlast : last = -1 ∨ (first : Int) ≤ last)
    (hlast' : -1 ≤ last') (hc : ∀ n, first ≤ n → n < 16 → c n = c' n) : last ≤ last' := by
  by_contra hlt
  obtain ⟨n, rfl⟩ := Int.eq_ofNat_of_zero_le (a := last) (by omega)
  have hn := h.last_le
  exact h.last_nonzero n rfl ((hc n (by omega) (by omega)).trans (h'.zero_after n (by omega) (by omega)))

/-- Settles O28: equal words have equal bits, from which the reader recovers one block. -/
theorem blockIsLossless : Obligations.BlockIsLossless := by
  intro ctx ctype first last last' co co' hc hc' hwords
  have hbits : (blockDecisions ctx ctype first last co).map Decision.bit =
      (blockDecisions ctx ctype first last' co').map Decision.bit := by
    simpa only [List.map_map, Function.comp_def, bitField_word] using congrArg (List.map bitField) hwords
  have hread := congrArg (readBlock (16 - first.toNat)) hbits
  rw [readBlock_bits hc, readBlock_bits hc', List.map_inj_left] at hread
  have hco : ∀ n, first.toNat ≤ n → n < 16 → (co[n]?.getD 0).toInt = (co'[n]?.getD 0).toInt := fun n hf hn =>
    hread n (List.mem_range'_1.mpr ⟨hf, by omega⟩)
  have hlevels := hc.codedLevels
  have hlevels' := hc'.codedLevels
  obtain ⟨-, -, hlast, -, -, -⟩ := hc
  obtain ⟨-, -, hlast', -, -, -⟩ := hc'
  refine ⟨BitVec.toInt_inj.mp (le_antisymm ?_ ?_), fun i hi => ?_⟩
  · exact hlevels.last_le_of_agree hlevels' (by omega) (by omega) hco
  · exact hlevels'.last_le_of_agree hlevels (by omega) (by omega) fun n hf hn => (hco n hf hn).symm
  · have h := hco i hi i.isLt
    rw [coef_of_lt co i.isLt, coef_of_lt co' i.isLt] at h
    exact BitVec.toInt_inj.mp h

/-! ### The trace table (40_token_encoder.md R99) -/

/-- Settles O27, row by row: each block is evaluated. -/
theorem traceTable : Obligations.TraceTable := by
  unfold Obligations.TraceTable
  and_intros
  all_goals rfl

end Sys2Proof.Machine

/-! ### The commands that append (41_token_buffer.md R105, R106) -/

namespace Sys2Proof.Machine

/-- The word of APPD as the number `(bit << 15) | slot`. -/
theorem dynWord_eq_ofNat (bit : Bool) (slot : BitVec 14) :
    dynWord bit slot = BitVec.ofNat 16 (bit.toNat * 32768 + slot.toNat) := by
  rw [← toNat_dynWord, BitVec.ofNat_toNat, BitVec.setWidth_eq]

/-- The word of APPC as the number `(bit << 15) | (1 << 14) | prob`. -/
theorem constWord_eq_ofNat (bit : Bool) (prob : Prob) :
    constWord bit prob = BitVec.ofNat 16 (bit.toNat * 32768 + 16384 + prob.toNat) := by
  rw [← toNat_constWord, BitVec.ofNat_toNat, BitVec.setWidth_eq]

theorem exec_appd_of_slot_high {s : State} {bit : Bool} {slot : BitVec 14} (h : 1056 ≤ slot.toNat) :
    exec (.appd bit slot) s = refuseIllegal s := by
  simp only [exec, execAppd, slotOfField_eq_none.mpr h]

theorem exec_appd_of_slot_lt {s : State} {bit : Bool} {slot : BitVec 14} (h : slot.toNat < 1056) :
    exec (.appd bit slot) s =
      if s.phase = .recording then .next (tbAppend (dynWord bit slot) s) else refusePhase s := by
  have hslot : slotOfField slot = some ⟨slot.toNat, h⟩ := slotOfField_eq_some.mpr rfl
  simp only [exec, execAppd, hslot]

theorem exec_appc (s : State) (bit : Bool) (prob : Prob) :
    exec (.appc bit prob) s =
      if s.phase = .recording then .next (tbAppend (constWord bit prob) s) else refusePhase s := rfl

/-- Settles O29: an APPD that completes is `TBAPPEND` of its word. -/
theorem appdResult : Obligations.AppdResult := by
  intro s bit slot
  refine ⟨exec_appd_of_slot_high, fun hslot hphase => ?_, fun hslot hphase => ?_⟩
  · rw [exec_appd_of_slot_lt hslot, if_neg hphase]
    rfl
  · rw [exec_appd_of_slot_lt hslot, if_pos hphase, dynWord_eq_ofNat]
    exact ⟨_, rfl, appended_tbAppend _ s⟩

/-- Settles O30: an APPC that completes is `TBAPPEND` of its word. -/
theorem appcResult : Obligations.AppcResult := by
  intro s bit prob
  refine ⟨fun hphase => ?_, fun hphase => ?_⟩
  · rw [exec_appc, if_neg hphase]
    rfl
  · rw [exec_appc, if_pos hphase, constWord_eq_ofNat]
    exact ⟨_, rfl, appended_tbAppend _ s⟩

/-! ### The layout of the tokens in pages (41_token_buffer.md R107, R108) -/

/-- The page and the slot of the `i`-th recorded token, the pages holding `size` slots each (41_token_buffer.md R107). -/
def tokenPlace (size i : Nat) : Nat × Nat := (i / size, size - 1 - i % size)

/-- The tokens of page `p` are those from `p * size` on, the first in the highest slot. -/
theorem tokenPlace_mul_add {size j : Nat} (p : Nat) (hj : j < size) :
    tokenPlace size (p * size + j) = (p, size - 1 - j) := by
  rw [tokenPlace, Nat.mul_comm p, Nat.mul_add_div (by omega), Nat.mul_add_mod, Nat.div_eq_of_lt hj,
    Nat.mod_eq_of_lt hj, Nat.add_zero]

/-- Two tokens do not share a slot. -/
theorem tokenPlace_inj {size i j : Nat} (hsize : 0 < size) : tokenPlace size i = tokenPlace size j ↔ i = j := by
  refine ⟨fun h => ?_, fun h => h ▸ rfl⟩
  obtain ⟨hpage, hslot⟩ := Prod.mk.inj h
  have hmod : i % size = j % size := by
    have := Nat.mod_lt i hsize
    have := Nat.mod_lt j hsize
    omega
  calc i = size * (i / size) + i % size := (Nat.div_add_mod i size).symm
    _ = size * (j / size) + j % size := by rw [hpage, hmod]
    _ = j := Nat.div_add_mod j size

/-- The first `k` visits of a page. -/
theorem map_range_page {size k : Nat} (p : Nat) (hk : k ≤ size) :
    ((List.range k).map fun j => (p, size - 1 - j)) = (List.range k).map fun j => tokenPlace size (p * size + j) :=
  List.map_congr_left fun _ hj => (tokenPlace_mul_add p ((List.mem_range.mp hj).trans_le hk)).symm

/-- `m` full pages and the first `k` visits of the page after them. -/
theorem map_tokenPlace_range_add (size m k : Nat) (hk : k ≤ size) :
    (List.range (m * size + k)).map (tokenPlace size) =
      (List.range (m * size)).map (tokenPlace size) ++ (List.range k).map fun j => (m, size - 1 - j) := by
  rw [map_range_page m hk, List.range_add, List.map_append, List.map_map]
  rfl

theorem flatMap_full_pages (size m : Nat) :
    ((List.range m).flatMap fun p => (List.range size).map fun j => (p, size - 1 - j)) =
      (List.range (m * size)).map (tokenPlace size) := by
  induction m with
  | zero => rw [Nat.zero_mul]; rfl
  | succ m ih =>
    rw [List.range_succ, List.flatMap_append, ih, List.flatMap_singleton, Nat.succ_mul,
      map_tokenPlace_range_add size m size le_rfl]

/-- A traversal visits the places of the tokens in order: every page but the last is full. -/
theorem traversal_eq_map_tokenPlace {n left size : Nat} (hleft : left ≤ size) (hnone : n = 0 → left = 0) :
    traversal n left size = (List.range (n * size - left)).map (tokenPlace size) := by
  cases n with
  | zero => simp [traversal]
  | succ m =>
    have hfull : ∀ p ∈ List.range m,
        ((List.range (size - if p + 1 = m + 1 then left else 0)).map fun j => (p, size - 1 - j)) =
          (List.range size).map fun j => (p, size - 1 - j) := fun p hp => by
      have := List.mem_range.mp hp
      rw [if_neg (by omega), Nat.sub_zero]
    have hcount : (m + 1) * size - left = m * size + (size - left) := by
      rw [Nat.succ_mul, Nat.add_sub_assoc hleft]
    rw [hcount, map_tokenPlace_range_add size m _ (Nat.sub_le _ _), ← flatMap_full_pages, traversal, List.range_succ,
      List.flatMap_append, List.flatMap_singleton, if_pos rfl, List.flatMap_congr hfull]

/-- The recorded tokens, read one by one at their places. -/
theorem tokseq_eq_map_tokWord {s : State} (hleft : s.left ≤ s.pageSize) (hnone : s.npages = 0 → s.left = 0) :
    s.tokseq = (List.range s.ntok).map fun i =>
      s.tokWord (tokenPlace s.pageSize i).1 (tokenPlace s.pageSize i).2 := by
  rw [State.tokseq, traversal_eq_map_tokenPlace hleft hnone, List.map_map]
  rfl

/-- The last page is not all free. -/
theorem State.BufferInv.left_lt {s : State} (h : s.BufferInv) : s.left < s.pageSize := by
  by_cases h0 : s.npages = 0
  · have := h.size_low
    have := h.none_free h0
    omega
  · exact h.free h0

theorem State.BufferInv.left_le {s : State} (h : s.BufferInv) : s.left ≤ s.pageSize := h.left_lt.le

/-- Every slot of the pages holds a token or is free. -/
theorem ntok_add_left {s : State} (hleft : s.left ≤ s.pageSize) (hnone : s.npages = 0 → s.left = 0) :
    s.ntok + s.left = s.npages * s.pageSize := by
  refine Nat.sub_add_cancel ?_
  by_cases h0 : s.npages = 0
  · simp [hnone h0]
  · exact hleft.trans (Nat.le_mul_of_pos_left _ (Nat.pos_of_ne_zero h0))

/-- The pages are as many as the tokens need: only the last has free slots, and fewer than a page of them. -/
theorem State.BufferInv.npages_eq {s : State} (h : s.BufferInv) :
    s.npages = (s.ntok + s.pageSize - 1) / s.pageSize := by
  have hslots := ntok_add_left h.left_le h.none_free
  have hfree := h.left_lt
  refine (Nat.div_eq_of_lt_le ?_ ?_).symm
  · omega
  · rw [Nat.succ_mul]
    omega

theorem State.BufferInv.left_eq {s : State} (h : s.BufferInv) : s.left = s.npages * s.pageSize - s.ntok := by
  have := ntok_add_left h.left_le h.none_free
  omega

/-- Settles O33: the traversal visits the places of R107 in order. -/
theorem tokenLayout : Obligations.TokenLayout := by
  intro s h
  have hseq := tokseq_eq_map_tokWord h.left_le h.none_free
  refine ⟨by rw [hseq, List.length_map, List.length_range], h.npages_eq, h.left_eq, fun i hi => ?_⟩
  simp only [hseq, List.getElem_map, List.getElem_range, tokenPlace]

/-! ### Appends to a buffer with room (41_token_buffer.md R102, R112) -/

/-- Where the last page has a free slot, the next one is the place of the token after those recorded. -/
theorem nextSlot_eq_tokenPlace {s : State} (hpages : s.npages ≠ 0) (hfree : s.left ≠ 0) (hleft : s.left ≤ s.pageSize) :
    s.nextSlot = tokenPlace s.pageSize s.ntok := by
  obtain ⟨m, hm⟩ := Nat.exists_eq_succ_of_ne_zero hpages
  have hcount : s.ntok = m * s.pageSize + (s.pageSize - s.left) := by
    rw [State.ntok, hm, Nat.succ_mul, Nat.add_sub_assoc hleft]
  rw [hcount, tokenPlace_mul_add m (by omega), State.nextSlot, hm]
  exact Prod.ext rfl (by simp only; omega)

/-- A token word stored in a page with a free slot is one token more. -/
theorem ntok_storeToken {s : State} (w : TokWord) (hpages : s.npages ≠ 0) (hfree : s.left ≠ 0)
    (hleft : s.left ≤ s.pageSize) : (storeToken w s).ntok = s.ntok + 1 := by
  have := ntok_add_left hleft fun h0 => absurd h0 hpages
  rw [State.ntok, storeToken_npages, storeToken_pageSize, storeToken_left]
  omega

/-- A token word stored in a page with a free slot is traversed last. -/
theorem tokseq_storeToken {s : State} (w : TokWord) (hpages : s.npages ≠ 0) (hfree : s.left ≠ 0)
    (hleft : s.left ≤ s.pageSize) : (storeToken w s).tokseq = s.tokseq ++ [w] := by
  have hword : ∀ i, (storeToken w s).tokWord (tokenPlace s.pageSize i).1 (tokenPlace s.pageSize i).2 =
      if i = s.ntok then w else s.tokWord (tokenPlace s.pageSize i).1 (tokenPlace s.pageSize i).2 := fun i => by
    refine (tokWord_write s s.nextSlot.1 s.nextSlot.2 _ _ w).trans ?_
    rw [nextSlot_eq_tokenPlace hpages hfree hleft]
    simp only [← Prod.ext_iff, tokenPlace_inj (by omega : 0 < s.pageSize)]
  have hleft' : (storeToken w s).left ≤ (storeToken w s).pageSize := (Nat.sub_le _ _).trans hleft
  rw [tokseq_eq_map_tokWord hleft' fun h0 => absurd h0 hpages, ntok_storeToken w hpages hfree hleft, List.range_succ,
    List.map_append, tokseq_eq_map_tokWord hleft fun h0 => absurd h0 hpages]
  simp only [storeToken_pageSize, hword, List.map_singleton, if_true]
  refine congrArg (· ++ [w]) (List.map_congr_left fun i hi => if_neg ?_)
  exact (List.mem_range.mp hi).ne

/-- A new page holds no token, where the page before it is full. -/
theorem ntok_allocPage {s : State} (hfull : s.left = 0) : (allocPage s).ntok = s.ntok := by
  simp only [State.ntok, allocPage_npages, allocPage_pageSize, allocPage_left, hfull, Nat.succ_mul]
  omega

theorem tokseq_allocPage {s : State} (hfull : s.left = 0) : (allocPage s).tokseq = s.tokseq := by
  rw [tokseq_eq_map_tokWord (s := allocPage s) le_rfl fun h0 => (nomatch h0), ntok_allocPage hfull,
    tokseq_eq_map_tokWord (by omega) fun _ => hfull]
  rfl

theorem State.BufferInv.left_eq_zero_of_noRoom {s : State} (h : s.BufferInv) (hfull : s.noRoom = true) :
    s.left = 0 :=
  ((noRoom_iff s).mp hfull).elim h.none_free id

/-- One append with room for it: the word is traversed last. -/
theorem tbAppend_of_hasRoom {s : State} (w : TokWord) (h : s.BufferInv) (hroom : s.HasRoomFor 1) :
    (tbAppend w s).tokseq = s.tokseq ++ [w] ∧ (tbAppend w s).tbError = false ∧ (tbAppend w s).ntok = s.ntok + 1 := by
  have hsize := h.size_low
  obtain ⟨herr, hcap⟩ := hroom
  rcases tbAppend_cases w s with ⟨he, -⟩ | ⟨-, hfull, hmax, -⟩ | ⟨-, hfull, -, e⟩ | ⟨-, hfree, e⟩
  · exact absurd he (ne_true_of_eq_false herr)
  · rw [State.ntok, h.left_eq_zero_of_noRoom hfull, hmax] at hcap
    omega
  · have h0 := h.left_eq_zero_of_noRoom hfull
    have hpages : (allocPage s).npages ≠ 0 := Nat.succ_ne_zero _
    have hleft : (allocPage s).left ≠ 0 := by rw [allocPage_left]; omega
    rw [e, tokseq_storeToken w hpages hleft le_rfl, tokseq_allocPage h0, ntok_storeToken w hpages hleft le_rfl,
      ntok_allocPage h0]
    exact ⟨rfl, herr, rfl⟩
  · obtain ⟨hpages, hleft⟩ := not_or.mp (mt (noRoom_iff s).mpr (ne_true_of_eq_false hfree))
    rw [e, tokseq_storeToken w hpages hleft h.left_le, ntok_storeToken w hpages hleft h.left_le]
    exact ⟨rfl, herr, rfl⟩

theorem tbAppend_pageSize (w : TokWord) (s : State) : (tbAppend w s).pageSize = s.pageSize := by rw [tbAppend_frame]

/-- Appends with room for them all are traversed in the order they were made. -/
theorem appendAll_of_hasRoom {ws : List TokWord} {s : State} (hlegal : ∀ w ∈ ws, LegalToken w) (h : s.BufferInv)
    (hroom : s.HasRoomFor ws.length) :
    (appendAll ws s).tokseq = s.tokseq ++ ws ∧ (appendAll ws s).tbError = false
      ∧ (appendAll ws s).ntok = s.ntok + ws.length := by
  induction ws generalizing s with
  | nil => exact ⟨(List.append_nil _).symm, hroom.1, rfl⟩
  | cons w ws ih =>
    obtain ⟨hw, hws⟩ := List.forall_mem_cons.mp hlegal
    obtain ⟨herr, hcap⟩ := hroom
    rw [List.length_cons] at hcap ⊢
    obtain ⟨hseq, herr', hcount⟩ := tbAppend_of_hasRoom w h ⟨herr, by omega⟩
    have hroom' : (tbAppend w s).HasRoomFor ws.length := by
      refine ⟨herr', ?_⟩
      rw [hcount, tbAppend_cfg, tbAppend_pageSize]
      omega
    obtain ⟨hseq', herr'', hcount'⟩ := ih hws (tbAppend_bufferInv hw h) hroom'
    rw [hseq, List.append_assoc] at hseq'
    exact ⟨hseq', herr'', hcount'.trans (by omega)⟩

/-- A well-formed append command in phase `REC` is `TBAPPEND` of its word, a legal one. -/
theorem exec_of_appendedWord {i : Instr} {w : TokWord} {s : State} (hphase : s.phase = .recording)
    (hwf : i.wellFormed = true) (hw : appendedWord i = some w) :
    exec i s = .next (tbAppend w s) ∧ LegalToken w := by
  cases i with
  | appd bit slot =>
    cases hw
    have hslot : slot.toNat < 1056 := of_decide_eq_true hwf
    exact ⟨by rw [exec_appd_of_slot_lt hslot, if_pos hphase], _, decodeToken_dynWord hslot⟩
  | appc bit prob =>
    cases hw
    exact ⟨by rw [exec_appc, if_pos hphase], legalToken_constWord bit prob⟩
  | _ => cases hw

/-- A list of well-formed append commands in phase `REC` appends their words in order. -/
theorem runAll_of_appendedWords {is : List Instr} {words : List TokWord} {s : State} (hphase : s.phase = .recording)
    (hwf : ∀ i ∈ is, i.wellFormed = true) (hwords : is.mapM appendedWord = some words) :
    runAll is s = .next (appendAll words s) ∧ words.length = is.length ∧ ∀ w ∈ words, LegalToken w := by
  induction is generalizing words s with
  | nil =>
    cases hwords
    exact ⟨rfl, rfl, fun _ hw => absurd hw List.not_mem_nil⟩
  | cons i is ih =>
    simp only [List.mapM_cons, Option.bind_eq_bind, Option.bind_eq_some_iff, Option.pure_def, Option.some.injEq]
      at hwords
    obtain ⟨w, hw, ws, hws, rfl⟩ := hwords
    obtain ⟨hi, his⟩ := List.forall_mem_cons.mp hwf
    obtain ⟨hexec, hlegal⟩ := exec_of_appendedWord hphase hi hw
    obtain ⟨hrun, hlen, hall⟩ := ih ((tbAppend_phase w s).trans hphase) his hws
    refine ⟨?_, by rw [List.length_cons, List.length_cons, hlen], List.forall_mem_cons.mpr ⟨hlegal, hall⟩⟩
    rw [runAll, hexec, andThen_of_next, hrun]
    rfl

/-- Settles O32: the commands append their words in order, and each word is traversed after those before it. -/
theorem appendsAreTraversedInOrder : Obligations.AppendsAreTraversedInOrder := by
  intro s is words hphase h hwf hwords hroom
  obtain ⟨hrun, hlen, hlegal⟩ := runAll_of_appendedWords hphase hwf hwords
  rw [← hlen] at hroom ⊢
  exact ⟨_, hrun, appendAll_of_hasRoom hlegal h hroom⟩

end Sys2Proof.Machine

/-! ### One RECORD (42_statistics.md R116, R118) -/

namespace Sys2Proof.Machine

/-- `RECORD` branch by branch, the halved total in closed form (42_statistics.md R116). -/
theorem recordStep_eq (count1 total : Nat) (bit : Bool) :
    recordStep count1 total bit =
      if total = 65535 then ((count1 + 1 + 2 * bit.toNat) / 2, 32768) else (count1 + bit.toNat, total + 1) := by
  unfold recordStep
  split
  next h => rw [h]
  next => rfl

/-- The condition under which RECORD stops: only a full `count1` below the bound of `total` passes 65535. -/
theorem recordStep_overflow_iff {count1 total : Nat} {bit : Bool} (hcount : count1 ≤ 65535) :
    65535 < (recordStep count1 total bit).1 ↔ count1 = 65535 ∧ total ≠ 65535 ∧ bit = true := by
  rw [recordStep_eq]
  split <;> cases bit <;> simp <;> omega

theorem record_eq_fault {i : Slot} {bit : Bool} {s : State}
    (h : 65535 < (recordStep (s.entryAt i).1 (s.entryAt i).2 bit).1) :
    record i bit s = .fault (.tallyCountOverflow { s with fault := some .tallyCountOverflow }) := if_pos h

/-- RECORD stops with the fault exactly where `count1` does not fit (42_statistics.md R118). -/
theorem record_faults_iff {i : Slot} {bit : Bool} {s : State} :
    (∃ left, record i bit s = .fault (.tallyCountOverflow left)) ↔
      65535 < (recordStep (s.entryAt i).1 (s.entryAt i).2 bit).1 := by
  refine ⟨fun ⟨left, h⟩ => ?_, fun h => ⟨_, record_eq_fault h⟩⟩
  by_contra hfit
  exact nomatch (record_eq_next.mpr ⟨Nat.not_lt.mp hfit, rfl⟩).symm.trans h

/-- A RECORD that fits writes the one entry and nothing else. -/
theorem record_of_fits {i : Slot} {bit : Bool} {s : State}
    (h : (recordStep (s.entryAt i).1 (s.entryAt i).2 bit).1 ≤ 65535) :
    ∃ t, record i bit s = .next t ∧ t = s.withTally t.tally ∧ (∀ j, j ≠ i → t.tallyAt j = s.tallyAt j)
      ∧ t.entryAt i = recordStep (s.entryAt i).1 (s.entryAt i).2 bit := by
  have hrec := record_eq_next.mpr ⟨h, rfl⟩
  refine ⟨_, hrec, rfl, fun j hj => by rw [tallyAt_set, if_neg hj], ?_⟩
  rw [entryAt_of_record hrec, bitsAt, if_pos rfl]
  rfl

end Sys2Proof.Machine

/-! ### TALLY (42_statistics.md R117, R118) -/

namespace Sys2Proof.Machine

theorem exec_tally_of_slot_high {s : State} {bit : Bool} {slot : BitVec 14} (h : 1056 ≤ slot.toNat) :
    exec (.tally bit slot) s = refuseIllegal s := by
  simp only [exec, execTally, slotOfField_eq_none.mpr h]

/-- A TALLY of a slot is RECORD in phase `REC` and refused in every other. -/
theorem exec_tally_of_slot {s : State} {bit : Bool} {slot : BitVec 14} {i : Slot} (h : i.val = slot.toNat) :
    exec (.tally bit slot) s = if s.phase = .recording then record i bit s else refusePhase s := by
  simp only [exec, execTally, slotOfField_eq_some.mpr h.symm]

theorem exec_tally_recording {s : State} {bit : Bool} {slot : BitVec 14} {i : Slot} (h : i.val = slot.toNat)
    (hphase : s.phase = .recording) : exec (.tally bit slot) s = record i bit s := by
  rw [exec_tally_of_slot h, if_pos hphase]

/-- Settles O34: an admitted TALLY is RECORD, whose entry either fits or raises the fault. -/
theorem tallyResult : Obligations.TallyResult := by
  intro s bit slot
  refine ⟨exec_tally_of_slot_high, fun i hi => ⟨fun hphase => ?_, ?_⟩⟩
  · rw [exec_tally_of_slot hi, if_neg hphase]
    rfl
  intro b count1 total count1' total' hphase hb hcount htotal htotal' hcount'
  have hbit : b = bit.toNat := by rw [hb]; cases bit <;> rfl
  have hstep : recordStep (s.entryAt i).1 (s.entryAt i).2 bit = (count1', total') := by
    rw [State.entryAt, ← hcount, ← htotal, recordStep_eq, hcount', htotal', hbit]
    split <;> rfl
  rw [exec_tally_recording hi hphase]
  refine ⟨fun hover => record_eq_fault (by rwa [hstep]), fun hfit => ?_⟩
  obtain ⟨t, ht, hframe, hother, hentry⟩ := record_of_fits (i := i) (bit := bit) (s := s) (by rwa [hstep])
  obtain ⟨hc, ht'⟩ := Prod.mk.inj (hentry.trans hstep)
  exact ⟨t, ht, hframe, hother, hc, ht'⟩

/-- Settles O35: under the invariant a full `count1` below the bound of `total` stands beside the total 65534. -/
theorem tallyFaultsOnlyThere : Obligations.TallyFaultsOnlyThere := by
  intro s bit slot i hphase hinv hi
  have hentry : TallyEntryInv (s.tallyAt i) := hinv i
  have hcount := tallyCount_lt (s.tallyAt i)
  have htotal := tallyTotal_lt (s.tallyAt i)
  rw [exec_tally_recording hi hphase, record_faults_iff]
  refine (recordStep_overflow_iff (total := tallyTotal (s.tallyAt i)) (Nat.le_of_lt_succ hcount)).trans ?_
  refine and_congr_right fun hfull => and_congr_left fun _ => ?_
  rw [TallyEntryInv] at hentry
  omega

end Sys2Proof.Machine

/-! ### The invariant of the statistics (42_statistics.md R118) -/

namespace Sys2Proof.Machine

/-- RECORD keeps the invariant of an entry; halving can leave `count1 = total + 1`, with `total` 32768. -/
theorem recordStep_entryInv {count1 total : Nat} (bit : Bool) (hcount : count1 ≤ 65535)
    (h : count1 ≤ total ∨ count1 = total + 1 ∧ 32768 ≤ total) :
    (recordStep count1 total bit).1 ≤ (recordStep count1 total bit).2 ∨
      (recordStep count1 total bit).1 = (recordStep count1 total bit).2 + 1 ∧
        32768 ≤ (recordStep count1 total bit).2 := by
  have hbit := bit.toNat_le
  rw [recordStep_eq]
  split <;> simp only <;> omega

theorem State.TallyInv.of_same {s t : State} (h : s.TallyInv) (hsame : SamePiece .tally s t) : t.TallyInv :=
  fun i => (hsame i).symm ▸ h i

theorem record_tallyInv {i : Slot} {bit : Bool} {s t : State} (h : record i bit s = .next t) (hs : s.TallyInv) :
    t.TallyInv := by
  obtain ⟨u, hu, -, hother, hentry⟩ := record_of_fits (record_eq_next.mp h).1
  cases hu.symm.trans h
  intro j
  by_cases hj : j = i
  · subst hj
    have hstep := recordStep_entryInv bit (Nat.le_of_lt_succ (tallyCount_lt (s.tallyAt j))) (hs j)
    obtain ⟨hc, ht⟩ := Prod.mk.inj hentry
    rw [TallyEntryInv, hc, ht]
    exact hstep
  · rw [hother j hj]
    exact hs j

/-- INIT clears every entry (45_frame_control.md R165). -/
theorem startFrame_tallyInv (psize : BitVec 24) (s : State) : (startFrame psize s).TallyInv := by
  intro i
  have hzero : (startFrame psize s).tallyAt i = 0 := by simp [State.tallyAt, startFrame]
  rw [hzero]
  exact .inl (by decide)

/-- Only INIT and RECORD write the statistics. -/
theorem Effect.tallyInv {i : Instr} {s t : State} (h : Effect i s t) (hs : s.TallyInv) : t.TallyInv := by
  cases h with
  | start psize => exact startFrame_tallyInv psize s
  | append _ _ _ => exact hs.of_same (tbAppend_same _ s nofun nofun)
  | tallied _ h => exact record_tallyInv h hs
  | finalize _ => exact hs.of_same (finalizeTable_same s nofun nofun nofun)
  | cursor _ _ _ => exact hs.of_same (withPass_same _ s _)
  | coded _ _ _ h => exact hs.of_same ((putBit_frame h).same nofun nofun)
  | closeEmit _ => exact hs.of_same (closeEmit_same s nofun nofun nofun)
  | closeEstimate _ => exact hs.of_same (closeEstimate_same _ s nofun)
  | finish hp hpad hext hflush => exact hs.of_same ((Effect.finish hp hpad hext hflush).same rfl)
  | clear => exact hs.of_same (clear_same s nofun nofun)

/-- Settles O57: every effect keeps the invariant; the one that turns on it is RECORD. -/
theorem stepKeepsTallyInvariant : Obligations.StepKeepsTallyInvariant := by
  intro s t hs h
  exact step_preserves (fun _ _ hu => hu.of_same fun _ => rfl) (fun _ _ _ he hu => he.tallyInv hu) h hs

end Sys2Proof.Machine

/-! ### A block that overflows (42_statistics.md R118, 60_exceptions.md R183) -/

namespace Sys2Proof.Machine

theorem runDecisions_append (ds es : List Decision) (s : State) :
    runDecisions (ds ++ es) s = andThen (runDecisions ds s) (runDecisions es) := by
  induction ds generalizing s with
  | nil => rfl
  | cons d ds ih =>
    have hrest : runDecisions (ds ++ es) = fun t => andThen (runDecisions ds t) (runDecisions es) := funext ih
    rw [List.cons_append, runDecisions, runDecisions, andThen_assoc, hrest]

theorem appendAll_concat (ws : List TokWord) (w : TokWord) (s : State) :
    appendAll (ws ++ [w]) s = tbAppend w (appendAll ws s) := List.foldl_concat ..

/-- A decision that overflows among the first ones overflows in the whole list. -/
theorem State.OverflowsAt.of_take {s : State} {ds : List Decision} {n m : Nat} (h : s.OverflowsAt (ds.take n) m) :
    m < n ∧ s.OverflowsAt ds m := by
  obtain ⟨bit, i, hget, hover⟩ := h
  obtain ⟨hm, hd⟩ : m < n ∧ ds[m]? = some (.dyn bit i) := by simpa [List.getElem?_take] using hget
  rw [List.take_take, Nat.min_eq_left hm] at hover
  exact ⟨hm, bit, i, hd, hover⟩

/-- A dynamic decision whose tally does not fit: its word is appended before RECORD raises the fault. -/
theorem runDecision_eq_fault {bit : Bool} {i : Slot} {s : State}
    (h : 65535 < (recordAll (bitsAt i [.dyn bit i]) (s.entryAt i)).1) :
    runDecision (.dyn bit i) s = .fault (.tallyCountOverflow
      { tbAppend (Decision.dyn bit i).word s with fault := some .tallyCountOverflow }) := by
  refine record_eq_fault ?_
  rw [bitsAt, if_pos rfl] at h
  rwa [State.entryAt, State.tallyAt, tbAppend_tally]

/-- A list of decisions stops at the first whose tally does not fit. -/
theorem runDecisions_eq_fault {ds : List Decision} {n : Nat} {s : State} (hover : s.OverflowsAt ds n)
    (hfirst : ∀ m, m < n → ¬s.OverflowsAt ds m) :
    ∃ left, runDecisions ds s = .fault (.tallyCountOverflow left)
      ∧ left = { appendAll ((ds.take (n + 1)).map Decision.word) s with
          tally := left.tally, fault := some .tallyCountOverflow }
      ∧ ∀ j, left.entryAt j = recordAll (bitsAt j (ds.take n)) (s.entryAt j) := by
  obtain ⟨u, hu, huframe, huentry⟩ := runDecisions_eq_next (ds := ds.take n) (s := s) fun m hm =>
    hfirst m hm.of_take.1 hm.of_take.2
  obtain ⟨bit, i, hget, hover⟩ := hover
  obtain ⟨hn, hd⟩ := List.getElem?_eq_some_iff.mp hget
  have htake : ds.take (n + 1) = ds.take n ++ [.dyn bit i] := by rw [List.take_succ_eq_append_getElem hn, hd]
  have hsplit : ds = ds.take n ++ .dyn bit i :: ds.drop (n + 1) := by
    rw [← hd, ← List.drop_eq_getElem_cons hn, List.take_append_drop]
  rw [htake, bitsAt_append, recordAll_append, ← huentry] at hover
  have hfault := runDecision_eq_fault hover
  have happend : tbAppend (Decision.dyn bit i).word u
      = (appendAll ((ds.take (n + 1)).map Decision.word) s).withTally u.tally := by
    rw [htake, List.map_append, List.map_singleton, appendAll_concat, ← tbAppend_withTally, ← huframe]
  have hrun : runDecisions ds s = .fault (.tallyCountOverflow
      { (appendAll ((ds.take (n + 1)).map Decision.word) s).withTally u.tally with
        fault := some .tallyCountOverflow }) := by
    conv_lhs => rw [hsplit]
    rw [runDecisions_append, hu, andThen_of_next, runDecisions, hfault, andThen_of_fault, happend]
  exact ⟨_, hrun, rfl, huentry⟩

/-- Settles O23: the decisions of the block run in order, and the first that overflows stops them. -/
theorem recblkOverflow : Obligations.RecblkOverflow := by
  intro s ctx ctype first last co ds n hphase hc hds hover hfirst
  obtain ⟨left, hleft, hframe, hentry⟩ := runDecisions_eq_fault hover hfirst
  refine ⟨left, _, ?_, appendedAll_appendAll _ s, hframe, hentry⟩
  rw [exec_recblk_recording hphase, if_pos (blockAdmitted_of_contract hc), blockDecisions_eq hc, ← hds, hleft]

end Sys2Proof.Machine

/-! ### The halving law (42_statistics.md R120) -/

namespace Sys2Proof.Machine

theorem runAll_append (is js : List Instr) (s : State) :
    runAll (is ++ js) s = andThen (runAll is s) (runAll js) := by
  induction is generalizing s with
  | nil => rfl
  | cons i is ih =>
    have hrest : runAll (is ++ js) = fun t => andThen (runAll is t) (runAll js) := funext ih
    rw [List.cons_append, runAll, runAll, andThen_assoc, hrest]

theorem runAll_singleton (i : Instr) (s : State) : runAll [i] s = exec i s := by
  simp only [runAll]
  cases exec i s <;> rfl

/-- A TALLY that fits moves its slot's entry one step on, and the phase stays. -/
theorem exec_tally_of_fits {s : State} {bit : Bool} {slot : BitVec 14} {i : Slot} (hi : i.val = slot.toNat)
    (hphase : s.phase = .recording) (hfit : (recordStep (s.entryAt i).1 (s.entryAt i).2 bit).1 ≤ 65535) :
    ∃ t, exec (.tally bit slot) s = .next t ∧ t.phase = .recording
      ∧ t.entryAt i = recordStep (s.entryAt i).1 (s.entryAt i).2 bit := by
  obtain ⟨t, ht, hframe, -, hentry⟩ := record_of_fits hfit
  exact ⟨t, (exec_tally_recording hi hphase).trans ht, by rw [hframe]; exact hphase, hentry⟩

/-- The tallies of the first `n` bits of a sequence, all at one slot. -/
def tallySeq (bits : Nat → Bool) (slot : BitVec 14) (n : Nat) : List Instr :=
  (List.range n).map fun k => .tally (bits k) slot

theorem tallySeq_succ (bits : Nat → Bool) (slot : BitVec 14) (n : Nat) :
    tallySeq bits slot (n + 1) = tallySeq bits slot n ++ [.tally (bits n) slot] := by
  rw [tallySeq, List.range_succ, List.map_append]
  rfl

theorem tallyTimes_eq_tallySeq (n : Nat) (bit : Bool) (slot : BitVec 14) :
    tallyTimes n bit slot = tallySeq (fun _ => bit) slot n := by
  rw [tallySeq, List.map_const', List.length_range, tallyTimes]

/-- Tallies follow a closed form of the entry that starts at zero and, as long as they last, steps as RECORD does with
a `count1` that fits. -/
theorem runAll_tallySeq {bits : Nat → Bool} {slot : BitVec 14} {i : Slot} {s : State} {form : Nat → Nat × Nat}
    {n : Nat} (hi : i.val = slot.toNat) (hphase : s.phase = .recording) (hzero : s.entryAt i = form 0)
    (hstep : ∀ k, k < n → recordStep (form k).1 (form k).2 (bits k) = form (k + 1))
    (hfit : ∀ k, k < n → (form (k + 1)).1 ≤ 65535) :
    ∃ t, runAll (tallySeq bits slot n) s = .next t ∧ t.phase = .recording ∧ t.entryAt i = form n := by
  induction n with
  | zero => exact ⟨s, rfl, hphase, hzero⟩
  | succ n ih =>
    obtain ⟨u, hu, huphase, huentry⟩ := ih (fun k hk => hstep k (by omega)) fun k hk => hfit k (by omega)
    have hnext : recordStep (u.entryAt i).1 (u.entryAt i).2 (bits n) = form (n + 1) := by
      rw [huentry, hstep n (Nat.lt_succ_self n)]
    obtain ⟨t, ht, htphase, htentry⟩ :=
      exec_tally_of_fits hi huphase (hnext ▸ hfit n (Nat.lt_succ_self n))
    refine ⟨t, ?_, htphase, htentry.trans hnext⟩
    rw [tallySeq_succ, runAll_append, hu, andThen_of_next, runAll_singleton, ht]

/-- The entry after `n` tallies of bit 0 from zero. -/
def zerosEntry (n : Nat) : Nat × Nat := (0, if n ≤ 65535 then n else 32768 + (n - 65536) % 32768)

/-- Bit 0 at the bound of `total` halves it to 32768, so from there on `total` runs through 32768 values. -/
theorem recordStep_zerosEntry (n : Nat) :
    recordStep (zerosEntry n).1 (zerosEntry n).2 false = zerosEntry (n + 1) := by
  rw [recordStep_eq, zerosEntry, zerosEntry]
  simp only [Bool.toNat_false]
  split_ifs <;> simp only [Prod.mk.injEq, true_and] at * <;> omega

/-- The entry after `n` tallies of bit 1 from zero, up to the 98302nd. -/
def onesEntry (n : Nat) : Nat × Nat := if n ≤ 65535 then (n, n) else (n - 32767, n - 32768)

/-- Bit 1 at the bound of `total` halves (65535, 65535) to (32769, 32768): `count1` is one ahead from there on. -/
theorem recordStep_onesEntry {n : Nat} (hn : n < 98303) :
    recordStep (onesEntry n).1 (onesEntry n).2 true = onesEntry (n + 1) := by
  rw [recordStep_eq, onesEntry, onesEntry]
  simp only [Bool.toNat_true]
  split_ifs <;> simp only [Prod.mk.injEq] at * <;> omega

theorem onesEntry_count_le {n : Nat} (hn : n ≤ 98302) : (onesEntry n).1 ≤ 65535 := by
  rw [onesEntry]
  split <;> simp only <;> omega

/-- The entry after `n` tallies of alternating bits from zero, bit 1 first, up to the second halving. -/
def alternatingEntry (n : Nat) : Nat × Nat :=
  if n ≤ 65535 then ((n + 1) / 2, n) else (16384 + (n - 65535) / 2, n - 32768)

/-- The halving of alternating bits falls on a 0 bit, and the bits after it start with a 1 bit again. -/
theorem recordStep_alternatingEntry {n : Nat} (hn : n < 98303) :
    recordStep (alternatingEntry n).1 (alternatingEntry n).2 (n % 2 == 0) = alternatingEntry (n + 1) := by
  have hbit : (n % 2 == 0).toNat = 1 - n % 2 := by
    rcases Nat.mod_two_eq_zero_or_one n with h | h <;> rw [h] <;> rfl
  rw [recordStep_eq, alternatingEntry, alternatingEntry, hbit]
  split_ifs <;> simp only [Prod.mk.injEq, and_true] at * <;> omega

theorem alternatingEntry_count_le {n : Nat} (hn : n ≤ 98303) : (alternatingEntry n).1 ≤ 65535 := by
  rw [alternatingEntry]
  split <;> simp only <;> omega

/-- From zero, the first 98302 tallies of bit 1 fit. -/
theorem runAll_tallyTimes_true {slot : BitVec 14} {i : Slot} {s : State} {n : Nat} (hi : i.val = slot.toNat)
    (hphase : s.phase = .recording) (hzero : s.entryAt i = (0, 0)) (hn : n ≤ 98302) :
    ∃ t, runAll (tallyTimes n true slot) s = .next t ∧ t.phase = .recording ∧ t.entryAt i = onesEntry n := by
  rw [tallyTimes_eq_tallySeq]
  exact runAll_tallySeq hi hphase hzero (fun k hk => recordStep_onesEntry (by omega))
    fun k hk => onesEntry_count_le (by omega)

/-- From zero, the 98303rd tally of bit 1 finds the entry (65535, 65534). -/
theorem runAll_tallyTimes_true_faults {slot : BitVec 14} {i : Slot} {s : State} {n : Nat} (hi : i.val = slot.toNat)
    (hphase : s.phase = .recording) (hzero : s.entryAt i = (0, 0)) (hn : 98303 ≤ n) :
    ∃ left, runAll (tallyTimes n true slot) s = .fault (.tallyCountOverflow left) := by
  obtain ⟨t, ht, htphase, htentry⟩ := runAll_tallyTimes_true hi hphase hzero (Nat.le_refl 98302)
  have hfull : 65535 < (recordStep (t.entryAt i).1 (t.entryAt i).2 true).1 := by rw [htentry]; decide
  have hsplit : tallyTimes n true slot =
      tallyTimes 98302 true slot ++ .tally true slot :: tallyTimes (n - 98303) true slot := by
    rw [tallyTimes, tallyTimes, tallyTimes, ← List.replicate_succ, List.replicate_append_replicate]
    congr 1
    omega
  rw [hsplit, runAll_append, ht, andThen_of_next, runAll, exec_tally_recording hi htphase, record_eq_fault hfull,
    andThen_of_fault]
  exact ⟨_, rfl⟩

/-- Settles O36: each sequence of tallies follows its closed form, and bit 1 runs into the fault where its form ends. -/
theorem halvingLaw : Obligations.HalvingLaw := by
  intro s slot i hphase hi hclear
  have hzero : s.entryAt i = (0, 0) := by
    rw [State.entryAt, hclear]
    rfl
  refine ⟨fun n => ?_, fun n hn => ?_, fun n hn => ?_, fun n count1 total hmem => ?_⟩
  · rw [tallyTimes_eq_tallySeq]
    obtain ⟨t, ht, -, hentry⟩ := runAll_tallySeq (form := zerosEntry) (n := n) hi hphase hzero
      (fun k _ => recordStep_zerosEntry k) fun k _ => Nat.zero_le _
    exact ⟨t, ht, Prod.mk.inj hentry⟩
  · obtain ⟨t, ht, -, hentry⟩ := runAll_tallyTimes_true hi hphase hzero hn
    refine ⟨t, ht, Prod.mk.inj (hentry.trans ?_)⟩
    rw [onesEntry]
    split <;> rfl
  · exact runAll_tallyTimes_true_faults hi hphase hzero hn
  · have hlisted : n ≤ 98303 ∧ alternatingEntry n = (count1, total) := by
      simp only [List.mem_cons, List.not_mem_nil, or_false, Prod.mk.injEq] at hmem
      rcases hmem with ⟨rfl, rfl, rfl⟩ | ⟨rfl, rfl, rfl⟩ | ⟨rfl, rfl, rfl⟩ <;> decide
    obtain ⟨hn, hform⟩ := hlisted
    obtain ⟨t, ht, -, hentry⟩ := runAll_tallySeq (form := alternatingEntry) (n := n) hi hphase hzero
      (fun k hk => recordStep_alternatingEntry (by omega)) fun k hk => alternatingEntry_count_le (by omega)
    exact ⟨t, ht, Prod.mk.inj (hentry.trans hform)⟩

end Sys2Proof.Machine

/-! ### The measured probability (43_finalizer.md R123) -/

namespace Sys2Proof.Machine

/-- `CalcTokenProba` without its case: no 1 bit takes nothing off 255. -/
theorem calcTokenProba_eq (nb total : Nat) : calcTokenProba nb total = 255 - ((nb * 255 / total : Nat) : Int) := by
  unfold calcTokenProba
  split
  next h => simp [h]
  next => rfl

/-- The share of 1 bits scaled to 255 fits 8 bits; with `count1 = total + 1` it does because `total` is large. -/
theorem scaledCount_le {w : TallyWord} (h : TallyEntryInv w) : tallyCount w * 255 / tallyTotal w ≤ 255 := by
  rw [TallyEntryInv] at h
  rcases Nat.eq_zero_or_pos (tallyTotal w) with h0 | hpos
  · rw [h0, Nat.div_zero]
    exact Nat.zero_le _
  · have hlt : tallyCount w * 255 < tallyTotal w * 256 := by omega
    exact Nat.le_of_lt_succ (Nat.div_lt_of_lt_mul hlt)

theorem calcTokenProba_mem {w : TallyWord} (h : TallyEntryInv w) :
    0 ≤ calcTokenProba (tallyCount w) (tallyTotal w) ∧ calcTokenProba (tallyCount w) (tallyTotal w) ≤ 255 := by
  rw [calcTokenProba_eq]
  exact ⟨Int.sub_nonneg.mpr (Int.ofNat_le.mpr (scaledCount_le h)), Int.sub_le_self _ (Int.natCast_nonneg _)⟩

/-- An entry whose every bit was 1 has the probability 0, at `count1 = total + 1` too. -/
theorem calcTokenProba_allOnes {w : TallyWord} (h : TallyEntryInv w) (hnb : 1 ≤ tallyCount w)
    (hall : tallyTotal w ≤ tallyCount w) : calcTokenProba (tallyCount w) (tallyTotal w) = 0 := by
  have hpos : 0 < tallyTotal w := by
    rw [TallyEntryInv] at h
    omega
  have hge : 255 ≤ tallyCount w * 255 / tallyTotal w := (Nat.le_div_iff_mul_le hpos).mpr (by omega)
  have hle := scaledCount_le h
  rw [calcTokenProba_eq]
  omega

/-- Under the invariant of the statistics the narrowing to 8 bits loses nothing. -/
theorem measuredProb_toNat {w : TallyWord} (h : TallyEntryInv w) :
    ((measuredProb (tallyCount w) (tallyTotal w)).toNat : Int) = calcTokenProba (tallyCount w) (tallyTotal w) := by
  obtain ⟨hlow, hhigh⟩ := calcTokenProba_mem h
  rw [measuredProb, BitVec.toNat_ofInt]
  omega

/-- A byte with the value of `CalcTokenProba` is the one FINALIZE measures. -/
theorem eq_measuredProb {w : TallyWord} {p : Prob} (h : TallyEntryInv w)
    (hp : (p.toNat : Int) = calcTokenProba (tallyCount w) (tallyTotal w)) :
    p = measuredProb (tallyCount w) (tallyTotal w) :=
  BitVec.eq_of_toNat_eq (Int.ofNat_inj.mp (hp.trans (measuredProb_toNat h).symm))

/-- Settles O38: the scaled count of 1 bits is at most 255, and exactly 255 where every bit was 1. -/
theorem measuredProbability : Obligations.MeasuredProbability := by
  refine ⟨?_, by decide⟩
  rintro w nb total h rfl rfl
  obtain ⟨hlow, hhigh⟩ := calcTokenProba_mem h
  exact ⟨fun h0 => if_pos h0, fun _ => calcTokenProba_eq _ _, hlow, hhigh, calcTokenProba_allOnes h,
    measuredProb_toNat h⟩

end Sys2Proof.Machine

/-! ### FINALIZE (43_finalizer.md R122 to R133) -/

namespace Sys2Proof.Machine

theorem exec_finalize_recording {s : State} (hphase : s.phase = .recording) :
    exec .finalize s = .next (finalizeTable s) := by
  rw [exec, execFinalize_eq, if_pos hphase]

@[simp] theorem finalizeTable_pwAt (s : State) (i : Slot) :
    (finalizeTable s).pwAt i = finalProb s.cfg i (s.tallyAt i) := by
  rw [State.pwAt, finalizeTable_pw, tableOf_get]

/-- FINALIZE writes the working table, `dirty` and the phase. -/
theorem finalizeTable_frame (s : State) : finalizeTable s =
    { s with pw := (finalizeTable s).pw, dirty := (finalizeTable s).dirty, phase := .finalized } := by
  rw [finalizeTable_pw, finalizeTable_dirty]
  rfl

/-- `dirty` and the written table, slot by slot (43_finalizer.md R130). -/
theorem finalizeTable_dirty_iff (s : State) :
    (finalizeTable s).dirty = true ↔ ∃ i : Slot, (finalizeTable s).pwAt i ≠ s.cfg.p0[i] := by
  simp only [finalizeTable_dirty, anyIndex_iff, slotDirty_iff, finalizeTable_pwAt]

/-- The choice for a slot by its two costs (43_finalizer.md R129). -/
theorem finalProb_eq (c : Config) (i : Slot) (w : TallyWord) :
    finalProb c i w =
      if newCost c (tallyCount w) (tallyTotal w) (measuredProb (tallyCount w) (tallyTotal w)) c.upd[i]
          < oldCost c (tallyCount w) (tallyTotal w) c.p0[i] c.upd[i]
      then measuredProb (tallyCount w) (tallyTotal w) else c.p0[i] := by
  simp only [finalProb, adopts, decide_eq_true_eq]

theorem oldCost_eq (c : Config) (nb total : Nat) (oldP u : Prob) :
    oldCost c nb total oldP u =
      nb * costAt c (255 - oldP) + (total - nb : Int) * costAt c oldP + costAt c u := rfl

theorem newCost_eq (c : Config) (nb total : Nat) (newP u : Prob) :
    newCost c nb total newP u =
      nb * costAt c (255 - newP) + (total - nb : Int) * costAt c newP + costAt c (255 - u) + 8 * 256 := rfl

/-- Settles O37: FINALIZE writes the slot's choice, and the measured probability is the byte of `CalcTokenProba`. -/
theorem finalizeResult : Obligations.FinalizeResult := by
  intro s hphase hinv
  refine ⟨_, exec_finalize_recording hphase, finalizeTable_frame s, finalizeTable_dirty_iff s, ?_⟩
  intro i nb total newP oldP u oldC newC hnb htotal hnew holdP hu hold hnewC
  subst hnb htotal holdP hu
  obtain rfl := eq_measuredProb (hinv i) hnew
  rw [← oldCost_eq] at hold
  rw [← newCost_eq] at hnewC
  rw [finalizeTable_pwAt, finalProb_eq, hold, hnewC]

/-! With an empty tally both branch costs are 0, and signalling alone decides (43_finalizer.md R133). -/

theorem oldCost_zero (c : Config) (oldP u : Prob) : oldCost c 0 0 oldP u = costAt c u := by
  simp [oldCost_eq]

theorem newCost_zero (c : Config) (newP u : Prob) : newCost c 0 0 newP u = costAt c (255 - u) + 2048 := by
  simp [newCost_eq]

/-- A slot without decisions measures 255 (43_finalizer.md R123). -/
theorem finalProb_zero (c : Config) (i : Slot) :
    finalProb c i 0 = if (costAt c (255 - c.upd[i]) : Int) + 2048 < costAt c c.upd[i] then 255 else c.p0[i] := by
  have hcount : tallyCount 0 = 0 := rfl
  have htotal : tallyTotal 0 = 0 := rfl
  have hmeasured : measuredProb 0 0 = 255 := rfl
  rw [finalProb_eq, hcount, htotal, oldCost_zero, newCost_zero, hmeasured]

/-- A slot without decisions keeps its default exactly where the ROMs have the property of 43_finalizer.md R133. -/
theorem finalProb_zero_eq_default_iff (c : Config) (i : Slot) :
    finalProb c i 0 = c.p0[i] ↔
      (costAt c c.upd[i] : Int) - costAt c (255 - c.upd[i]) ≤ 2048 ∨ c.p0[i] = 255 := by
  rw [finalProb_zero]
  split
  next hcheaper =>
    have hnot : ¬ (costAt c c.upd[i] : Int) - costAt c (255 - c.upd[i]) ≤ 2048 := by omega
    rw [or_iff_right hnot, eq_comm]
  next hdearer => exact iff_of_true rfl (.inl (by omega))

/-- Settles O39: `dirty` adds nothing to the table's being the default, which is asked slot by slot. -/
theorem zeroTalliesKeepDefaults : Obligations.ZeroTalliesKeepDefaults := by
  intro s hphase hzero
  refine ⟨_, exec_finalize_recording hphase, ?_⟩
  have hclean : (∀ i : Slot, (finalizeTable s).pwAt i = s.cfg.p0[i]) → (finalizeTable s).dirty = false := by
    intro hkeep
    rw [← Bool.not_eq_true, finalizeTable_dirty_iff]
    exact fun ⟨i, hi⟩ => hi (hkeep i)
  rw [and_iff_left_of_imp hclean]
  refine forall_congr' fun i => ?_
  rw [finalizeTable_pwAt, hzero i]
  exact finalProb_zero_eq_default_iff s.cfg i

end Sys2Proof.Machine

/-! ### Writing a byte, the split (44_range_coder.md R138, R139, R146) -/

namespace Sys2Proof.Machine

/-- Settles O45: the two branches of the room check. -/
theorem writeByteResult : Obligations.WriteByteResult := by
  intro s b
  refine ⟨fun hfull => ?_, fun hroom => ?_⟩
  · rw [writeByte, if_pos hfull]
    rfl
  · exact ⟨_, writeByte_eq_next.mpr ⟨hroom, rfl⟩, rfl, fun k => outByte_write s s.pos k b⟩

/-- A true range below 255 stays below 255 under the shift that normalises it: what the shift doubles is even. -/
theorem normalised_le {x : Nat} (h : 1 ≤ x) (h' : x ≤ 254) : x * 2 ^ clz8 x ≤ 254 := by
  unfold clz8
  repeat' split
  all_goals omega

/-- Settles O40: the split never exceeds the stored range, so neither part of the interval does. -/
theorem splitFacts : Obligations.SplitFacts := by
  intro range prob hlow hhigh
  refine ⟨splitOf_pos _ _, splitOf_le (by omega) (by omega) prob.isLt, ?_, ?_, ?_⟩
  · rintro rfl
    simp [splitOf]
  · rintro rfl
    have h255 : (255 : Prob).toNat = 255 := rfl
    rw [splitOf, h255]
    omega
  · rintro bit rn rfl
    obtain ⟨hpos, hle⟩ := newRange_bounds bit (r := range) (by omega) (by omega) prob.isLt
    obtain ⟨hshift, hnorm, -⟩ := clz8_spec hpos (by omega)
    have hnorm' := normalised_le hpos (by omega)
    exact ⟨hpos, by omega, hshift, by omega, by omega⟩

end Sys2Proof.Machine

/-! ### Token words one step at a time (44_range_coder.md R147 to R149, R152; 10_state.md R31) -/

namespace Sys2Proof.Machine

theorem step_of_pass {s : State} {p : Pass} (hpass : s.pass = some p) : step s = stepPass p s := by
  simp only [step, hpass]

theorem stepPass_of_nil {p : Pass} (s : State) (htodo : p.todo = []) : stepPass p s = .next (closePass s) := by
  simp only [stepPass, htodo]

theorem stepPass_of_decode {p : Pass} {w : TokWord} {ts : List TokWord} {i : Instr} (s : State)
    (htodo : p.todo = w :: ts) (hd : decodeToken w = .ok i) : stepPass p s = exec i (s.advance ts) := by
  simp only [stepPass, htodo, hd]

theorem stepPass_of_reserved {p : Pass} {w : TokWord} {ts : List TokWord} {e : DecodeError} (s : State)
    (htodo : p.todo = w :: ts) (hd : decodeToken w = .error e) :
    stepPass p s = .fault (.reservedToken (s.advance ts).endTraversal) := by
  simp only [stepPass, htodo, hd]

/-- Settles O7: the next word of the traversal is what the step looks at first. -/
theorem stepRunsTheTokenWord : Obligations.StepRunsTheTokenWord := by
  intro s p hpass
  rw [step_of_pass hpass]
  exact ⟨fun w ts i htodo hd => stepPass_of_decode s htodo hd, stepPass_of_nil s⟩

/-- A token word decodes to a token instruction and to nothing else (30_encoding.md R62). -/
theorem decodeToken_cases (w : TokWord) :
    (∃ bit slot, decodeToken w = .ok (.tokDyn bit slot)) ∨ (∃ bit prob, decodeToken w = .ok (.tokConst bit prob)) ∨
      decodeToken w = .error .reservedToken := by
  unfold decodeToken
  split
  · split
    · exact .inr (.inl ⟨_, _, rfl⟩)
    · exact .inr (.inr rfl)
  · split
    · exact .inl ⟨_, _, rfl⟩
    · exact .inr (.inr rfl)

/-- A step inside a traversal is the token word that the command runs next. -/
theorem stepPass_eq_runToken {p : Pass} {w : TokWord} {ts : List TokWord} (s : State) (htodo : p.todo = w :: ts) :
    stepPass p s = runToken w (s.advance ts) := by
  rcases decodeToken_cases w with ⟨bit, slot, hd⟩ | ⟨bit, prob, hd⟩ | hd
  · simp only [stepPass_of_decode s htodo hd, runToken, hd, exec]
  · simp only [stepPass_of_decode s htodo hd, runToken, hd, exec]
  · simp only [stepPass_of_reserved s htodo hd, runToken, hd]

@[simp] theorem Pass.todo_withTodo (ts : List TokWord) (p : Pass) : (p.withTodo ts).todo = ts := by
  cases p <;> rfl

/-- A token word moves no cursor: the words after it stay to be visited. -/
theorem runToken_todo {w : TokWord} {s t : State} {p : Pass} (hpass : s.pass = some p) (h : runToken w s = .next t) :
    ∃ p', t.pass = some p' ∧ p'.todo = p.todo := by
  obtain ⟨bit, prob, hb⟩ := runToken_eq_next h
  rcases runBit_eq_next hb with ⟨todo, he, hput⟩ | ⟨todo, acc, acc', he, rfl⟩
  · exact ⟨p, (putBit_frame hput).pass.trans hpass, rfl⟩
  · obtain rfl : p = .estimate todo acc := Option.some.inj (hpass.symm.trans he)
    exact ⟨_, rfl, rfl⟩

/-! A run of one step and more goes on, or stops, with the outcome of the step. -/

theorem run_succ_of_next {M : Host.Core} {s t : M.State} (n : Nat) (h : M.step s = .next t) :
    M.run (n + 1) s = M.run n t := by
  simp only [Host.Core.run, h]

theorem run_succ_of_fault {M : Host.Core} {s : M.State} {x : M.Fault} (n : Nat) (h : M.step s = .fault x) :
    M.run (n + 1) s = .fault x := by
  simp only [Host.Core.run, h]

theorem run_succ_of_refused {M : Host.Core} {s : M.State} {x : M.Refusal} (n : Nat) (h : M.step s = .refused x) :
    M.run (n + 1) s = .refused x := by
  simp only [Host.Core.run, h]

/-- The first step of a run is an effect before the rest. -/
theorem core_run_succ (n : Nat) (s : State) :
    Sys2Proof.core.run (n + 1) s = andThen (step s) (Sys2Proof.core.run n) := by
  cases h : step s with
  | next t => exact run_succ_of_next (M := Sys2Proof.core) n h
  | fault x => exact run_succ_of_fault (M := Sys2Proof.core) n h
  | refused x => exact run_succ_of_refused (M := Sys2Proof.core) n h

/-- A step for each word of a traversal and one to close it are the traversal. -/
theorem core_run_eq_runTokens {ts : List TokWord} {s : State} {p : Pass} (hpass : s.pass = some p)
    (htodo : p.todo = ts) : Sys2Proof.core.run (ts.length + 1) s = runTokens ts s := by
  induction ts generalizing s p with
  | nil =>
    rw [core_run_succ, step_of_pass hpass, stepPass_of_nil s htodo]
    rfl
  | cons w ts ih =>
    rw [List.length_cons, core_run_succ, step_of_pass hpass, stepPass_eq_runToken s htodo, runTokens]
    cases hu : runToken w (s.advance ts) with
    | next u =>
      have hadv : (s.advance ts).pass = some (p.withTodo ts) := by rw [advance_of_pass hpass]
      obtain ⟨p', hp', htodo'⟩ := runToken_todo hadv hu
      exact ih hp' (htodo'.trans (Pass.todo_withTodo ts p))
    | fault x => rfl
    | refused x => rfl

theorem exec_emit_of_phase {s : State} (h : s.phase = .recording ∨ s.phase = .finalized) :
    exec .emit s = runTokens s.tokseq { s with pass := some (.emit s.tokseq) } := if_pos h

theorem exec_estimate_of_phase {s : State} (h : s.phase = .recording ∨ s.phase = .finalized) :
    exec .estimate s = runTokens s.tokseq { s with pass := some (.estimate s.tokseq 0) } := if_pos h

/-- Settles O50, for both kinds of traversal at once. -/
theorem traversalIsItsTokenSteps : Obligations.TraversalIsItsTokenSteps := by
  rintro s ts hphase rfl
  rw [exec_emit_of_phase hphase, exec_estimate_of_phase hphase]
  exact ⟨core_run_eq_runTokens rfl rfl, core_run_eq_runTokens rfl rfl⟩

end Sys2Proof.Machine

/-! ### The token words (44_range_coder.md R147, R148) -/

namespace Sys2Proof.Machine

theorem exec_tokConst_eq (bit : Bool) (prob : Prob) (s : State) : exec (.tokConst bit prob) s = runBit bit prob s := rfl

theorem exec_tokDyn_eq {slot : BitVec 14} {i : Slot} (h : i.val = slot.toNat) (bit : Bool) (s : State) :
    exec (.tokDyn bit slot) s = runBit bit (s.pwAt i) s := by
  simp only [exec, execTokDyn, slotOfField_eq_some.mpr h.symm]

/-- The cost of a bit is the table's entry for the probability that the bit has (43_finalizer.md R124). -/
theorem bitCost_eq (c : Config) (bit : Bool) (prob : Prob) :
    bitCost c bit prob = costAt c (if bit then 255 - prob else prob) := by
  cases bit <;> rfl

theorem runBit_coded {bit : Bool} {prob : Prob} {s : State} {todo : List TokWord} (hpass : s.pass = some (.emit todo))
    (hi : s.CoderInv) (hp : s.phase ≠ .done)
    (room : s.nbBits.toInt + bitShift bit prob s ≤ 0 ∨ s.pos + s.run + 1 ≤ s.cfg.outCapacity) :
    ∃ t, runBit bit prob s = .next t ∧ CodedBit bit prob s t := by
  obtain ⟨t, ht, hc⟩ := putBit_coded hi hp room
  exact ⟨t, by rw [runBit_emit hpass, endOnFault_eq_next]; exact ht, hc⟩

theorem runBit_costed {bit : Bool} {prob : Prob} {s : State} {todo : List TokWord} {acc : Nat}
    (hpass : s.pass = some (.estimate todo acc)) :
    runBit bit prob s =
      .next { s with pass := some (.estimate todo (acc + costAt s.cfg (if bit then 255 - prob else prob))) } := by
  rw [runBit_estimate hpass, bitCost_eq]

/-- Settles O41: the room that PUTBIT asks for is the statement's own. -/
theorem tokConstResult : Obligations.TokConstResult := by
  intro s bit prob todo
  rw [exec_tokConst_eq]
  exact ⟨runBit_coded, fun _ => runBit_costed⟩

/-- Settles O42: the slot's probability is looked up when the word is executed. -/
theorem tokDynResult : Obligations.TokDynResult := by
  intro s bit slot i todo hslot
  rw [exec_tokDyn_eq hslot]
  exact ⟨runBit_coded, fun _ => runBit_costed⟩

end Sys2Proof.Machine

/-! ### The recorded tokens, resolved (30_encoding.md R62) -/

namespace Sys2Proof.Machine

/-- The working table is all that resolving a token word reads. -/
theorem resolve_congr {s t : State} (h : t.pw = s.pw) : t.resolve = s.resolve := by
  funext w
  simp only [State.resolve, State.pwAt, h]

/-- A resolved token word runs as its bit and probability. -/
theorem runToken_of_resolve {w : TokWord} {s : State} {bit : Bool} {prob : Prob}
    (h : s.resolve w = some (bit, prob)) : runToken w s = runBit bit prob s := by
  rcases decodeToken_cases w with ⟨b, slot, hd⟩ | ⟨b, p, hd⟩ | hd <;> simp only [State.resolve, hd] at h
  · obtain ⟨i, hi, he⟩ := Option.map_eq_some_iff.mp h
    cases he
    simp only [runToken, hd, execTokDyn, hi]
  · cases h
    simp only [runToken, hd, execTokConst]
  · cases h

theorem mapM_resolve_cons {s : State} {w : TokWord} {ws : List TokWord} {bits : List (Bool × Prob)}
    (h : (w :: ws).mapM s.resolve = some bits) :
    ∃ bit prob rest, bits = (bit, prob) :: rest ∧ s.resolve w = some (bit, prob) ∧ ws.mapM s.resolve = some rest := by
  simp only [List.mapM_cons, Option.bind_eq_bind, Option.bind_eq_some_iff, Option.pure_def, Option.some.injEq] at h
  obtain ⟨⟨bit, prob⟩, hw, rest, hws, rfl⟩ := h
  exact ⟨bit, prob, rest, rfl, hw, hws⟩

/-- The first of several resolved token words runs with the cursor moved past it. -/
theorem runTokens_cons_of_resolve {w : TokWord} {s : State} {bit : Bool} {prob : Prob} (ws : List TokWord)
    (h : s.resolve w = some (bit, prob)) :
    runTokens (w :: ws) s = andThen (runBit bit prob (s.advance ws)) (runTokens ws) := by
  rw [runTokens, runToken_of_resolve (by rwa [resolve_congr (advance_pw ws s)])]

/-! ### ESTIMATE (44_range_coder.md R152) -/

/-- The cost of resolved tokens under the entropy table. -/
def tokenCosts (c : Config) (bits : List (Bool × Prob)) : Nat :=
  (bits.map fun q => costAt c (if q.1 then 255 - q.2 else q.2)).sum

/-- A traversal of ESTIMATE only adds costs. -/
theorem runTokens_estimate {ts todo : List TokWord} {s : State} {acc : Nat} {bits : List (Bool × Prob)}
    (hpass : s.pass = some (.estimate todo acc)) (h : ts.mapM s.resolve = some bits) :
    runTokens ts s = .next { s with sizeEst := acc + tokenCosts s.cfg bits, pass := none } := by
  induction ts generalizing s todo acc bits with
  | nil =>
    cases h
    rw [runTokens, closePass, hpass]
    rfl
  | cons w ts ih =>
    obtain ⟨bit, prob, rest, rfl, hw, hts⟩ := mapM_resolve_cons h
    have hadv : (s.advance ts).pass = some (.estimate ts acc) := by rw [advance_of_pass hpass]; rfl
    rw [runTokens_cons_of_resolve ts hw, runBit_costed hadv, andThen_of_next, ih rfl (by rwa [resolve_congr rfl])]
    simp only [State.advance, tokenCosts, List.map_cons, List.sum_cons, Nat.add_assoc]

/-- Settles O48: what the traversal leaves in the sum is written when it closes. -/
theorem estimateResult : Obligations.EstimateResult := by
  intro s bits hpass
  refine ⟨fun hrec hfin => if_neg (not_or.mpr ⟨hrec, hfin⟩), fun hphase hbits => ?_⟩
  rw [exec_estimate_of_phase hphase, runTokens_estimate rfl (by rwa [resolve_congr rfl]), Nat.zero_add, ← hpass]
  rfl

end Sys2Proof.Machine

/-! ### The interval of a coder without a packer (44_range_coder.md R136 to R140) -/

namespace Sys2Proof.Machine

/-- What coding a bit does to an interval, by the model's own split and new range. -/
theorem Interval.code_eq (e : Interval) (bit : Bool) (prob : Prob) :
    e.code bit prob =
      let rn := newRange bit e.range (splitOf e.range prob.toNat)
      { low := (e.low + if bit then splitOf e.range prob.toNat else 0) * 2 ^ clz8 rn
        range := rn * 2 ^ clz8 rn - 1, shifts := e.shifts + clz8 rn } := rfl

/-- From a range between commands a bit shifts by at most seven and leaves a range between commands. -/
theorem Interval.code_bounds {e : Interval} (bit : Bool) (prob : Prob) (h : 127 ≤ e.range) (h' : e.range ≤ 254) :
    127 ≤ (e.code bit prob).range ∧ (e.code bit prob).range ≤ 253 ∧ (e.code bit prob).shifts ≤ e.shifts + 7 := by
  obtain ⟨-, -, -, -, hbit⟩ := splitFacts e.range prob h h'
  obtain ⟨-, -, hshift, hlow, hhigh⟩ := hbit bit _ rfl
  exact ⟨hlow, hhigh, Nat.add_le_add_left hshift _⟩

theorem Interval.codeAll_cons (e : Interval) (bit : Bool) (prob : Prob) (bs : List (Bool × Prob)) :
    e.codeAll ((bit, prob) :: bs) = (e.code bit prob).codeAll bs := rfl

/-- The normalisation only ever shifts further. -/
theorem Interval.shifts_le_codeAll (e : Interval) (bs : List (Bool × Prob)) : e.shifts ≤ (e.codeAll bs).shifts := by
  induction bs generalizing e with
  | nil => exact Nat.le_refl _
  | cons b bs ih => exact (Nat.le_add_right _ _).trans (ih (e.code b.1 b.2))

/-- A bit costs at most seven shifts (70_reset_and_hazards.md R209). -/
theorem Interval.codeAll_shifts_le {e : Interval} (bs : List (Bool × Prob)) (h : 127 ≤ e.range) (h' : e.range ≤ 254) :
    (e.codeAll bs).shifts ≤ e.shifts + 7 * bs.length := by
  induction bs generalizing e with
  | nil => exact Nat.le_refl _
  | cons b bs ih =>
    obtain ⟨hlow, hhigh, hshift⟩ := Interval.code_bounds b.1 b.2 h h'
    have hrest := ih hlow (by omega)
    rw [Interval.codeAll_cons, List.length_cons]
    omega

/-- A shift that reaches 128 is not exceeded by one that stays below 256. -/
theorem shift_le_of_normalised {x i j : Nat} (h : 128 ≤ x * 2 ^ i) (h' : x * 2 ^ j ≤ 255) : j ≤ i := by
  by_contra hlt
  have hpow : 2 ^ (i + 1) ≤ 2 ^ j := Nat.pow_le_pow_right (by decide) (by omega)
  have hmul : x * 2 ^ (i + 1) ≤ x * 2 ^ j := Nat.mul_le_mul_left x hpow
  rw [Nat.pow_succ, ← Nat.mul_assoc] at hmul
  omega

/-- The shift that normalises is unique, so it is `clz8`. -/
theorem eq_clz8 {x k : Nat} (h : 128 ≤ x * 2 ^ k) (h' : x * 2 ^ k ≤ 255) : k = clz8 x := by
  have hle : x ≤ x * 2 ^ k := Nat.le_mul_of_pos_right x (Nat.two_pow_pos k)
  have hpos : 1 ≤ x := Nat.pos_of_mul_pos_right (by omega : 0 < x * 2 ^ k)
  obtain ⟨-, hlow, hhigh⟩ := clz8_spec hpos (by omega)
  exact Nat.le_antisymm (shift_le_of_normalised hlow h') (shift_le_of_normalised h hhigh)

/-! Padding bits: bit 0 at probability 128 halves the range (44_range_coder.md R153). -/

/-- The bits that FINISH codes. -/
abbrev padding (n : Nat) : List (Bool × Prob) := List.replicate n (false, 128)

/-- Half of a range below 254 is normalised by one shift. -/
theorem Interval.code_padding {e : Interval} (h : 127 ≤ e.range) (h' : e.range ≤ 253) :
    e.code false 128 = { low := e.low * 2, range := 2 * (e.range / 2) + 1, shifts := e.shifts + 1 } := by
  have hsplit : newRange false e.range (splitOf e.range (128 : Prob).toNat) = e.range / 2 + 1 := by
    have h128 : (128 : Prob).toNat = 128 := rfl
    rw [newRange, if_neg Bool.false_ne_true, splitOf, h128]
    omega
  have hclz : clz8 (e.range / 2 + 1) = 1 := (eq_clz8 (by omega) (by omega)).symm
  simp only [Interval.code_eq, hsplit, hclz, Interval.mk.injEq, and_true]
  exact ⟨rfl, by omega⟩

/-- The first padding bit of an empty stream leaves 128 values of 255, which need no shift. -/
theorem Interval.code_padding_start {e : Interval} (h : e.range = 254) :
    e.code false 128 = { e with range := 127 } := by
  obtain ⟨low, range, shifts⟩ := e
  obtain rfl : range = 254 := h
  have hclz : clz8 (newRange false 254 (splitOf 254 (128 : Prob).toNat)) = 0 := rfl
  simp only [Interval.code_eq, hclz, Interval.mk.injEq]
  exact ⟨Nat.mul_one low, rfl, rfl⟩

theorem Interval.codeAll_padding {e : Interval} (n : Nat) (h : 127 ≤ e.range) (h' : e.range ≤ 253) :
    (e.codeAll (padding n)).low = e.low * 2 ^ n ∧ (e.codeAll (padding n)).shifts = e.shifts + n := by
  induction n generalizing e with
  | zero => exact ⟨(Nat.mul_one _).symm, rfl⟩
  | succ n ih =>
    rw [padding, List.replicate_succ, Interval.codeAll_cons, Interval.code_padding h h']
    obtain ⟨hlow, hshifts⟩ := ih (e := ⟨e.low * 2, 2 * (e.range / 2) + 1, e.shifts + 1⟩) (by simp only; omega)
      (by simp only; omega)
    rw [hlow, hshifts, Nat.pow_succ, Nat.mul_assoc, Nat.mul_comm 2, Nat.add_assoc, Nat.add_comm 1]
    exact ⟨rfl, rfl⟩

theorem Interval.codeAll_padding_start {e : Interval} (n : Nat) (h : e.range = 254) :
    (e.codeAll (padding (n + 1))).low = e.low * 2 ^ n ∧ (e.codeAll (padding (n + 1))).shifts = e.shifts + n := by
  rw [padding, List.replicate_succ, Interval.codeAll_cons, Interval.code_padding_start h]
  exact Interval.codeAll_padding (e := { e with range := 127 }) n (Nat.le_refl 127) (by simp)

end Sys2Proof.Machine

/-! ### The bytes of the stream as one number (10_state.md R35) -/

namespace Sys2Proof.Machine

theorem foldl_bytes (n : Nat) (bs : List Byte) :
    bs.foldl (fun n b => 256 * n + b.toNat) n = n * 256 ^ bs.length + bytesValue bs := by
  induction bs generalizing n with
  | nil => simp [bytesValue]
  | cons b bs ih =>
    rw [bytesValue, List.foldl_cons, List.foldl_cons, ih, ih (256 * 0 + b.toNat), List.length_cons, Nat.pow_succ]
    ring

theorem bytesValue_append (as bs : List Byte) :
    bytesValue (as ++ bs) = bytesValue as * 256 ^ bs.length + bytesValue bs := by
  rw [bytesValue, List.foldl_append, foldl_bytes]
  rfl

theorem bytesValue_singleton (b : Byte) : bytesValue [b] = b.toNat := by simp [bytesValue]

theorem bytesValue_concat (as : List Byte) (b : Byte) : bytesValue (as ++ [b]) = 256 * bytesValue as + b.toNat := by
  rw [bytesValue_append, bytesValue_singleton, List.length_singleton, Nat.pow_one, Nat.mul_comm]

theorem bytesValue_zeros (n : Nat) : bytesValue (List.replicate n 0x00) = 0 := by
  induction n with
  | zero => rfl
  | succ n ih => rw [List.replicate_succ', bytesValue_concat, ih]; rfl

/-- A run of 0xFF is one short of a carry out of it. -/
theorem bytesValue_ones (n : Nat) : bytesValue (List.replicate n 0xFF) + 1 = 256 ^ n := by
  induction n with
  | zero => rfl
  | succ n ih =>
    have h255 : (0xFF : Byte).toNat = 255 := rfl
    rw [List.replicate_succ', bytesValue_concat, h255, Nat.pow_succ]
    omega

/-- A carry into a held byte and its run adds one to the number they write (44_range_coder.md R144). -/
theorem bytesValue_carry (as : List Byte) {b : Byte} (n : Nat) (hb : b ≠ 0xFF) :
    bytesValue (as ++ [b + 1] ++ List.replicate n 0x00) = bytesValue (as ++ [b] ++ List.replicate n 0xFF) + 1 := by
  have hlt : b.toNat < 255 := by
    have : b.toNat ≠ 255 := fun h => hb (BitVec.eq_of_toNat_eq h)
    have := b.isLt
    omega
  have hsucc : (b + 1).toNat = b.toNat + 1 := by bv_omega
  have hones := bytesValue_ones n
  rw [bytesValue_append, bytesValue_append _ (List.replicate n 0xFF), bytesValue_concat, bytesValue_concat, hsucc,
    bytesValue_zeros, List.length_replicate, List.length_replicate, ← Nat.add_assoc, Nat.add_mul, Nat.one_mul]
  omega

/-! ### What has left the coder, byte by byte (10_state.md R35) -/

theorem streamBytes_eq (s : State) : s.streamBytes =
    s.partitionBytes ++ (if s.held = 0xFF then [] else [s.held]) ++ List.replicate s.run 0xFF := rfl

theorem partitionBytes_length (s : State) : s.partitionBytes.length = s.pos := by simp [State.partitionBytes]

theorem streamBytes_length (s : State) :
    s.streamBytes.length = s.pos + (if s.held = 0xFF then 0 else 1) + s.run := by
  rw [streamBytes_eq, List.length_append, List.length_append, partitionBytes_length, List.length_replicate]
  split <;> rfl

/-- The output after some bytes, and a run of one byte, are written behind it. -/
theorem partitionBytes_of_written {s t : State} {bs : List Byte} {n : Nat} {y : Byte}
    (hpos : t.pos = s.pos + bs.length + n) (hold : ∀ k, k < s.pos → t.outByte k = s.outByte k)
    (hbs : ∀ i (h : i < bs.length), t.outByte (s.pos + i) = bs[i])
    (hrun : ∀ k, t.pos - n ≤ k → k < t.pos → t.outByte k = y) :
    t.partitionBytes = s.partitionBytes ++ bs ++ List.replicate n y := by
  have hfirst : (List.range s.pos).map t.outByte = s.partitionBytes :=
    List.map_congr_left fun k hk => hold k (List.mem_range.mp hk)
  have hmid : (List.range bs.length).map (fun i => t.outByte (s.pos + i)) = bs :=
    List.ext_getElem (by simp) fun i _ h => by simpa using hbs i h
  have hlast : (List.range n).map (fun i => t.outByte (s.pos + bs.length + i)) = List.replicate n y := by
    rw [List.eq_replicate_iff]
    refine ⟨by simp, fun b hb => ?_⟩
    obtain ⟨i, hi, rfl⟩ := List.mem_map.mp hb
    have hin := List.mem_range.mp hi
    exact hrun _ (by omega) (by omega)
  rw [State.partitionBytes, hpos, List.range_add, List.range_add]
  simp only [List.map_append, List.map_map, Function.comp_def, hfirst, hmid, hlast]

/-- The output after a group is packed that is not 0xFF: the held byte with the carry in it, then the run. -/
theorem Packed.partitionBytes {g : Nat} {s t : State} (h : Packed g s t) (hg : g % 256 ≠ 255) :
    t.partitionBytes = s.partitionBytes
      ++ (if s.held = 0xFF then [] else [if 256 ≤ g then s.held + 1 else s.held])
      ++ List.replicate s.run (if 256 ≤ g then 0x00 else 0xFF) := by
  rw [Packed, if_neg hg] at h
  obtain ⟨-, -, hpos, hheld, hrun, hold⟩ := h
  refine partitionBytes_of_written ?_ (fun k hk => hold k (.inl hk)) (fun i hi => ?_) hrun
  · rw [hpos, Nat.add_right_comm]
    split <;> rfl
  · by_cases hh : s.held = 0xFF
    · simp [hh] at hi
    · have hlt := hi
      rw [if_neg hh, List.length_singleton] at hlt
      obtain rfl : i = 0 := by omega
      rw [List.getElem_of_eq (if_neg hh)]
      exact hheld hh

/-- A packed group is one more digit of the number, and the carry is in the digits before it
(44_range_coder.md R143 to R145). -/
theorem Packed.streamBytes_value {g : Nat} {s t : State} (h : Packed g s t) (hlt : g < 511)
    (hempty : s.held = 0xFF → g < 255 ∧ s.run = 0) :
    bytesValue t.streamBytes = 256 * bytesValue s.streamBytes + g ∧
      t.streamBytes.length = s.streamBytes.length + 1 ∧ t.held ≠ 0xFF := by
  by_cases hff : g % 256 = 255
  · obtain rfl : g = 255 := by omega
    have hne : s.held ≠ 0xFF := fun hh => absurd (hempty hh).1 (by decide)
    rw [Packed, if_pos hff] at h
    obtain ⟨hrun, hheld, hpos, hout⟩ := h
    have hpart : t.partitionBytes = s.partitionBytes := by
      rw [State.partitionBytes, State.partitionBytes, hpos]
      exact List.map_congr_left fun k _ => hout k
    have hstream : t.streamBytes = s.streamBytes ++ [0xFF] := by
      rw [streamBytes_eq, streamBytes_eq, hpart, hheld, hrun, List.replicate_succ', List.append_assoc _ _ [0xFF]]
    rw [hstream, bytesValue_concat, List.length_append]
    exact ⟨rfl, rfl, hheld ▸ hne⟩
  · have hpart := h.partitionBytes hff
    rw [Packed, if_neg hff] at h
    obtain ⟨hrun, hheld, -⟩ := h
    have hne : t.held ≠ 0xFF := fun hh => hff (by rw [← hheld, hh]; rfl)
    have hstream : t.streamBytes = t.partitionBytes ++ [t.held] := by
      rw [streamBytes_eq, hrun, if_neg hne, List.replicate_zero, List.append_nil]
    have hlen : t.streamBytes.length = s.streamBytes.length + 1 := by
      rw [hstream, hpart, streamBytes_eq]
      simp only [List.length_append, List.length_replicate, List.length_singleton]
      split <;> rfl
    refine ⟨?_, hlen, hne⟩
    rw [hstream, bytesValue_concat, hheld, hpart, streamBytes_eq]
    by_cases hcarry : 256 ≤ g
    · have hs : s.held ≠ 0xFF := fun hh => by have := (hempty hh).1; omega
      rw [if_neg hs, if_pos hcarry, if_pos hcarry, if_neg hs, bytesValue_carry _ _ hs]
      omega
    · rw [if_neg hcarry, if_neg hcarry]
      omega

end Sys2Proof.Machine

/-! ### A coded bit moves the low end (44_range_coder.md R137 to R145, R157) -/

namespace Sys2Proof.Machine

/-- The coder's registers and output as the interval of a coder without a packer: the low end in full, and as many
shifts as bits have entered `value` and the stream. -/
def State.interval (s : State) : Interval :=
  { low := s.lowEnd, range := s.range.toNat, shifts := 8 * s.streamBytes.length + s.bitCount }

theorem interval_code_eq (s : State) (bit : Bool) (prob : Prob) :
    s.interval.code bit prob =
      { low := (s.lowEnd + if bit then splitOf s.range.toNat prob.toNat else 0) * 2 ^ bitShift bit prob s
        range := shiftedRange bit prob s - 1
        shifts := 8 * s.streamBytes.length + s.bitCount + bitShift bit prob s } := rfl

theorem State.CoderInv.bitCount_le {s : State} (hi : s.CoderInv) : s.bitCount ≤ 8 := by
  have := hi.bits_high
  unfold State.bitCount
  omega

theorem CodedBit.frame {bit : Bool} {prob : Prob} {s t : State} (h : CodedBit bit prob s t) :
    t = { s with range := t.range, value := t.value, nbBits := t.nbBits, run := t.run, pos := t.pos, held := t.held
                 out := t.out } := by
  obtain ⟨_, _, _, _, _, _, _, _, _, _, _, _, hframe, _⟩ := h
  exact hframe

theorem CodedBit.phase {bit : Bool} {prob : Prob} {s t : State} (h : CodedBit bit prob s t) : t.phase = s.phase := by
  rw [h.frame]

/-- The two ways a bit is coded: its shift fits in `value`, or a byte group leaves (44_range_coder.md R141, R142). -/
theorem CodedBit.cases {bit : Bool} {prob : Prob} {s t : State} (hi : s.CoderInv) (h : CodedBit bit prob s t) :
    (t.bitCount = s.bitCount + bitShift bit prob s ∧ t.value.toNat = shiftedValue bit prob s ∧ t.run = s.run ∧
      t.pos = s.pos ∧ t.held = s.held ∧ ∀ j, t.outByte j = s.outByte j) ∨
    (8 < s.bitCount + bitShift bit prob s ∧ t.bitCount + 8 = s.bitCount + bitShift bit prob s ∧
      t.value.toNat = shiftedValue bit prob s % 2 ^ (s.bitCount + bitShift bit prob s) ∧
      Packed (shiftedValue bit prob s / 2 ^ (s.bitCount + bitShift bit prob s)) s t) := by
  obtain ⟨k, split, rn, v, n, hsplit, hrn, hk, hlo, hhi, hv, hn, -, -, hrest⟩ := h
  subst hsplit hrn
  obtain rfl : k = bitShift bit prob s := eq_clz8 hlo hhi
  obtain rfl : v = shiftedValue bit prob s := hv
  have hbc := bitCount_eq hi.bits_low
  split at hrest
  next hle =>
    obtain ⟨hval, hnb, hrun, hpos, hheld, hout⟩ := hrest
    refine .inl ⟨?_, hval, hrun, hpos, hheld, hout⟩
    rw [State.bitCount, hnb]
    omega
  next hgt =>
    obtain ⟨hval, hnb, hpacked⟩ := hrest
    have hm : (8 + n).toNat = s.bitCount + bitShift bit prob s := by omega
    rw [hm] at hval hpacked
    refine .inr ⟨by omega, ?_, hval, hpacked⟩
    rw [State.bitCount, hnb]
    omega

theorem CodedBit.range_eq {bit : Bool} {prob : Prob} {s t : State} (h : CodedBit bit prob s t) :
    t.range.toNat = shiftedRange bit prob s - 1 := by
  obtain ⟨k, split, rn, -, -, hsplit, hrn, -, hlo, hhi, -, -, -, hrange, -⟩ := h
  subst hsplit hrn
  obtain rfl : k = bitShift bit prob s := eq_clz8 hlo hhi
  exact hrange

/-- A byte group that leaves is one more byte of the stream. -/
theorem streamBytes_of_group {bit : Bool} {prob : Prob} {s t : State} (hi : s.CoderInv) (hp : s.phase ≠ .done)
    (h : Packed (shiftedValue bit prob s / 2 ^ (s.bitCount + bitShift bit prob s)) s t) :
    bytesValue t.streamBytes = 256 * bytesValue s.streamBytes
        + shiftedValue bit prob s / 2 ^ (s.bitCount + bitShift bit prob s) ∧
      t.streamBytes.length = s.streamBytes.length + 1 ∧ t.held ≠ 0xFF := by
  obtain ⟨hlt, hempty⟩ := group_bounds (bit := bit) (prob := prob) hi hp
  exact h.streamBytes_value (by omega) fun hh => ⟨by have := hempty hh; omega, hi.run_held hh⟩

/-- A bit whose shift fits in `value` leaves the stream alone. -/
theorem streamBytes_congr {s t : State} (hpos : t.pos = s.pos) (hheld : t.held = s.held) (hrun : t.run = s.run)
    (hout : ∀ j, t.outByte j = s.outByte j) : t.streamBytes = s.streamBytes := by
  simp only [State.streamBytes, hpos, hheld, hrun, funext hout]

/-- A coded bit is one step of the coder without a packer. -/
theorem CodedBit.interval_eq {bit : Bool} {prob : Prob} {s t : State} (hi : s.CoderInv) (hp : s.phase ≠ .done)
    (h : CodedBit bit prob s t) : t.interval = s.interval.code bit prob := by
  have hshift : (s.lowEnd + if bit then splitOf s.range.toNat prob.toNat else 0) * 2 ^ bitShift bit prob s =
      bytesValue s.streamBytes * 2 ^ (s.bitCount + bitShift bit prob s + 8) + shiftedValue bit prob s := by
    rw [State.lowEnd, shiftedValue, Nat.add_right_comm s.bitCount, Nat.pow_add _ (s.bitCount + 8)]
    ring
  rw [interval_code_eq, hshift]
  simp only [State.interval, Interval.mk.injEq]
  rcases h.cases hi with ⟨hcount, hval, hrun, hpos, hheld, hout⟩ | ⟨-, hcount, hval, hpacked⟩
  · rw [State.lowEnd, streamBytes_congr hpos hheld hrun hout, hcount, hval]
    exact ⟨rfl, h.range_eq, by omega⟩
  · obtain ⟨hbytes, hlen, -⟩ := streamBytes_of_group hi hp hpacked
    refine ⟨?_, h.range_eq, by omega⟩
    have hdm := Nat.div_add_mod (shiftedValue bit prob s) (2 ^ (s.bitCount + bitShift bit prob s))
    rw [State.lowEnd, hbytes, hval, hcount, Nat.pow_add _ _ 8]
    linarith

/-- Settles O44: the low end and the range are two parts of the interval. -/
theorem tokenMovesTheLowEnd : Obligations.TokenMovesTheLowEnd := by
  intro s t bit prob todo hpass hi hp h
  rw [exec_tokConst_eq, runBit_emit hpass, endOnFault_eq_next] at h
  have he := (codedBit_of_putBit hi hp h).interval_eq hi hp
  exact ⟨congrArg Interval.low he, congrArg Interval.range he⟩

/-! ### Bits coded in order -/

/-- PUTBIT completes where the output has room for the bytes that the shifts fill. -/
theorem putBit_completes {bit : Bool} {prob : Prob} {s : State} (hi : s.CoderInv) (hp : s.phase ≠ .done)
    (room : (s.interval.code bit prob).shifts ≤ 8 * (s.cfg.outCapacity + 1)) :
    ∃ t, putBit bit prob s = .next t ∧ CodedBit bit prob s t := by
  refine putBit_coded hi hp ?_
  have hbc := bitCount_eq hi.bits_low
  have hlen := streamBytes_length s
  rw [interval_code_eq] at room
  simp only at room
  by_cases hfits : s.bitCount + bitShift bit prob s ≤ 8
  · exact .inl (by omega)
  · exact .inr (by omega)

theorem CodedAll.frame {bits : List (Bool × Prob)} {s t : State} (h : CodedAll bits s t) :
    t = { s with range := t.range, value := t.value, nbBits := t.nbBits, run := t.run, pos := t.pos, held := t.held
                 out := t.out } := by
  induction bits generalizing s with
  | nil => cases h; rfl
  | cons q bits ih =>
    obtain ⟨m, hm, ht⟩ := h
    rw [ih ht, hm.frame]

theorem CodedAll.phase {bits : List (Bool × Prob)} {s t : State} (h : CodedAll bits s t) : t.phase = s.phase := by
  rw [h.frame]

theorem CodedAll.coderInv {bits : List (Bool × Prob)} {s t : State} (hi : s.CoderInv) (hp : s.phase ≠ .done)
    (h : CodedAll bits s t) : t.CoderInv := by
  induction bits generalizing s with
  | nil => cases h; exact hi
  | cons q bits ih =>
    obtain ⟨m, hm, ht⟩ := h
    exact ih (hm.coderInv hi hp) (hm.phase ▸ hp) ht

theorem CodedAll.interval_eq {bits : List (Bool × Prob)} {s t : State} (hi : s.CoderInv) (hp : s.phase ≠ .done)
    (h : CodedAll bits s t) : t.interval = s.interval.codeAll bits := by
  induction bits generalizing s with
  | nil => cases h; rfl
  | cons q bits ih =>
    obtain ⟨m, hm, ht⟩ := h
    rw [ih (hm.coderInv hi hp) (hm.phase ▸ hp) ht, hm.interval_eq hi hp]
    rfl

end Sys2Proof.Machine

/-! ### EMIT (44_range_coder.md R149 to R151) -/

namespace Sys2Proof.Machine

/-- Coding reads no cursor and moves none. -/
theorem CodedBit.withPass {bit : Bool} {prob : Prob} {s t : State} (h : CodedBit bit prob s t) (p : Option Pass) :
    CodedBit bit prob { s with pass := p } { t with pass := p } := by
  obtain ⟨k, split, rn, v, n, hsplit, hrn, hk, hlo, hhi, hv, hn, hframe, hrange, hrest⟩ := h
  refine ⟨k, split, rn, v, n, hsplit, hrn, hk, hlo, hhi, hv, hn, ?_, hrange, hrest⟩
  rw [hframe]

theorem State.CoderInv.withPass {s : State} (hi : s.CoderInv) (p : Option Pass) :
    ({ s with pass := p } : State).CoderInv := hi.of_same (withPass_same _ s p) id

/-- A token word of EMIT that completes has coded its bit. -/
theorem runBit_codedBit {bit : Bool} {prob : Prob} {s t : State} {todo : List TokWord} (hi : s.CoderInv)
    (hp : s.phase ≠ .done) (hpass : s.pass = some (.emit todo)) (h : runBit bit prob s = .next t) :
    CodedBit bit prob s t := by
  rw [runBit_emit hpass, endOnFault_eq_next] at h
  exact codedBit_of_putBit hi hp h

/-- The cursor moved past a word of EMIT. -/
theorem advance_emit {s : State} {todo : List TokWord} (hpass : s.pass = some (.emit todo)) (ts : List TokWord) :
    s.advance ts = { s with pass := some (.emit ts) } := advance_of_pass hpass ts

/-- A traversal of EMIT that completes has coded the bits of its words, and closed. -/
theorem runTokens_emit_codedAll {ts todo : List TokWord} {s t : State} {bits : List (Bool × Prob)}
    (hi : s.CoderInv) (hp : s.phase ≠ .done) (hpass : s.pass = some (.emit todo))
    (hbits : ts.mapM s.resolve = some bits) (h : runTokens ts s = .next t) :
    ∃ m, CodedAll bits { s with pass := none } m ∧ t = closeEmit m := by
  induction ts generalizing s todo bits with
  | nil =>
    cases hbits
    rw [runTokens, closePass, hpass] at h
    cases h
    exact ⟨_, rfl, rfl⟩
  | cons w ts ih =>
    obtain ⟨bit, prob, rest, rfl, hw, hts⟩ := mapM_resolve_cons hbits
    rw [runTokens_cons_of_resolve ts hw, advance_emit hpass] at h
    obtain ⟨u, hu, ht⟩ := andThen_eq_next.mp h
    have hi' := hi.withPass (some (.emit ts))
    have hc : CodedBit bit prob { s with pass := some (.emit ts) } u := runBit_codedBit hi' hp rfl hu
    have hpu : u.pass = some (.emit ts) := by rw [hc.frame]
    have hwu : u.pw = s.pw := by rw [hc.frame]
    obtain ⟨m, hm, rfl⟩ := ih (hc.coderInv hi' hp) (hc.phase ▸ hp) hpu (by rwa [resolve_congr hwu]) ht
    exact ⟨m, ⟨_, hc.withPass none, hm⟩, rfl⟩

/-- A traversal of EMIT completes where the output has room for the bytes that its shifts fill. -/
theorem runTokens_emit_completes {ts todo : List TokWord} {s : State} {bits : List (Bool × Prob)}
    (hi : s.CoderInv) (hp : s.phase ≠ .done) (hpass : s.pass = some (.emit todo))
    (hbits : ts.mapM s.resolve = some bits)
    (room : (s.interval.codeAll bits).shifts ≤ 8 * (s.cfg.outCapacity + 1)) : ∃ t, runTokens ts s = .next t := by
  induction ts generalizing s todo bits with
  | nil => exact ⟨_, rfl⟩
  | cons w ts ih =>
    obtain ⟨bit, prob, rest, rfl, hw, hts⟩ := mapM_resolve_cons hbits
    rw [Interval.codeAll_cons] at room
    have hi' := hi.withPass (some (.emit ts))
    obtain ⟨u, hu, hc⟩ := putBit_completes (s := { s with pass := some (.emit ts) }) hi' hp
      ((Interval.shifts_le_codeAll _ rest).trans room)
    have hpu : u.pass = some (.emit ts) := by rw [hc.frame]
    have hwu : u.pw = s.pw := by rw [hc.frame]
    have hcu : u.cfg = s.cfg := by rw [hc.frame]
    rw [runTokens_cons_of_resolve ts hw, advance_emit hpass, runBit_emit rfl, hu, endOnFault_of_next, andThen_of_next]
    refine ih (hc.coderInv hi' hp) (hc.phase ▸ hp) hpu (by rwa [resolve_congr hwu]) ?_
    rw [hc.interval_eq hi' hp, hcu]
    exact room

theorem withPass_none {s : State} (h : s.pass = none) : ({ s with pass := none } : State) = s := by
  rw [← h]

theorem open_of_admits {s : State} (h : s.phase = .recording ∨ s.phase = .finalized) : s.phase ≠ .done := by
  rcases h with h | h <;> simp [h]

/-- EMIT that completes ran in a phase that admits it, coded the bits of the recorded tokens, and closed. -/
theorem exec_emit_eq_next {s t : State} {bits : List (Bool × Prob)} (hi : s.CoderInv) (hpass : s.pass = none)
    (hbits : s.tokseq.mapM s.resolve = some bits) (h : exec .emit s = .next t) :
    (s.phase = .recording ∨ s.phase = .finalized) ∧ ∃ m, CodedAll bits s m ∧ t = closeEmit m := by
  obtain ⟨hphase, h⟩ := ite_refuse_eq_next (refusePhase_ne_next s t) h
  obtain ⟨m, hm, rfl⟩ := runTokens_emit_codedAll (hi.withPass (some (.emit s.tokseq)))
    (open_of_admits hphase) rfl hbits h
  exact ⟨hphase, m, withPass_none hpass ▸ hm, rfl⟩

theorem closeEmit_tokseq (s : State) : (closeEmit s).tokseq = [] := rfl

/-- The end of EMIT writes the token buffer, the record, the phase and the counter of free values. -/
theorem closeEmit_frame {s : State} (h : s.pass = none) :
    closeEmit s =
      { s with tok := (closeEmit s).tok, npages := 0, left := 0, eop := (closeEmit s).eop, phase := .emitted
               freeCount := (closeEmit s).freeCount } := by
  rw [h]
  rfl

/-- Settles O49: seven shifts a token bound what the tokens push out. -/
theorem emitResult : Obligations.EmitResult := by
  intro s bits hphase hpass hi hbits hroom
  have hshifts : (s.interval.codeAll bits).shifts ≤ 8 * (s.cfg.outCapacity + 1) := by
    have hbound := Interval.codeAll_shifts_le (e := s.interval) bits hi.range_low hi.range_high
    have hlen := streamBytes_length s
    rw [State.interval] at hbound ⊢
    simp only at hbound
    split at hlen <;> omega
  obtain ⟨t, ht⟩ := runTokens_emit_completes (hi.withPass (some (.emit s.tokseq)))
    (open_of_admits hphase) rfl hbits hshifts
  rw [← exec_emit_of_phase hphase] at ht
  obtain ⟨-, m, hm, rfl⟩ := exec_emit_eq_next hi hpass hbits ht
  have hpm : m.pass = none := by rw [hm.frame, hpass]
  exact ⟨_, m, ht, hm, closeEmit_frame hpm, closeEmit_tokseq m, rfl, rfl, rfl, rfl, rfl, rfl⟩

end Sys2Proof.Machine

/-! ### The padding of FINISH (44_range_coder.md R153, R158) -/

namespace Sys2Proof.Machine

theorem padBits_codedAll {n : Nat} {s t : State} (hi : s.CoderInv) (hp : s.phase ≠ .done)
    (h : padBits n s = .next t) : CodedAll (padding n) s t := by
  induction n generalizing s with
  | zero => cases h; rfl
  | succ n ih =>
    obtain ⟨u, hu, ht⟩ := andThen_eq_next.mp h
    have hc := codedBit_of_putBit hi hp hu
    exact ⟨u, hc, ih (hc.coderInv hi hp) (hc.phase ▸ hp) ht⟩

theorem padBits_completes {n : Nat} {s : State} (hi : s.CoderInv) (hp : s.phase ≠ .done)
    (room : (s.interval.codeAll (padding n)).shifts ≤ 8 * (s.cfg.outCapacity + 1)) :
    ∃ t, padBits n s = .next t := by
  induction n generalizing s with
  | zero => exact ⟨s, rfl⟩
  | succ n ih =>
    rw [padding, List.replicate_succ, Interval.codeAll_cons] at room
    obtain ⟨u, hu, hc⟩ := putBit_completes hi hp ((Interval.shifts_le_codeAll _ (padding n)).trans room)
    have hcu : u.cfg = s.cfg := by rw [hc.frame]
    rw [padBits, hu, andThen_of_next]
    refine ih (hc.coderInv hi hp) (hc.phase ▸ hp) ?_
    rw [hc.interval_eq hi hp, hcu]
    exact room

/-- What a byte group that leaves makes true, and 0 bits after it keep: a byte is held, at least one bit has entered
`value` since, and `value` has no bit above them. -/
structure State.Extracted (s : State) : Prop where
  held : s.held ≠ 0xFF
  count : 1 ≤ s.bitCount
  value : s.value.toNat < 2 ^ (s.bitCount + 8)

theorem CodedBit.extracted {prob : Prob} {s t : State} (hi : s.CoderInv) (hp : s.phase ≠ .done)
    (h : CodedBit false prob s t) (hs : s.Extracted ∨ s.streamBytes.length < t.streamBytes.length) : t.Extracted := by
  rcases h.cases hi with ⟨hcount, hval, hrun, hpos, hheld, hout⟩ | ⟨hgt, hcount, hval, hpacked⟩
  · rw [streamBytes_congr hpos hheld hrun hout] at hs
    obtain ⟨hh, hc, hv⟩ := hs.resolve_right (Nat.lt_irrefl _)
    refine ⟨hheld ▸ hh, by omega, ?_⟩
    rw [hval, hcount, shiftedValue, if_neg Bool.false_ne_true, Nat.add_right_comm, Nat.pow_add]
    exact Nat.mul_lt_mul_of_pos_right hv (Nat.two_pow_pos _)
  · obtain ⟨-, -, hh⟩ := streamBytes_of_group hi hp hpacked
    refine ⟨hh, by omega, ?_⟩
    rw [hval, hcount]
    exact Nat.mod_lt _ (Nat.two_pow_pos _)

/-- Once a group has left during the padding, what it made true stays. -/
theorem extracted_of_padding {n : Nat} {s t : State} (hi : s.CoderInv) (hp : s.phase ≠ .done)
    (h : CodedAll (padding n) s t) (hs : s.Extracted ∨ s.streamBytes.length < t.streamBytes.length) : t.Extracted := by
  induction n generalizing s with
  | zero => cases h; exact hs.resolve_right (Nat.lt_irrefl _)
  | succ n ih =>
    obtain ⟨m, hm, ht⟩ := h
    refine ih (hm.coderInv hi hp) (hm.phase ▸ hp) ht ?_
    by_cases hgrow : s.streamBytes.length < m.streamBytes.length
    · exact .inl (hm.extracted hi hp (.inr hgrow))
    · exact hs.imp (fun he => hm.extracted hi hp (.inl he)) (by omega)

/-- The number of padding bits of FINISH. -/
abbrev State.padCount (s : State) : Nat := (9 - s.nbBits.toInt).toNat

/-- The byte groups that leave during the padding (44_range_coder.md R158). -/
abbrev State.padGroups (s : State) : Nat := if s.range = 254 then 1 else 2

/-- The padding shifts once a bit, but for the first bit of an empty stream: the `r` shifts after the last group has
left are not enough for one more, and with the eight before them they are all padding. -/
theorem padding_interval {s : State} (hi : s.CoderInv) :
    ∃ p r, (s.interval.codeAll (padding s.padCount)).low = s.lowEnd * 2 ^ p ∧
      (s.interval.codeAll (padding s.padCount)).shifts = s.interval.shifts + p ∧
      s.interval.shifts + p = 8 * (s.streamBytes.length + s.padGroups) + r ∧ 1 ≤ r ∧ r ≤ 8 ∧ r + 8 ≤ p := by
  by_cases hr : s.range = 254
  · have hrange : s.range.toNat = 254 := by rw [hr]; rfl
    obtain ⟨-, hnb, -⟩ := hi.range_init hrange
    have hpad : s.padCount = 16 + 1 := by rw [State.padCount, hnb]; rfl
    have hcount : s.bitCount = 0 := by rw [State.bitCount, hnb]; rfl
    obtain ⟨hlow, hshifts⟩ := Interval.codeAll_padding_start (e := s.interval) 16 hrange
    rw [← hpad] at hlow hshifts
    refine ⟨16, 8, hlow, hshifts, ?_, by decide, by decide, by decide⟩
    rw [State.interval, hcount, State.padGroups, if_pos hr]
    simp only
    omega
  · have hrange : s.range.toNat ≠ 254 := fun h => hr (BitVec.eq_of_toNat_eq h)
    have hhigh := hi.range_high
    have hbits := hi.bits_high
    have hcount := bitCount_eq hi.bits_low
    obtain ⟨hlow, hshifts⟩ := Interval.codeAll_padding (e := s.interval) s.padCount hi.range_low
      (show s.range.toNat ≤ 253 by omega)
    refine ⟨s.padCount, 1, hlow, hshifts, ?_, by decide, by decide, by rw [State.padCount]; omega⟩
    rw [State.interval, State.padGroups, if_neg hr, State.padCount]
    simp only
    omega

/-- After the padding every bit that was coded has left `value`, and the last byte that left is held. -/
theorem padded_result {s m : State} (hi : s.CoderInv) (hp : s.phase ≠ .done)
    (h : CodedAll (padding s.padCount) s m) :
    m.value = 0 ∧ m.held ≠ 0xFF ∧ m.streamBytes.length = s.streamBytes.length + s.padGroups := by
  have hgroups : 1 ≤ s.padGroups := by rw [State.padGroups]; split <;> decide
  obtain ⟨p, r, hlow, hshifts, htotal, hr1, hr8, hp9⟩ := padding_interval hi
  rw [htotal] at hshifts
  rw [← h.interval_eq hi hp, State.interval] at hlow hshifts
  simp only at hlow hshifts
  have hle := (h.coderInv hi hp).bitCount_le
  obtain ⟨hheld, hcount, hvalue⟩ := extracted_of_padding hi hp h (.inr (by omega))
  refine ⟨BitVec.eq_of_toNat_eq ?_, hheld, by omega⟩
  have hdvd : 2 ^ (m.bitCount + 8) ∣ s.lowEnd * 2 ^ p :=
    Dvd.dvd.mul_left (Nat.pow_dvd_pow 2 (by omega)) _
  rw [← hlow, State.lowEnd, Nat.dvd_add_right (Nat.dvd_mul_left _ _)] at hdvd
  exact Nat.eq_zero_of_dvd_of_lt hdvd hvalue

end Sys2Proof.Machine

/-! ### FINISH (44_range_coder.md R153, R158) -/

namespace Sys2Proof.Machine

/-- The forced extraction of an empty `value` packs a zero group and leaves eight zero bits. -/
theorem forceExtract_eq_pack {m : State} (hvalue : m.value = 0) :
    forceExtract m = pack 0 { m with value := 0, nbBits := -8 } := by
  have hgroup : ({ m with nbBits := 0 } : State).value >>> 8 = 0 := by rw [hvalue]; rfl
  have hafter : afterExtract { m with nbBits := 0 } = { m with value := 0, nbBits := -8 } := by
    simp only [afterExtract, hvalue]
    rfl
  rw [forceExtract, extract_eq_pack, hafter, ← hgroup]
  rfl

theorem forceExtract_packed {m v : State} (hvalue : m.value = 0) (h : forceExtract m = .next v) :
    Packed 0 m v ∧
      v = { m with value := 0, nbBits := -8, run := v.run, pos := v.pos, held := v.held, out := v.out } := by
  rw [forceExtract_eq_pack hvalue] at h
  exact ⟨packed_of_pack (s := { m with value := 0, nbBits := -8 }) (by decide) h, pack_keeps h⟩

/-- A zero group behind a held byte: the held byte and the run leave as they are, and a zero byte is held. -/
theorem Packed.of_zero {m v : State} (h : Packed 0 m v) (hheld : m.held ≠ 0xFF) :
    v.run = 0 ∧ v.held = 0x00 ∧ v.pos = m.pos + m.run + 1 ∧ v.outByte m.pos = m.held ∧
      (∀ k, m.pos < k → k < v.pos → v.outByte k = 0xFF) ∧ ∀ k, k < m.pos ∨ v.pos ≤ k → v.outByte k = m.outByte k := by
  rw [Packed, if_neg (by decide), if_neg hheld] at h
  obtain ⟨hrun, hzero, hpos, hfirst, hones, hold⟩ := h
  exact ⟨hrun, BitVec.eq_of_toNat_eq hzero, hpos, hfirst hheld, fun k hk hk' => hones k (by omega) hk', hold⟩

/-- The last flush of FINISH, with the one zero byte of the forced extraction held. -/
def flushZero (v : State) : State := { v with out := Memory.write v.out v.pos 0x00, pos := v.pos + 1 }

theorem flushPending_of_zero {v u : State} (hrun : v.run = 0) (hheld : v.held = 0x00) :
    flushPending v = .next u ↔ v.pos + 1 ≤ v.cfg.outCapacity ∧ u = flushZero v := by
  have hne : v.held ≠ 0xFF := by rw [hheld]; decide
  have hzero : flushZero v =
      { v with out := writeRun v.run (v.pos + 1) 0xFF (Memory.write v.out v.pos v.held)
               pos := v.pos + v.run + 1 } := by
    simp only [flushZero, hrun, hheld, writeRun, Nat.add_zero]
  rw [flushPending_eq_next, ← hzero]
  constructor
  · rintro (⟨hff, -⟩ | ⟨-, hroom, hu⟩)
    · exact absurd hff hne
    · exact ⟨by omega, hu⟩
  · rintro ⟨hroom, hu⟩
    exact .inr ⟨hne, by omega, hu⟩

theorem flushZero_outByte (v : State) (k : Nat) : (flushZero v).outByte k = if k = v.pos then 0x00 else v.outByte k :=
  outByte_write v v.pos k 0x00

/-- FINISH that completes: the padding, the forced extraction, the flush of one zero byte, the end. -/
theorem exec_finish_eq_next {s u : State} (hi : s.CoderInv) (h : exec .finish s = .next u) :
    s.phase = .emitted ∧ ∃ m v, CodedAll (padding s.padCount) s m ∧ forceExtract m = .next v ∧
      u = closeStream (flushZero v) := by
  obtain ⟨hphase, h⟩ := ite_refuse_eq_next (refusePhase_ne_next s u) h
  obtain ⟨m, hm, h⟩ := andThen_eq_next.mp h
  obtain ⟨v, hv, h⟩ := andThen_eq_next.mp h
  obtain ⟨w, hw, h⟩ := andThen_eq_next.mp h
  cases h
  have hopen : s.phase ≠ .done := by simp [hphase]
  have hpad := padBits_codedAll hi hopen hm
  obtain ⟨hvalue, hheld, -⟩ := padded_result hi hopen hpad
  obtain ⟨hrun, hzero, -⟩ := (forceExtract_packed hvalue hv).1.of_zero hheld
  obtain ⟨-, rfl⟩ := (flushPending_of_zero hrun hzero).mp hw
  exact ⟨hphase, m, v, hpad, hv, rfl⟩

/-- FINISH completes where the output has room for what it adds to the bytes that have left. -/
theorem exec_finish_completes {s : State} (hphase : s.phase = .emitted) (hi : s.CoderInv)
    (hroom : s.streamBytes.length + s.padGroups + 1 ≤ s.cfg.outCapacity) : ∃ u, exec .finish s = .next u := by
  have hopen : s.phase ≠ .done := by simp [hphase]
  obtain ⟨p, r, -, hshifts, htotal, -, hr8, -⟩ := padding_interval hi
  obtain ⟨m, hm⟩ := padBits_completes (n := s.padCount) hi hopen (by omega)
  have hpad := padBits_codedAll hi hopen hm
  obtain ⟨hvalue, hheld, hlen⟩ := padded_result hi hopen hpad
  have hcm : m.cfg = s.cfg := by rw [hpad.frame]
  rw [streamBytes_length m, if_neg hheld] at hlen
  obtain ⟨v, hv, -⟩ := pack_packed (w := 0) (s := { m with value := 0, nbBits := -8 }) (by decide)
    (fun h => absurd h (by decide)) (by simp only [hcm]; omega)
  rw [← forceExtract_eq_pack hvalue] at hv
  obtain ⟨hpacked, hframe⟩ := forceExtract_packed hvalue hv
  obtain ⟨hrun, hzero, hpos, -⟩ := hpacked.of_zero hheld
  have hcv : v.cfg = s.cfg := by rw [hframe]; exact hcm
  have hflush := (flushPending_of_zero hrun hzero).mpr ⟨by rw [hpos, hcv]; omega, rfl⟩
  refine ⟨closeStream (flushZero v), ?_⟩
  rw [exec, execFinish, if_pos hphase, hm, andThen_of_next, hv, andThen_of_next, hflush, andThen_of_next]

/-- The end of FINISH in terms of the state after the padding. -/
theorem closeStream_flushZero_frame {m v : State}
    (h : v = { m with value := 0, nbBits := -8, run := v.run, pos := v.pos, held := v.held, out := v.out }) :
    closeStream (flushZero v) =
      { m with value := 0, nbBits := -8, run := 0, held := 0xFF, pos := (closeStream (flushZero v)).pos
               out := (closeStream (flushZero v)).out, phase := .done } := by
  rw [h]
  rfl

/-- Settles O51: the padding empties `value`, so the forced extraction and the flush write what was held, the run, and
one zero byte. -/
theorem finishResult : Obligations.FinishResult := by
  intro s hphase hi hroom
  have hlen := streamBytes_length s
  have hgroups : s.padGroups + 1 = if s.range = 254 then 2 else 3 := by rw [State.padGroups]; split <;> rfl
  have hopen : s.phase ≠ .done := by simp [hphase]
  obtain ⟨t, ht⟩ := exec_finish_completes hphase hi (by omega)
  obtain ⟨-, m, v, hpad, hext, rfl⟩ := exec_finish_eq_next hi ht
  obtain ⟨hvalue, hheld, hlenm⟩ := padded_result hi hopen hpad
  obtain ⟨hpacked, hframe⟩ := forceExtract_packed hvalue hext
  obtain ⟨-, -, hpos, hfirst, hones, hold⟩ := hpacked.of_zero hheld
  rw [streamBytes_length m, if_neg hheld] at hlenm
  have hposu : (closeStream (flushZero v)).pos = v.pos + 1 := rfl
  have hread (k : Nat) : (closeStream (flushZero v)).outByte k = if k = v.pos then 0x00 else v.outByte k :=
    flushZero_outByte v k
  refine ⟨_, m, ht, hpad, closeStream_flushZero_frame hframe, by omega, by omega, ?_, ?_, fun k hk hk' => ?_,
    fun k hk => ?_⟩
  · rw [hread, if_pos (by omega)]
  · rw [hread, if_neg (by omega), hfirst]
  · rw [hread, if_neg (by omega), hones k hk (by omega)]
  · rw [hread, if_neg (by omega), hold k (by omega)]

end Sys2Proof.Machine

/-! ### The partition as a binary fraction (44_range_coder.md R159) -/

namespace Sys2Proof.Machine

/-- The bytes of a closed stream: those that the padding left in the coder, and one zero byte more. -/
theorem exec_finish_partition {s u : State} (hi : s.CoderInv) (h : exec .finish s = .next u) :
    s.phase = .emitted ∧ ∃ m, CodedAll (padding s.padCount) s m ∧ m.value = 0 ∧
      bytesValue u.partitionBytes = 256 * bytesValue m.streamBytes ∧ u.pos = m.streamBytes.length + 1 := by
  obtain ⟨hphase, m, v, hpad, hext, rfl⟩ := exec_finish_eq_next hi h
  obtain ⟨hvalue, hheld, -⟩ := padded_result hi (by simp [hphase]) hpad
  obtain ⟨hpacked, -⟩ := forceExtract_packed hvalue hext
  obtain ⟨hrun, hzero, hpos, -⟩ := hpacked.of_zero hheld
  obtain ⟨hbytes, -, hne⟩ := hpacked.streamBytes_value (by decide) fun hff => absurd hff hheld
  have hread := flushZero_outByte v
  have hpart : (closeStream (flushZero v)).partitionBytes = v.partitionBytes ++ [0x00] ++ List.replicate 0 0x00 :=
    partitionBytes_of_written (s := v) (t := closeStream (flushZero v)) rfl
      (fun k hk => (hread k).trans (if_neg (Nat.ne_of_lt hk)))
      (fun i hin => by
        obtain rfl : i = 0 := Nat.lt_one_iff.mp hin
        exact (hread v.pos).trans (if_pos rfl))
      (fun k hk hk' => absurd hk' (Nat.not_lt.mpr hk))
  have hstream : v.streamBytes = v.partitionBytes ++ [0x00] ++ List.replicate 0 0xFF := by
    rw [streamBytes_eq, if_neg hne, hzero, hrun]
  refine ⟨hphase, m, hpad, hvalue, ?_, ?_⟩
  · rw [hpart, ← Nat.add_zero (256 * _), ← hbytes, hstream]
    rfl
  · rw [streamBytes_length m, if_neg hheld, closeStream_pos]
    change v.pos + 1 = _
    omega

/-- The registers that INIT gives the coder meet its invariants (45_frame_control.md R165). -/
theorem coderInv_of_empty {s : State} (hrange : s.range = 254) (hvalue : s.value = 0) (hbits : s.nbBits.toInt = -8)
    (hrun : s.run = 0) (hpos : s.pos = 0) (hheld : s.held = 0xFF) : s.CoderInv :=
  namedValues_coderInv.of_same ⟨hrange, hvalue, BitVec.eq_of_toInt_eq hbits, hrun, hpos, hheld⟩ fun _ => nofun

/-- An empty stream is the interval that coding starts from. -/
theorem interval_of_empty {s : State} (hrange : s.range = 254) (hvalue : s.value = 0) (hbits : s.nbBits.toInt = -8)
    (hrun : s.run = 0) (hpos : s.pos = 0) (hheld : s.held = 0xFF) : s.interval = Interval.start := by
  have hstream : s.streamBytes = [] := by rw [State.streamBytes, hpos, hheld, hrun]; rfl
  rw [State.interval, State.lowEnd, State.bitCount, hstream, hvalue, hrange, hbits]
  rfl

/-- A low end whose last `p` bits are padding, cut into `n` bytes above an empty `value`, as a binary fraction. -/
theorem fraction_eq {bytes low shifts p n count : Nat} (hlow : bytes * 2 ^ (count + 8) = low * 2 ^ p)
    (hshifts : 8 * n + count = shifts + p) : 256 * bytes * 2 ^ (shifts + 8) = low * 256 ^ (n + 1) := by
  refine Nat.eq_of_mul_eq_mul_right (Nat.two_pow_pos p) ?_
  have h256 : 256 ^ (n + 1) = 2 ^ (8 * n + 8) := by rw [← Nat.mul_succ, Nat.pow_mul]
  calc 256 * bytes * 2 ^ (shifts + 8) * 2 ^ p = bytes * 2 ^ 8 * 2 ^ (shifts + p + 8) := by ring
    _ = bytes * 2 ^ (count + 8) * 2 ^ (8 * n + 8) := by rw [← hshifts]; ring
    _ = low * 256 ^ (n + 1) * 2 ^ p := by rw [hlow, h256]; ring

/-- FINISH writes the low end out: its partition is the fraction that the interval before it has. -/
theorem partition_fraction {s u : State} (hi : s.CoderInv) (h : exec .finish s = .next u) :
    bytesValue u.partitionBytes * 2 ^ (s.interval.shifts + 8) = s.interval.low * 256 ^ u.pos := by
  obtain ⟨hphase, m, hpad, hvalue, hbytes, hpos⟩ := exec_finish_partition hi h
  obtain ⟨p, r, hlow, hshifts, -⟩ := padding_interval hi
  rw [← hpad.interval_eq hi (by simp [hphase])] at hlow hshifts
  have hlow' : bytesValue m.streamBytes * 2 ^ (m.bitCount + 8) = s.interval.low * 2 ^ p := by
    refine Eq.trans ?_ hlow
    rw [State.interval, State.lowEnd, hvalue]
    rfl
  rw [hbytes, hpos]
  exact fraction_eq hlow' hshifts

/-- Settles O53: the interval before FINISH is that of the coder without a packer. -/
theorem partitionIsTheLowEnd : Obligations.PartitionIsTheLowEnd := by
  rintro s t u bits e hpass hrange hvalue hbits hrun hpos hheld htokens hemit hfinish rfl
  have hi := coderInv_of_empty hrange hvalue hbits hrun hpos hheld
  obtain ⟨hphase, m, hm, rfl⟩ := exec_emit_eq_next hi hpass htokens hemit
  have hopen := open_of_admits hphase
  have him : (closeEmit m).CoderInv :=
    (hm.coderInv hi hopen).of_same (closeEmit_same m nofun nofun nofun) fun _ => hm.phase ▸ hopen
  have hinterval : (closeEmit m).interval = Interval.start.codeAll bits := by
    rw [← interval_of_empty hrange hvalue hbits hrun hpos hheld, ← hm.interval_eq hi hopen]
    rfl
  rw [← hinterval]
  exact partition_fraction him hfinish

end Sys2Proof.Machine

/-! ### Decoding the partition (44_range_coder.md R136 to R139, R159) -/

namespace Sys2Proof.Machine

/-- The interval of a range alone, from 0. -/
def Interval.ofRange (range : Nat) : Interval := { low := 0, range := range, shifts := 0 }

/-- Where coding starts only moves and scales the result. -/
theorem Interval.codeAll_eq_ofRange (e : Interval) (bs : List (Bool × Prob)) :
    (e.codeAll bs).low
        = e.low * 2 ^ ((Interval.ofRange e.range).codeAll bs).shifts + ((Interval.ofRange e.range).codeAll bs).low ∧
      (e.codeAll bs).shifts = e.shifts + ((Interval.ofRange e.range).codeAll bs).shifts := by
  induction bs generalizing e with
  | nil => exact ⟨(Nat.mul_one _).symm, rfl⟩
  | cons b bs ih =>
    obtain ⟨bit, prob⟩ := b
    have hrange : ((Interval.ofRange e.range).code bit prob).range = (e.code bit prob).range := rfl
    obtain ⟨hlow, hshifts⟩ := ih (e.code bit prob)
    obtain ⟨hlow', hshifts'⟩ := ih ((Interval.ofRange e.range).code bit prob)
    rw [hrange] at hlow' hshifts'
    rw [Interval.codeAll_cons, Interval.codeAll_cons, hlow, hshifts, hlow', hshifts']
    simp only [Interval.code_eq, Interval.ofRange, Nat.zero_add]
    refine ⟨?_, Nat.add_assoc _ _ _⟩
    rw [Nat.pow_add]
    ring

/-- The shift that normalises a range after a bit. -/
abbrev shiftOf (bit : Bool) (range : Nat) (prob : Prob) : Nat := clz8 (newRange bit range (splitOf range prob.toNat))

/-- The part of a range that a bit takes. -/
theorem Interval.code_ofRange {range : Nat} (bit : Bool) (prob : Prob) (h : 127 ≤ range) (h' : range ≤ 254) :
    ((Interval.ofRange range).code bit prob).low
        = (if bit then splitOf range prob.toNat else 0) * 2 ^ shiftOf bit range prob ∧
      ((Interval.ofRange range).code bit prob).range + 1
        = newRange bit range (splitOf range prob.toNat) * 2 ^ shiftOf bit range prob ∧
      ((Interval.ofRange range).code bit prob).shifts = shiftOf bit range prob := by
  obtain ⟨-, -, -, -, hbit⟩ := splitFacts range prob h h'
  obtain ⟨-, -, -, hlow, -⟩ := hbit bit _ rfl
  simp only [Interval.code_eq, Interval.ofRange, Nat.zero_add]
  exact ⟨trivial, Nat.sub_add_cancel (by omega), trivial⟩

/-- The two parts lie side by side in the range. -/
theorem newRange_upper (bit : Bool) {range : Nat} (prob : Prob) (h : 127 ≤ range) (h' : range ≤ 254) :
    (if bit then splitOf range prob.toNat else 0) + newRange bit range (splitOf range prob.toNat) ≤ range + 1 := by
  obtain ⟨-, hsplit, -⟩ := splitFacts range prob h h'
  cases bit with
  | true => exact (Nat.add_sub_cancel' (Nat.le_succ_of_le hsplit)).le
  | false => exact (Nat.zero_add _).le.trans (Nat.le_succ_of_le hsplit)

/-- What is coded in a range stays below its upper end. -/
theorem Interval.codeAll_ofRange_lt {range : Nat} (bs : List (Bool × Prob)) (h : 127 ≤ range) (h' : range ≤ 254) :
    ((Interval.ofRange range).codeAll bs).low < (range + 1) * 2 ^ ((Interval.ofRange range).codeAll bs).shifts := by
  induction bs generalizing range with
  | nil => exact Nat.mul_pos (Nat.succ_pos range) Nat.one_pos
  | cons b bs ih =>
    obtain ⟨bit, prob⟩ := b
    obtain ⟨hlow, hhigh, -⟩ := Interval.code_bounds (e := Interval.ofRange range) bit prob h h'
    obtain ⟨hcut, hnext, hshift⟩ := Interval.code_ofRange bit prob h h'
    obtain ⟨hsum, hshifts⟩ := Interval.codeAll_eq_ofRange ((Interval.ofRange range).code bit prob) bs
    have hrest := ih hlow (by omega)
    rw [Interval.codeAll_cons, hsum, hshifts, hcut, hshift]
    rw [hnext] at hrest
    refine (Nat.add_lt_add_left hrest _).trans_le ?_
    rw [← Nat.add_mul, ← Nat.add_mul, Nat.pow_add, ← Nat.mul_assoc]
    exact Nat.mul_le_mul_right _ (Nat.mul_le_mul_right _ (newRange_upper bit prob h h'))

/-! A coded number `x / den` is `(c·2^k·2^j + rest) / 2^(k+j)`: `c` is what its first bit adds, shifted by `k`, and
`rest` what the bits after it add, shifted by `j` in all. -/

theorem offset_le {x c rest den k j : Nat} (h : x * 2 ^ (k + j) = (c * 2 ^ k * 2 ^ j + rest) * den) : c * den ≤ x := by
  refine Nat.le_of_mul_le_mul_right ?_ (Nat.two_pow_pos (k + j))
  calc c * den * 2 ^ (k + j) = c * 2 ^ k * 2 ^ j * den := by ring
    _ ≤ (c * 2 ^ k * 2 ^ j + rest) * den := Nat.mul_le_mul_right _ (Nat.le_add_right _ _)
    _ = x * 2 ^ (k + j) := h.symm

theorem rest_eq {x c rest den k j : Nat} (h : x * 2 ^ (k + j) = (c * 2 ^ k * 2 ^ j + rest) * den) :
    (x - c * den) * 2 ^ k * 2 ^ j = rest * den := by
  rw [Nat.mul_assoc, ← Nat.pow_add, Nat.sub_mul, h]
  refine Nat.sub_eq_of_eq_add ?_
  ring

theorem lt_of_rest_lt {x rest width den k j : Nat} (hden : 0 < den)
    (h : x * 2 ^ (k + j) = (0 * 2 ^ k * 2 ^ j + rest) * den) (hlt : rest < width * 2 ^ k * 2 ^ j) :
    x < width * den := by
  refine Nat.lt_of_mul_lt_mul_right (a := 2 ^ (k + j)) ?_
  calc x * 2 ^ (k + j) = rest * den := by rw [h]; ring
    _ < width * 2 ^ k * 2 ^ j * den := Nat.mul_lt_mul_of_pos_right hlt hden
    _ = width * den * 2 ^ (k + j) := by ring

/-- A decoder that takes the bit that was coded goes on in the range that coding it left. -/
theorem decodeBits_cons {bit : Bool} {prob : Prob} (ps : List Prob) {range den x : Nat}
    (h : decide (splitOf range prob.toNat * den ≤ x) = bit) :
    decodeBits (prob :: ps) range den x =
      bit :: decodeBits ps ((Interval.ofRange range).code bit prob).range den
        ((x - (if bit then splitOf range prob.toNat else 0) * den)
          * 2 ^ shiftOf bit range prob) := by
  subst h
  rw [ite_mul, Nat.zero_mul]
  rfl

/-- The decoder's comparison with the split finds the bit that was coded (44_range_coder.md R136). -/
theorem decide_split_eq {bit : Bool} {range split x den k j rest : Nat} (hden : 0 < den)
    (h : x * 2 ^ (k + j) = ((if bit then split else 0) * 2 ^ k * 2 ^ j + rest) * den)
    (hlt : rest < newRange bit range split * 2 ^ k * 2 ^ j) : decide (split * den ≤ x) = bit := by
  cases bit with
  | true => exact decide_eq_true (offset_le h)
  | false => exact decide_eq_false (Nat.not_le.mpr (lt_of_rest_lt hden h hlt))

/-- A number coded in a range decodes to its bits. -/
theorem decodeBits_eq {bs : List (Bool × Prob)} {range den x : Nat} (hlow : 127 ≤ range) (hhigh : range ≤ 254)
    (hden : 0 < den)
    (h : x * 2 ^ ((Interval.ofRange range).codeAll bs).shifts = ((Interval.ofRange range).codeAll bs).low * den) :
    decodeBits (bs.map fun q => q.2) range den x = bs.map fun q => q.1 := by
  induction bs generalizing range x with
  | nil => rfl
  | cons b bs ih =>
    obtain ⟨bit, prob⟩ := b
    obtain ⟨hlow', hhigh', -⟩ := Interval.code_bounds (e := Interval.ofRange range) bit prob hlow hhigh
    obtain ⟨hsum, hshifts⟩ := Interval.codeAll_eq_ofRange ((Interval.ofRange range).code bit prob) bs
    have hrest := Interval.codeAll_ofRange_lt bs hlow' (by omega)
    obtain ⟨hcut, hnext, hshift⟩ := Interval.code_ofRange bit prob hlow hhigh
    rw [hnext] at hrest
    rw [Interval.codeAll_cons, hsum, hshifts, hcut, hshift] at h
    rw [List.map_cons, List.map_cons, decodeBits_cons _ (decide_split_eq hden h hrest)]
    exact congrArg _ (ih hlow' (by omega) (rest_eq h))

/-- Settles O54: the partition is the fraction of the coded interval, and such a fraction decodes. -/
theorem partitionDecodesToTheTokens : Obligations.PartitionDecodesToTheTokens := by
  intro s t u bits hpass hrange hvalue hbits hrun hpos hheld htokens hemit hfinish
  have hfraction :=
    partitionIsTheLowEnd s t u bits _ hpass hrange hvalue hbits hrun hpos hheld htokens hemit hfinish rfl
  refine decodeBits_eq (by decide) (by decide) (Nat.pow_pos (by decide)) (Eq.trans ?_ hfraction)
  rw [Nat.pow_add, Nat.mul_comm 256, Nat.mul_assoc, Nat.mul_comm 256]
  rfl

end Sys2Proof.Machine

/-! ### A whole command at the head of the host's list (45_frame_control.md R168) -/

namespace Sys2Proof.Machine

/-- Words that decode as a whole are what the core takes from a list that begins with them: the first of them says how
many they are (30_encoding.md R73). -/
theorem fetchCommand_of_decode {words : List CmdWord} {i : Instr} (rest : List CmdWord)
    (h : decode (.command words) = .ok i) : fetchCommand (words ++ rest) = .command i rest := by
  cases words with
  | nil => cases h
  | cons w data =>
    obtain ⟨hlen, hdecode⟩ := ite_error_eq_ok h
    have hdata : commandLength w - 1 = data.length := by omega
    rw [List.cons_append, fetchCommand, if_neg (by rw [List.length_append]; omega), hdata, List.take_left,
      List.drop_left, hdecode]

/-- Settles O6: what `encode` writes is decoded and fetched as a whole. -/
theorem stepRunsTheCommand : Obligations.StepRunsTheCommand := by
  intro s i words rest hwf hpass hencode hcmds
  have hfetch : fetchCommand s.cmds = .command i rest := by
    rw [hcmds]
    exact fetchCommand_of_decode rest (hencode ▸ decodeEncodeAgree i hwf)
  simp only [step, hpass, stepCommand, hfetch]

end Sys2Proof.Machine

/-! ### Once its phase admits it, the coder refuses nothing (60_exceptions.md R176, R182) -/

namespace Sys2Proof.Machine

/-- The outcome is a next state or a fault. -/
def NotRefused (r : Result) : Prop := ∀ x, r ≠ .refused x

theorem notRefused_next (s : State) : NotRefused (.next s) := fun _ h => nomatch h

theorem notRefused_fault (x : Fault) : NotRefused (.fault x) := fun _ h => nomatch h

theorem notRefused_raiseFault (n : FaultName) (s : State) : NotRefused (raiseFault n s) := by
  cases n <;> exact notRefused_fault _

theorem notRefused_andThen {r : Result} {f : State → Result} (hr : NotRefused r)
    (hf : ∀ s, r = .next s → NotRefused (f s)) : NotRefused (andThen r f) := by
  cases r with
  | next s => exact hf s rfl
  | fault x => exact notRefused_fault x
  | refused x => exact absurd rfl (hr x)

theorem notRefused_endOnFault {r : Result} (h : NotRefused r) : NotRefused (endOnFault r) := by
  cases r with
  | next s => exact notRefused_next s
  | fault x => exact notRefused_fault _
  | refused x => exact h

theorem notRefused_ite {c : Prop} [Decidable c] {r q : Result} (hr : NotRefused r) (hq : NotRefused q) :
    NotRefused (if c then r else q) := by
  split
  · exact hr
  · exact hq

theorem writeByte_notRefused (b : Byte) (s : State) : NotRefused (writeByte b s) :=
  notRefused_ite (notRefused_raiseFault _ s) (notRefused_next _)

theorem writeBytes_notRefused (n : Nat) (b : Byte) (s : State) : NotRefused (writeBytes n b s) := by
  induction n generalizing s with
  | zero => exact notRefused_next s
  | succ n ih => exact notRefused_andThen (writeByte_notRefused b s) fun u _ => ih u

theorem flushPending_notRefused (s : State) : NotRefused (flushPending s) :=
  notRefused_andThen (notRefused_ite (notRefused_next s) (writeByte_notRefused _ s))
    fun u _ => writeBytes_notRefused _ _ u

theorem resolveCarry_notRefused (s : State) : NotRefused (resolveCarry s) :=
  notRefused_ite (notRefused_raiseFault _ s)
    (notRefused_andThen (writeByte_notRefused _ s) fun u _ => writeBytes_notRefused _ _ u)

theorem pack_notRefused (bits : BitVec 24) (s : State) : NotRefused (pack bits s) :=
  notRefused_ite (notRefused_next _)
    (notRefused_andThen (notRefused_ite (resolveCarry_notRefused s) (flushPending_notRefused s))
      fun _ _ => notRefused_next _)

theorem putBit_notRefused (bit : Bool) (prob : Prob) (s : State) : NotRefused (putBit bit prob s) :=
  notRefused_ite (pack_notRefused _ _) (notRefused_next _)

theorem padBits_notRefused (n : Nat) (s : State) : NotRefused (padBits n s) := by
  induction n generalizing s with
  | zero => exact notRefused_next s
  | succ n ih => exact notRefused_andThen (putBit_notRefused _ _ s) fun u _ => ih u

/-- A bit has a traversal to be coded or costed in. -/
theorem runBit_notRefused {s : State} {p : Pass} (hpass : s.pass = some p) (bit : Bool) (prob : Prob) :
    NotRefused (runBit bit prob s) := by
  cases p with
  | emit todo => rw [runBit_emit hpass]; exact notRefused_endOnFault (putBit_notRefused bit prob s)
  | estimate todo acc => rw [runBit_estimate hpass]; exact notRefused_next _

theorem runToken_notRefused {s : State} {p : Pass} (hpass : s.pass = some p) (w : TokWord) :
    NotRefused (runToken w s) := by
  rcases runToken_eq_fault_or w s with ⟨bit, slot, -, e⟩ | ⟨bit, prob, -, e⟩ | e <;> rw [e]
  · unfold execTokDyn
    split
    · exact notRefused_fault _
    · exact runBit_notRefused hpass bit _
  · exact runBit_notRefused hpass bit prob
  · exact notRefused_fault _

/-- The traversal stays open from token word to token word. -/
theorem runTokens_notRefused {s : State} {p : Pass} (hpass : s.pass = some p) (ws : List TokWord) :
    NotRefused (runTokens ws s) := by
  induction ws generalizing s p with
  | nil => exact notRefused_next _
  | cons w ws ih =>
    have hadv : (s.advance ws).pass = some (p.withTodo ws) := by rw [advance_of_pass hpass]
    refine notRefused_andThen (runToken_notRefused hadv w) fun u hu => ?_
    obtain ⟨-, p', hp', -⟩ := runToken_effect hadv hu
    exact ih hp'

theorem traverse_notRefused (kind : List TokWord → Pass) (s : State) : NotRefused (traverse kind s) :=
  runTokens_notRefused rfl _

/-- The effects of FINISH after its phase check (44_range_coder.md R153). -/
theorem finishEffects_notRefused (n : Nat) (s : State) :
    NotRefused (andThen (padBits n s) fun s1 => andThen (forceExtract s1) fun s2 => andThen (flushPending s2) fun s3 =>
      .next (closeStream s3)) :=
  notRefused_andThen (padBits_notRefused n s) fun _ _ =>
    notRefused_andThen (pack_notRefused _ _) fun s2 _ =>
      notRefused_andThen (flushPending_notRefused s2) fun _ _ => notRefused_next _

end Sys2Proof.Machine

/-! ### The admission table (45_frame_control.md R167) -/

namespace Sys2Proof.Machine

/-- The outcome `r` of an instruction in `s` is as the instruction's row of the admission table says: a phase with a
dash refuses it, and a phase marked ok does not. -/
def FollowsAdmission (i : Instr) (s : State) (r : Result) : Prop :=
  (s.phase ∉ admittingPhases i → r = refusePhase s)
    ∧ (s.phase ∈ admittingPhases i → ∀ left, r ≠ .refused (.phaseViolation left))

/-- A phase check follows the table where it asks what the table's row says. -/
theorem followsAdmission_ite {i : Instr} {s : State} {c : Prop} [Decidable c] {r : Result}
    (hc : s.phase ∈ admittingPhases i ↔ c) (hr : ∀ left, r ≠ .refused (.phaseViolation left)) :
    FollowsAdmission i s (if c then r else refusePhase s) := by
  refine ⟨fun hout => if_neg (mt hc.mpr hout), fun hin => ?_⟩
  rw [if_pos (hc.mp hin)]
  exact hr

theorem NotRefused.not_phaseViolation {r : Result} (h : NotRefused r) (left : State) :
    r ≠ .refused (.phaseViolation left) := h _

theorem mem_admittingPhases_init (psize : BitVec 24) (p : Phase) : p ∈ admittingPhases (.init psize) := by
  cases p <;> simp [admittingPhases]

theorem mem_admittingPhases_clear (p : Phase) : p ∈ admittingPhases .clear ↔ p ≠ .uninit := by
  cases p <;> decide

theorem exec_clear (s : State) :
    exec .clear s = if s.phase ≠ .uninit then .next (State.clearTbError (releasePages s)) else refusePhase s :=
  (ite_not ..).symm

/-- The check of RECBLK that follows the phase check refuses under another name (60_exceptions.md R183). -/
theorem recblkBody_not_phaseViolation {c : Prop} [Decidable c] (ds : List Decision) (s left : State) :
    (if c then runDecisions ds s else refuseBlock s) ≠ .refused (.phaseViolation left) := by
  split
  · exact runDecisions_ne_refused ds s _
  · exact fun h => nomatch h

/-- Every well-formed command follows the table, command by command. -/
theorem exec_followsAdmission {i : Instr} (s : State) (hcmd : isCommand i = true) (hwf : i.wellFormed = true) :
    FollowsAdmission i s (exec i s) := by
  cases i with
  | init psize => exact ⟨fun hout => absurd (mem_admittingPhases_init psize _) hout, fun _ => (notRefused_next _).not_phaseViolation⟩
  | recblk ctx ctype first last co =>
    exact followsAdmission_ite List.mem_singleton fun left => recblkBody_not_phaseViolation _ s left
  | appd bit slot =>
    rw [exec_appd_of_slot_lt (of_decide_eq_true hwf)]
    exact followsAdmission_ite List.mem_singleton (notRefused_next _).not_phaseViolation
  | appc bit prob => exact followsAdmission_ite List.mem_singleton (notRefused_next _).not_phaseViolation
  | tally bit slot =>
    rw [exec_tally_of_slot (i := ⟨slot.toNat, of_decide_eq_true hwf⟩) rfl]
    exact followsAdmission_ite List.mem_singleton fun left => record_ne_refused _ bit s _
  | finalize => exact followsAdmission_ite List.mem_singleton (notRefused_next _).not_phaseViolation
  | estimate => exact followsAdmission_ite List.mem_pair (traverse_notRefused _ s).not_phaseViolation
  | emit => exact followsAdmission_ite List.mem_pair (traverse_notRefused _ s).not_phaseViolation
  | finish => exact followsAdmission_ite List.mem_singleton (finishEffects_notRefused _ s).not_phaseViolation
  | clear =>
    rw [exec_clear]
    exact followsAdmission_ite (mem_admittingPhases_clear _) (notRefused_next _).not_phaseViolation
  | tokDyn bit slot => cases hcmd
  | tokConst bit prob => cases hcmd

/-- Settles O12: each command's phase check is its row of the table, and nothing behind the check refuses for the
phase. -/
theorem admissionTable : Obligations.AdmissionTable := by
  intro i s hcmd hwf
  exact exec_followsAdmission s hcmd hwf

end Sys2Proof.Machine

/-! ### The phase register (45_frame_control.md R166) -/

namespace Sys2Proof.Machine

/-- A slot field that is no slot lets no instruction complete. -/
theorem wellFormed_of_exec_eq_next {i : Instr} {s t : State} (h : exec i s = .next t) : i.wellFormed = true := by
  cases i with
  | appd bit slot =>
    refine decide_eq_true (Nat.not_le.mp fun hhigh => ?_)
    exact refuseIllegal_ne_next s t ((exec_appd_of_slot_high hhigh).symm.trans h)
  | tally bit slot =>
    refine decide_eq_true (Nat.not_le.mp fun hhigh => ?_)
    exact refuseIllegal_ne_next s t ((exec_tally_of_slot_high hhigh).symm.trans h)
  | tokDyn bit slot =>
    refine decide_eq_true (Nat.not_le.mp fun hhigh => ?_)
    obtain ⟨hstop, -⟩ := tokenWordStops s bit slot 0
    cases (hstop hhigh).symm.trans h
  | init | recblk | appc | finalize | estimate | emit | finish | clear | tokConst => rfl

/-- A command that completes ran in a phase that admits it. -/
theorem phase_mem_of_exec_eq_next {i : Instr} {s t : State} (hcmd : isCommand i = true) (h : exec i s = .next t) :
    s.phase ∈ admittingPhases i := by
  by_contra hout
  have hrefused := (exec_followsAdmission s hcmd (wellFormed_of_exec_eq_next h)).1 hout
  exact refusePhase_ne_next s t (hrefused.symm.trans h)

/-- A traversal that completes is closed as the kind it was opened. -/
theorem runTokens_closes {ws : List TokWord} {s t : State} {p : Pass} (hpass : s.pass = some p)
    (h : runTokens ws s = .next t) : ∃ u p', u.pass = some p' ∧ p'.command = p.command ∧ t = closePass u := by
  induction ws generalizing s p with
  | nil => cases h; exact ⟨s, p, hpass, rfl, rfl⟩
  | cons w ws ih =>
    obtain ⟨u, hu, ht⟩ := andThen_eq_next.mp h
    obtain ⟨-, p', hp', hkind⟩ := runToken_effect (by rw [advance_of_pass hpass]) hu
    obtain ⟨v, q, hq, hkind', rfl⟩ := ih hp' ht
    exact ⟨v, q, hq, by rw [hkind', hkind, Pass.command_withTodo], rfl⟩

theorem closePass_phase_of_emit {s : State} {p : Pass} (hpass : s.pass = some p) (hp : p.command = .emit) :
    (closePass s).phase = .emitted := by
  cases p with
  | emit todo => simp only [closePass, hpass, closeEmit_phase]
  | estimate todo acc => cases hp

/-- EMIT ends by closing its traversal, which moves the phase (44_range_coder.md R149). -/
theorem exec_emit_phase {s t : State} (h : exec .emit s = .next t) : t.phase = .emitted := by
  obtain ⟨-, h⟩ := ite_refuse_eq_next (refusePhase_ne_next s t) h
  obtain ⟨u, p, hp, hkind, rfl⟩ := runTokens_closes rfl h
  exact closePass_phase_of_emit hp hkind

theorem exec_finalize_phase {s t : State} (h : exec .finalize s = .next t) : t.phase = .finalized := by
  obtain ⟨-, h⟩ := ite_refuse_eq_next (refusePhase_ne_next s t) ((execFinalize_eq s).symm.trans h)
  cases h
  exact finalizeTable_phase s

theorem exec_finish_phase {s t : State} (h : exec .finish s = .next t) : t.phase = .done := by
  obtain ⟨-, h⟩ := ite_refuse_eq_next (refusePhase_ne_next s t) h
  obtain ⟨s1, -, h⟩ := andThen_eq_next.mp h
  obtain ⟨s2, -, h⟩ := andThen_eq_next.mp h
  obtain ⟨s3, -, h⟩ := andThen_eq_next.mp h
  cases h
  rfl

/-- The phase that a completed instruction leaves: four commands move it, and no other instruction writes it
(10_state.md R32). -/
theorem phase_of_exec_eq_next {i : Instr} {s t : State} (h : exec i s = .next t) : t.phase = phaseAfter i s.phase := by
  have hsame (hwrites : writes .phase i = false) : t.phase = s.phase := onlyTheWritersWrite .phase i s t h hwrites
  cases i with
  | init psize => cases h; rfl
  | finalize => exact exec_finalize_phase h
  | emit => exact exec_emit_phase h
  | finish => exact exec_finish_phase h
  | recblk | appd | appc | tally | estimate | clear | tokDyn | tokConst => exact hsame rfl

/-- Settles O13: the phase a command leaves is known from its writers, and the phases it ran in from the admission
table. -/
theorem phaseTransitions : Obligations.PhaseTransitions := by
  refine ⟨?_, fun i s t h => ⟨phase_of_exec_eq_next h, fun hcmd => phase_mem_of_exec_eq_next hcmd h⟩⟩
  rintro s ⟨any, rfl⟩
  rfl

end Sys2Proof.Machine

/-! ### A refusal changes nothing (60_exceptions.md R182) -/

namespace Sys2Proof.Machine

/-- The outcome, where it is one of the spec's refusals, carries `s` with the mark set. -/
def RefusedUnchanged (s : State) (r : Result) : Prop :=
  ∀ left, r = .refused (.illegalCommand left) ∨ r = .refused (.phaseViolation left)
    ∨ r = .refused (.malformedBlock left) → left = s.markRefused

theorem NotRefused.refusedUnchanged {r : Result} (h : NotRefused r) (s : State) : RefusedUnchanged s r := by
  rintro left (e | e | e) <;> exact absurd e (h _)

theorem refusePhase_refusedUnchanged (s : State) : RefusedUnchanged s (refusePhase s) := by
  rintro left (e | e | e) <;> cases e
  rfl

theorem refuseIllegal_refusedUnchanged (s : State) : RefusedUnchanged s (refuseIllegal s) := by
  rintro left (e | e | e) <;> cases e
  rfl

theorem refuseBlock_refusedUnchanged (s : State) : RefusedUnchanged s (refuseBlock s) := by
  rintro left (e | e | e) <;> cases e
  rfl

theorem refusedUnchanged_ite {s : State} {c : Prop} [Decidable c] {r q : Result} (hr : RefusedUnchanged s r)
    (hq : RefusedUnchanged s q) : RefusedUnchanged s (if c then r else q) := by
  split
  · exact hr
  · exact hq

/-- A command behind its phase check refuses nothing else. -/
theorem phaseCheck_refusedUnchanged {s : State} {c : Prop} [Decidable c] {r : Result} (hr : NotRefused r) :
    RefusedUnchanged s (if c then r else refusePhase s) :=
  refusedUnchanged_ite (hr.refusedUnchanged s) (refusePhase_refusedUnchanged s)

/-- Every command, command by command: the refusals come from its checks, before anything is written. -/
theorem exec_refusedUnchanged {i : Instr} (s : State) (hcmd : isCommand i = true) : RefusedUnchanged s (exec i s) := by
  cases i with
  | init psize => exact (notRefused_next _).refusedUnchanged s
  | recblk ctx ctype first last co =>
    have hbody : NotRefused (runDecisions (blockDecisions ctx ctype first last co) s) := runDecisions_ne_refused _ s
    exact refusedUnchanged_ite
      (refusedUnchanged_ite (hbody.refusedUnchanged s) (refuseBlock_refusedUnchanged s))
      (refusePhase_refusedUnchanged s)
  | appd bit slot =>
    simp only [exec, execAppd]
    split
    · exact refuseIllegal_refusedUnchanged s
    · exact phaseCheck_refusedUnchanged (notRefused_next _)
  | appc bit prob => exact phaseCheck_refusedUnchanged (notRefused_next _)
  | tally bit slot =>
    simp only [exec, execTally]
    split
    · exact refuseIllegal_refusedUnchanged s
    · exact phaseCheck_refusedUnchanged (record_ne_refused _ bit s)
  | finalize => exact phaseCheck_refusedUnchanged (notRefused_next _)
  | estimate => exact phaseCheck_refusedUnchanged (traverse_notRefused _ s)
  | emit => exact phaseCheck_refusedUnchanged (traverse_notRefused _ s)
  | finish => exact phaseCheck_refusedUnchanged (finishEffects_notRefused _ s)
  | clear =>
    rw [exec_clear]
    exact phaseCheck_refusedUnchanged (notRefused_next _)
  | tokDyn bit slot => cases hcmd
  | tokConst bit prob => cases hcmd

end Sys2Proof.Machine

/-! ### Where an instruction stops with a fault (60_exceptions.md R176, R181)

The inversion of `exec` for faults: what the instruction had written when the fault was raised, and which faults it can
raise. -/

namespace Sys2Proof.Machine

/-- The fault carries its own name in the mark; the model's own stop has no name (log 10). -/
def Fault.Marked : Fault → Prop
  | .outOverflow s => s.fault = some .outOverflow
  | .tallyCountOverflow s => s.fault = some .tallyCountOverflow
  | .carryNoHeld s => s.fault = some .carryNoHeld
  | .reservedToken _ => True

/-- A raised fault carries the state it was raised in, with its own name in the mark. -/
theorem raiseFault_eq_fault {n : FaultName} {s : State} {x : Fault} (h : raiseFault n s = .fault x) :
    x.left = { s with fault := some n } ∧ x.Marked := by
  cases n <;> cases h <;> exact ⟨rfl, rfl⟩

/-- Ending the traversal does not meet raising the fault. -/
theorem endOnFault_raiseFault (n : FaultName) (s : State) :
    endOnFault (raiseFault n s) = raiseFault n s.endTraversal := by
  cases n <;> rfl

/-- Where `r` stops, it raises a fault of the coder in a state that `F` relates to `s`. -/
def StopsAfter (F : State → State → Prop) (s : State) (r : Result) : Prop :=
  ∀ x, r = .fault x → ∃ u n, F s u ∧ n ≠ .tallyCountOverflow ∧ raiseFault n u = .fault x

section

variable {F : State → State → Prop} {s : State}

theorem stopsAfter_next (t : State) : StopsAfter F s (.next t) := fun _ h => nomatch h

theorem stopsAfter_raiseFault {n : FaultName} (hs : F s s) (hn : n ≠ .tallyCountOverflow) :
    StopsAfter F s (raiseFault n s) := fun _ h => ⟨s, n, hs, hn, h⟩

theorem stopsAfter_ite {c : Prop} [Decidable c] {r q : Result} (hr : StopsAfter F s r) (hq : StopsAfter F s q) :
    StopsAfter F s (if c then r else q) := by
  split
  · exact hr
  · exact hq

/-- A stop after some writing, seen from before it. -/
theorem StopsAfter.of_frame {G : State → State → Prop} {t : State} {r : Result} (h : StopsAfter G t r)
    (hframe : ∀ u, G t u → F s u) : StopsAfter F s r := by
  intro x hx
  obtain ⟨u, n, hu, hn, hraise⟩ := h x hx
  exact ⟨u, n, hframe u hu, hn, hraise⟩

theorem stopsAfter_andThen {r : Result} {f : State → Result} (hr : StopsAfter F s r)
    (hf : ∀ t, r = .next t → StopsAfter F s (f t)) : StopsAfter F s (andThen r f) := by
  cases r with
  | next t => exact hf t rfl
  | fault x => exact hr
  | refused x => exact fun _ h => nomatch h

end

/-! ### The packer stops with its registers as they were -/

/-- `t` comes from `s` by writing bytes. -/
def WriteFrame (s t : State) : Prop := CoderFrame s t ∧ t = { s with pos := t.pos, out := t.out }

theorem WriteFrame.refl (s : State) : WriteFrame s s := ⟨.refl s, rfl⟩

theorem WriteFrame.trans {s t u : State} (h : WriteFrame s t) (h' : WriteFrame t u) : WriteFrame s u := by
  obtain ⟨hframe, e⟩ := h
  obtain ⟨hframe', e'⟩ := h'
  refine ⟨hframe.trans hframe', ?_⟩
  rw [e', e]

theorem writeByte_writeFrame {b : Byte} {s t : State} (h : writeByte b s = .next t) : WriteFrame s t := by
  refine ⟨writeByte_frame h, ?_⟩
  obtain ⟨-, rfl⟩ := writeByte_eq_next.mp h
  rfl

theorem writeByte_stops (b : Byte) (s : State) : StopsAfter WriteFrame s (writeByte b s) :=
  stopsAfter_ite (stopsAfter_raiseFault (.refl s) nofun) (stopsAfter_next _)

theorem writeBytes_stops (n : Nat) (b : Byte) (s : State) : StopsAfter WriteFrame s (writeBytes n b s) := by
  induction n generalizing s with
  | zero => exact stopsAfter_next s
  | succ n ih =>
    exact stopsAfter_andThen (writeByte_stops b s) fun t ht => (ih t).of_frame fun _ => (writeByte_writeFrame ht).trans

/-- A byte, and then copies of another. -/
theorem writeByte_writeBytes_stops (b c : Byte) (n : Nat) (s : State) :
    StopsAfter WriteFrame s (andThen (writeByte b s) (writeBytes n c)) :=
  stopsAfter_andThen (writeByte_stops b s) fun t ht =>
    (writeBytes_stops n c t).of_frame fun _ => (writeByte_writeFrame ht).trans

theorem resolveCarry_stops (s : State) : StopsAfter WriteFrame s (resolveCarry s) :=
  stopsAfter_ite (stopsAfter_raiseFault (.refl s) nofun) (writeByte_writeBytes_stops _ _ _ s)

theorem flushPending_stops (s : State) : StopsAfter WriteFrame s (flushPending s) := by
  unfold flushPending flushHeld
  split
  · exact writeBytes_stops _ _ s
  · exact writeByte_writeBytes_stops _ _ _ s

theorem pack_stops (bits : BitVec 24) (s : State) : StopsAfter WriteFrame s (pack bits s) :=
  stopsAfter_ite (stopsAfter_next _)
    (stopsAfter_andThen (stopsAfter_ite (resolveCarry_stops s) (flushPending_stops s)) fun _ _ => stopsAfter_next _)

/-- A bit that stops has moved the registers, taken its byte group, and stopped within PACK. -/
theorem putBit_stops (bit : Bool) (prob : Prob) (s : State) :
    StopsAfter WriteFrame (afterExtract (codeBit bit prob s)) (putBit bit prob s) :=
  stopsAfter_ite (pack_stops _ (afterExtract (codeBit bit prob s))) (stopsAfter_next _)

/-! ### The coder stops with everything outside it as it was -/

theorem afterExtract_frame (s : State) : CoderFrame s (afterExtract s) := ⟨rfl, Nat.le_refl _, fun _ _ => rfl⟩

theorem codeBit_frame (bit : Bool) (prob : Prob) (s : State) : CoderFrame s (codeBit bit prob s) :=
  ⟨rfl, Nat.le_refl _, fun _ _ => rfl⟩

theorem putBit_stops_coder (bit : Bool) (prob : Prob) (s : State) : StopsAfter CoderFrame s (putBit bit prob s) :=
  (putBit_stops bit prob s).of_frame fun _ hu => (codeBit_frame bit prob s).trans ((afterExtract_frame _).trans hu.1)

theorem padBits_stops (n : Nat) (s : State) : StopsAfter CoderFrame s (padBits n s) := by
  induction n generalizing s with
  | zero => exact stopsAfter_next s
  | succ n ih =>
    exact stopsAfter_andThen (putBit_stops_coder _ _ s) fun t ht => (ih t).of_frame fun _ => (putBit_frame ht).trans

/-- The forced extraction of FINISH starts from `nb_bits` 0. -/
theorem forcedBits_frame (s : State) : CoderFrame s { s with nbBits := 0 } := ⟨rfl, Nat.le_refl _, fun _ _ => rfl⟩

theorem forceExtract_frame {s t : State} (h : forceExtract s = .next t) : CoderFrame s t :=
  (forcedBits_frame s).trans (extract_frame h)

theorem forceExtract_stops (s : State) : StopsAfter CoderFrame s (forceExtract s) :=
  (pack_stops _ (afterExtract { s with nbBits := 0 })).of_frame fun _ hu =>
    (forcedBits_frame s).trans ((afterExtract_frame _).trans hu.1)

/-- FINISH after its phase check (44_range_coder.md R153). -/
theorem finishEffects_stops (n : Nat) (s : State) :
    StopsAfter CoderFrame s (andThen (padBits n s) fun s1 => andThen (forceExtract s1) fun s2 =>
      andThen (flushPending s2) fun s3 => .next (closeStream s3)) := by
  refine stopsAfter_andThen (padBits_stops n s) fun s1 h1 => ?_
  refine stopsAfter_andThen ((forceExtract_stops s1).of_frame fun _ => (padBits_frame h1).trans) fun s2 h2 => ?_
  refine stopsAfter_andThen ?_ fun _ _ => stopsAfter_next _
  exact (flushPending_stops s2).of_frame fun _ hu => (padBits_frame h1).trans ((forceExtract_frame h2).trans hu.1)

/-! ### A traversal stops at one of its words -/

/-- `t` differs from `s` at most as coding leaves it and in the traversal in progress. -/
def TraversalFrame (s t : State) : Prop :=
  t = { s with range := t.range, value := t.value, nbBits := t.nbBits, run := t.run, pos := t.pos,
               held := t.held, out := t.out, pass := t.pass }

namespace TraversalFrame

variable {s t u : State}

theorem refl (s : State) : TraversalFrame s s := rfl

theorem trans (h : TraversalFrame s t) (h' : TraversalFrame t u) : TraversalFrame s u := by
  unfold TraversalFrame at *
  rw [h', h]

theorem withPass (s : State) (p : Option Pass) : TraversalFrame s { s with pass := p } := rfl

theorem of_coder (h : CoderFrame s t) : TraversalFrame s t := by
  have hpass := h.pass
  unfold TraversalFrame
  rw [hpass]
  exact h.1

theorem refused (h : TraversalFrame s t) : t.refused = s.refused := by rw [h]

/-- Outside the coder, the output and the marks every piece of state is as it was. -/
theorem same {q : Piece} (h : TraversalFrame s t) (hcod : q ≠ .coder) (hout : q ≠ .output) : SamePiece q s t := by
  rw [h]
  cases q <;> simp_all [SamePiece, State.tokWord, State.tallyAt, State.pwAt]

end TraversalFrame

/-- A token word that completes codes its bit, or moves the sum of the costs. -/
theorem runToken_frame {w : TokWord} {s t : State} (h : runToken w s = .next t) : TraversalFrame s t := by
  obtain ⟨bit, prob, hb⟩ := runToken_eq_next h
  rcases runBit_eq_next hb with ⟨todo, -, hp⟩ | ⟨todo, acc, acc', -, rfl⟩
  · exact .of_coder (putBit_frame hp)
  · exact .withPass s _

/-- A traversal that stops, stops in one of its words, with those before it executed. -/
theorem runTokens_eq_fault {ts : List TokWord} {s : State} {p : Pass} {x : Fault} (hpass : s.pass = some p)
    (h : runTokens ts s = .fault x) :
    ∃ w ∈ ts, ∃ u q, TraversalFrame s u ∧ u.pass = some q ∧ q.command = p.command ∧ runToken w u = .fault x := by
  induction ts generalizing s p with
  | nil => cases h
  | cons w ts ih =>
    have hadv := advance_of_pass hpass ts
    have hpass' : (s.advance ts).pass = some (p.withTodo ts) := by rw [hadv]
    have hframe : TraversalFrame s (s.advance ts) := by rw [hadv]; exact .withPass s _
    rw [runTokens] at h
    cases hw : runToken w (s.advance ts) with
    | next t =>
      rw [hw, andThen_of_next] at h
      obtain ⟨-, p', hp', hkind⟩ := runToken_effect hpass' hw
      obtain ⟨w', hmem, u, q, hu, hq, hkind', hstop⟩ := ih hp' h
      exact ⟨w', .tail w hmem, u, q, hframe.trans ((runToken_frame hw).trans hu), hq,
        by rw [hkind', hkind, Pass.command_withTodo], hstop⟩
    | fault y =>
      rw [hw, andThen_of_fault] at h
      cases h
      exact ⟨w, .head ts, s.advance ts, _, hframe, hpass', Pass.command_withTodo ts p, hw⟩
    | refused y => rw [hw, andThen_of_refused] at h; cases h

/-- The frame of a stop inside a traversal: it is ended (log 3). -/
def ClosedFrame (s t : State) : Prop := TraversalFrame s t ∧ t.pass = none

theorem TraversalFrame.endTraversal {s t : State} (h : TraversalFrame s t) : ClosedFrame s t.endTraversal :=
  ⟨h.trans (.withPass t none), rfl⟩

/-- A stop under `endOnFault` raises the same fault with the traversal ended. -/
theorem endOnFault_stops {s : State} {r : Result} (h : StopsAfter CoderFrame s r) :
    StopsAfter ClosedFrame s (endOnFault r) := by
  intro x hx
  obtain ⟨y, rfl, rfl⟩ := endOnFault_eq_fault.mp hx
  obtain ⟨u, n, hu, hn, hraise⟩ := h y rfl
  refine ⟨u.endTraversal, n, (TraversalFrame.of_coder hu).endTraversal, hn, ?_⟩
  rw [← endOnFault_raiseFault, hraise, endOnFault_of_fault]

/-- A bit stops under EMIT alone, where it is coded. -/
theorem runBit_eq_fault {bit : Bool} {prob : Prob} {s : State} {x : Fault} (h : runBit bit prob s = .fault x) :
    ∃ todo, s.pass = some (.emit todo) ∧ endOnFault (putBit bit prob s) = .fault x := by
  unfold runBit at h
  split at h
  next todo hpass => exact ⟨todo, hpass, h⟩
  next => cases h
  next => cases h

theorem runBit_stops (bit : Bool) (prob : Prob) (s : State) : StopsAfter ClosedFrame s (runBit bit prob s) := by
  intro x hx
  obtain ⟨-, -, h⟩ := runBit_eq_fault hx
  exact endOnFault_stops (putBit_stops_coder bit prob s) x h

/-- A token word stops where its slot is no slot, or in the bit it codes. -/
theorem execTokDyn_eq_fault {bit : Bool} {slot : BitVec 14} {s : State} {x : Fault}
    (h : execTokDyn bit slot s = .fault x) :
    (1056 ≤ slot.toNat ∧ x = .reservedToken s.endTraversal) ∨ ∃ prob, runBit bit prob s = .fault x := by
  unfold execTokDyn at h
  split at h
  next hslot => cases h; exact .inl ⟨slotOfField_eq_none.mp hslot, rfl⟩
  next i _ => exact .inr ⟨_, h⟩

theorem runToken_eq_fault {w : TokWord} {s : State} {x : Fault} (h : runToken w s = .fault x) :
    (¬LegalToken w ∧ x = .reservedToken s.endTraversal) ∨ ∃ bit prob, runBit bit prob s = .fault x := by
  rcases decodeToken_cases w with ⟨bit, slot, hd⟩ | ⟨bit, prob, hd⟩ | hd
  · simp only [runToken, hd] at h
    rcases execTokDyn_eq_fault h with ⟨hslot, -⟩ | ⟨prob, hb⟩
    · have hwf := (encode_of_decodeToken hd).2
      exact absurd (of_decide_eq_true hwf) (Nat.not_lt.mpr hslot)
    · exact .inr ⟨bit, prob, hb⟩
  · simp only [runToken, hd] at h
    exact .inr ⟨bit, prob, h⟩
  · simp only [runToken, hd] at h
    cases h
    refine .inl ⟨fun ⟨i, hi⟩ => ?_, rfl⟩
    rw [hd] at hi
    cases hi

/-! ### A block stops at a tally -/

/-- The decisions of a block stop in RECORD alone, with token words appended and bits tallied. -/
theorem runDecisions_stops {ds : List Decision} {s : State} {x : Fault} (h : runDecisions ds s = .fault x) :
    ∃ ws tally, x = .tallyCountOverflow
      { appendAll ws s with tally := tally, fault := some .tallyCountOverflow } := by
  by_cases hover : ∃ n, s.OverflowsAt ds n
  · classical
    obtain ⟨left, hleft, hframe, -⟩ := runDecisions_eq_fault (Nat.find_spec hover) fun m => Nat.find_min hover
    cases hleft.symm.trans h
    exact ⟨_, left.tally, congrArg Fault.tallyCountOverflow hframe⟩
  · obtain ⟨t, ht, -⟩ := runDecisions_eq_next (not_exists.mp hover)
    cases ht.symm.trans h

theorem record_stops {j : Slot} {bit : Bool} {s : State} {x : Fault} (h : record j bit s = .fault x) :
    x = .tallyCountOverflow { s with fault := some .tallyCountOverflow } := by
  simp only [record] at h
  split at h <;> cases h
  rfl

/-- Appends write the token buffer and the allocation error only. -/
theorem appendAll_frame (ws : List TokWord) (s : State) :
    appendAll ws s = { s with
      tok := (appendAll ws s).tok
      npages := (appendAll ws s).npages
      left := (appendAll ws s).left
      tbError := (appendAll ws s).tbError } := by
  induction ws generalizing s with
  | nil => rfl
  | cons w ws ih =>
    have hcons : appendAll (w :: ws) s = appendAll ws (tbAppend w s) := rfl
    rw [hcons, ih, tbAppend_frame]

/-! ### The inversion of `exec` for faults -/

/-- Every way an instruction can stop with a fault (60_exceptions.md R176), and what it had written by then. -/
inductive Stop (s : State) : Instr → Fault → Prop
  /-- RECBLK in RECORD. -/
  | recblk {ctx ctype : BitVec 2} {first : BitVec 4} {last : BitVec 5} {co : Vector Coef 16} (ws : List TokWord)
      (tally : Vector TallyWord 1056) :
      Stop s (.recblk ctx ctype first last co)
        (.tallyCountOverflow { appendAll ws s with tally := tally, fault := some .tallyCountOverflow })
  /-- TALLY in RECORD. -/
  | tally {bit : Bool} {slot : BitVec 14} :
      Stop s (.tally bit slot) (.tallyCountOverflow { s with fault := some .tallyCountOverflow })
  /-- FINISH in the coder. -/
  | finish {u : State} {n : FaultName} {x : Fault} (hframe : CoderFrame s u) (hn : n ≠ .tallyCountOverflow)
      (hx : raiseFault n u = .fault x) : Stop s .finish x
  /-- EMIT, or a token word under it, in the coder. -/
  | coded {i : Instr} {u : State} {n : FaultName} {x : Fault} (hi : i = .emit ∨ isCommand i = false)
      (hframe : ClosedFrame s u) (hn : n ≠ .tallyCountOverflow) (hx : raiseFault n u = .fault x) : Stop s i x
  /-- A reserved token word, which a command meets only where the buffer holds it (log 10). -/
  | reserved {i : Instr} {u : State} (hword : isCommand i = true → ∃ w ∈ s.tokseq, ¬LegalToken w)
      (hframe : ClosedFrame s u) : Stop s i (.reservedToken u)

/-- A check before an effect lets it stop only where the check passed. -/
theorem ite_eq_fault {c : Prop} [Decidable c] {r q : Result} {x : Fault} (hq : ∀ y, q ≠ .fault y)
    (h : (if c then r else q) = .fault x) : c ∧ r = .fault x := by
  by_cases hc : c
  · exact ⟨hc, by rwa [if_pos hc] at h⟩
  · rw [if_neg hc] at h; exact absurd h (hq x)

theorem refusePhase_ne_fault (s : State) (x : Fault) : refusePhase s ≠ .fault x := nofun

theorem refuseBlock_ne_fault (s : State) (x : Fault) : refuseBlock s ≠ .fault x := nofun

theorem traverse_stop {kind : List TokWord → Pass} {s : State} {x : Fault} (h : traverse kind s = .fault x) :
    Stop s (kind s.tokseq).command x := by
  obtain ⟨w, hw, u, q, hframe, hq, hkind, hstop⟩ := runTokens_eq_fault rfl h
  have hframe' : TraversalFrame s u := (TraversalFrame.withPass s _).trans hframe
  rcases runToken_eq_fault hstop with ⟨hword, rfl⟩ | ⟨bit, prob, hb⟩
  · exact .reserved (fun _ => ⟨w, hw, hword⟩) hframe'.endTraversal
  · obtain ⟨todo, hpass, -⟩ := runBit_eq_fault hb
    obtain rfl : q = .emit todo := Option.some.inj (hq.symm.trans hpass)
    obtain ⟨v, n, ⟨hv, hclosed⟩, hn, hraise⟩ := runBit_stops bit prob u x hb
    rw [← hkind]
    exact .coded (.inl rfl) ⟨hframe'.trans hv, hclosed⟩ hn hraise

theorem runBit_stop {i : Instr} {bit : Bool} {prob : Prob} {s : State} {x : Fault} (hi : isCommand i = false)
    (h : runBit bit prob s = .fault x) : Stop s i x := by
  obtain ⟨u, n, hu, hn, hraise⟩ := runBit_stops bit prob s x h
  exact .coded (.inr hi) hu hn hraise

/-- Every instruction, command by command. -/
theorem exec_stop {i : Instr} {s : State} {x : Fault} (h : exec i s = .fault x) : Stop s i x := by
  cases i with
  | recblk ctx ctype first last co =>
    obtain ⟨-, h⟩ := ite_eq_fault (refusePhase_ne_fault s) h
    obtain ⟨-, h⟩ := ite_eq_fault (refuseBlock_ne_fault s) h
    obtain ⟨ws, tally, rfl⟩ := runDecisions_stops h
    exact .recblk ws tally
  | tally bit slot =>
    simp only [exec, execTally] at h
    split at h
    next => cases h
    next j _ =>
      obtain ⟨-, h⟩ := ite_eq_fault (refusePhase_ne_fault s) h
      cases record_stops h
      exact .tally
  | estimate => exact traverse_stop (ite_eq_fault (refusePhase_ne_fault s) h).2
  | emit => exact traverse_stop (ite_eq_fault (refusePhase_ne_fault s) h).2
  | finish =>
    obtain ⟨u, n, hu, hn, hraise⟩ := finishEffects_stops _ s x (ite_eq_fault (refusePhase_ne_fault s) h).2
    exact .finish hu hn hraise
  | tokDyn bit slot =>
    rcases execTokDyn_eq_fault h with ⟨-, rfl⟩ | ⟨prob, hb⟩
    · exact .reserved nofun (TraversalFrame.refl s).endTraversal
    · exact runBit_stop rfl hb
  | tokConst bit prob => exact runBit_stop rfl h
  | init psize => cases h
  | appd bit slot =>
    simp only [exec, execAppd] at h
    split at h
    next => cases h
    next => cases (ite_eq_fault (refusePhase_ne_fault s) h).2
  | appc bit prob => cases (ite_eq_fault (refusePhase_ne_fault s) h).2
  | finalize => cases (ite_eq_fault (refusePhase_ne_fault s) ((execFinalize_eq s).symm.trans h)).2
  | clear => cases (ite_eq_fault (refusePhase_ne_fault s) ((exec_clear s).symm.trans h)).2

/-! ### The marks and the traversal in the state a fault leaves -/

theorem Stop.marked {i : Instr} {s : State} {x : Fault} (h : Stop s i x) : x.Marked := by
  cases h with
  | recblk | tally => rfl
  | finish _ _ hx => exact (raiseFault_eq_fault hx).2
  | coded _ _ _ hx => exact (raiseFault_eq_fault hx).2
  | reserved => trivial

theorem Stop.refused {i : Instr} {s : State} {x : Fault} (h : Stop s i x) : x.left.refused = s.refused := by
  cases h with
  | recblk ws tally => simp only [Fault.left]; rw [appendAll_frame]
  | tally => rfl
  | finish hframe _ hx => rw [(raiseFault_eq_fault hx).1, hframe.1]
  | coded _ hframe _ hx => rw [(raiseFault_eq_fault hx).1]; exact hframe.1.refused
  | reserved _ hframe => exact hframe.1.refused

/-- A stop inside a traversal ends it (log 3), and the other commands open none. -/
theorem Stop.pass {i : Instr} {s : State} {x : Fault} (h : Stop s i x) :
    x.left.pass = none ∨ isCommand i = true ∧ x.left.pass = s.pass := by
  cases h with
  | recblk ws tally => refine .inr ⟨rfl, ?_⟩; simp only [Fault.left]; rw [appendAll_frame]
  | tally => exact .inr ⟨rfl, rfl⟩
  | finish hframe _ hx => exact .inr ⟨rfl, by rw [(raiseFault_eq_fault hx).1]; exact hframe.pass⟩
  | coded _ hframe _ hx => exact .inl (by rw [(raiseFault_eq_fault hx).1]; exact hframe.2)
  | reserved _ hframe => exact .inl hframe.2

theorem step_fault_pass {s : State} {x : Fault} (h : step s = .fault x) : x.left.pass = none := by
  cases hpass : s.pass with
  | none =>
    simp only [step, hpass, stepCommand] at h
    split at h
    next => cases h
    next => cases h
    next i rest _ =>
      rcases (exec_stop h).pass with hx | ⟨-, hx⟩
      · exact hx
      · exact hx
  | some p =>
    rw [step_of_pass hpass] at h
    cases htodo : p.todo with
    | nil => rw [stepPass_of_nil s htodo] at h; cases h
    | cons w ts =>
      rw [stepPass_eq_runToken s htodo] at h
      rcases runToken_eq_fault h with ⟨-, rfl⟩ | ⟨bit, prob, hb⟩
      · rfl
      · obtain ⟨u, n, ⟨-, hclosed⟩, -, hraise⟩ := runBit_stops bit prob _ x hb
        rw [(raiseFault_eq_fault hraise).1]
        exact hclosed

/-- No instruction that completes writes the marks (10_state.md R33). -/
theorem exec_marks {i : Instr} {s t : State} (h : exec i s = .next t) : t.fault = s.fault ∧ t.refused = s.refused := by
  obtain ⟨hfault, hrefused, -⟩ := onlyTheWritersWrite .unwritten i s t h (by cases i <;> rfl)
  exact ⟨hfault, hrefused⟩

/-- Settles O14: every refusal is a check before anything is written, and no instruction writes the mark. -/
theorem refusalChangesNothing : Obligations.RefusalChangesNothing :=
  ⟨fun _ s left hcmd h => exec_refusedUnchanged s hcmd left h, fun _ _ _ h => (exec_marks h).2,
    fun _ _ _ h => (exec_stop h).refused⟩

/-- Settles O15: a fault is raised with its own name, and the traversal it stops is ended. -/
theorem faultSetsTheMark : Obligations.FaultSetsTheMark :=
  ⟨fun _ _ _ => ⟨fun h => (exec_stop h).marked, fun h => (exec_stop h).marked, fun h => (exec_stop h).marked⟩,
    fun _ _ _ h => (exec_marks h).1, fun _ _ h => step_fault_pass h⟩

/-! ### The faults of commands (60_exceptions.md R176) -/

/-- EMIT and FINISH run in phases with the stream open (45_frame_control.md R167). -/
theorem open_of_exec_eq_fault {i : Instr} {s : State} {x : Fault} (hi : i = .emit ∨ i = .finish)
    (h : exec i s = .fault x) : s.phase ≠ .done := by
  rcases hi with rfl | rfl
  · exact open_of_admits (ite_eq_fault (refusePhase_ne_fault s) h).1
  · simp [(ite_eq_fault (refusePhase_ne_fault s) h).1]

/-- With the invariants of the coder a fault of EMIT or FINISH in the coder is that of a full output. -/
theorem outOverflow_of_raised {i : Instr} {s u : State} {n : FaultName} {x : Fault} (hinv : s.CoderInv)
    (hi : i = .emit ∨ i = .finish) (h : exec i s = .fault x) (hn : n ≠ .tallyCountOverflow)
    (hx : raiseFault n u = .fault x) : ∃ left, x = .outOverflow left := by
  cases n with
  | outOverflow => cases hx; exact ⟨_, rfl⟩
  | tallyCountOverflow => exact absurd rfl hn
  | carryNoHeld =>
    cases hx
    exact absurd h (carryAlwaysFindsAHeldByte i s _ hinv (open_of_exec_eq_fault hi h))

/-- Settles O47: of the ways to stop, the invariants close a carry with no held byte and a reserved word. -/
theorem commandsFaultOnlyAsListed : Obligations.CommandsFaultOnlyAsListed := by
  intro i s x hcmd hinv hbuf h
  cases exec_stop h with
  | recblk ws tally => exact .inr ⟨_, rfl, .inl ⟨_, _, _, _, _, rfl⟩⟩
  | tally => exact .inr ⟨_, rfl, .inr ⟨_, _, rfl⟩⟩
  | finish _ hn hx =>
    obtain ⟨left, hleft⟩ := outOverflow_of_raised hinv (.inr rfl) h hn hx
    exact .inl ⟨left, hleft, .inr rfl⟩
  | coded hi _ hn hx =>
    obtain rfl : i = .emit := hi.resolve_right (by simp [hcmd])
    obtain ⟨left, hleft⟩ := outOverflow_of_raised hinv (.inl rfl) h hn hx
    exact .inl ⟨left, hleft, .inl rfl⟩
  | reserved hword _ =>
    obtain ⟨w, hw, hreserved⟩ := hword hcmd
    exact absurd (hbuf.tokens w hw) hreserved

end Sys2Proof.Machine

/-! ### Two runs of one command, with different rooms for the output (44_range_coder.md R146, 60_exceptions.md R181) -/

namespace Sys2Proof.Machine

/-- The state with another capacity of the output memory. -/
def State.withRoom (room : Nat) (s : State) : State := { s with cfg := { s.cfg with outCapacity := room } }

/-- `t` comes from `s` by writing every place from `s.pos` up to `t.pos`, within the capacity, and no other. -/
structure Wrote (s t : State) : Prop where
  capacity : t.cfg.outCapacity = s.cfg.outCapacity
  pos_le : s.pos ≤ t.pos
  within : s.pos ≤ s.cfg.outCapacity → t.pos ≤ s.cfg.outCapacity
  kept : ∀ k, k < s.pos ∨ t.pos ≤ k → Memory.read t.out k = Memory.read s.out k
  written : ∀ k, s.pos ≤ k → k < t.pos → t.outWritten k = true

namespace Wrote

variable {s t u : State}

/-- The output as it was. -/
theorem of_same (hcap : t.cfg.outCapacity = s.cfg.outCapacity) (hpos : t.pos = s.pos) (hout : t.out = s.out) :
    Wrote s t :=
  ⟨hcap, hpos.ge, by rw [hpos]; exact id, fun _ _ => by rw [hout], fun k h h' => by omega⟩

theorem trans (h : Wrote s t) (h' : Wrote t u) : Wrote s u := by
  obtain ⟨hcap, hpos, hwithin, hkept, hwritten⟩ := h
  obtain ⟨hcap', hpos', hwithin', hkept', hwritten'⟩ := h'
  rw [hcap] at hcap' hwithin'
  refine ⟨hcap', by omega, fun h => hwithin' (hwithin h), fun k hk => ?_, fun k hk hk' => ?_⟩
  · rw [hkept' k (by omega), hkept k (by omega)]
  · by_cases hkt : k < t.pos
    · rw [State.outWritten, hkept' k (.inl hkt)]
      exact hwritten k hk hkt
    · exact hwritten' k (by omega) hk'

theorem outByte (h : Wrote s t) {k : Nat} (hk : k < s.pos ∨ t.pos ≤ k) : t.outByte k = s.outByte k := by
  rw [State.outByte, h.kept k hk, State.outByte]

theorem of_writeByte {b : Byte} (h : writeByte b s = .next t) : Wrote s t := by
  obtain ⟨hroom, rfl⟩ := writeByte_eq_next.mp h
  refine ⟨rfl, Nat.le_succ _, fun _ => hroom, fun k hk => Memory.read_write_other _ _ ?_, fun k hk hk' => ?_⟩
  · simp only at hk
    omega
  · simp only at hk'
    obtain rfl : k = s.pos := by omega
    simp [State.outWritten]

end Wrote

/-- The run `r` from `s` beside the run `r'` of the same effects in an output memory with `room`: where both complete
they leave the same but for the capacity, and where `r` finds the output full, `r'` goes on writing from there. -/
structure RoomRun (room : Nat) (s : State) (r r' : Result) : Prop where
  wrote : ∀ t, r = .next t → Wrote s t
  alike : ∀ t t', r = .next t → r' = .next t' → t' = t.withRoom room
  full : ∀ left, r = .fault (.outOverflow left) → Wrote s left ∧ s.cfg.outCapacity ≤ left.pos
  further : ∀ left t', r = .fault (.outOverflow left) → r' = .next t' →
    left.pos < t'.pos ∧ ∀ k, k < left.pos → t'.outByte k = left.outByte k

section

variable {room : Nat} {s : State}

/-- An update of the state that leaves the output alone. -/
theorem roomRun_next {t : State} (hcap : t.cfg.outCapacity = s.cfg.outCapacity) (hpos : t.pos = s.pos)
    (hout : t.out = s.out) : RoomRun room s (.next t) (.next (t.withRoom room)) where
  wrote _ h := by cases h; exact .of_same hcap hpos hout
  alike _ _ h h' := by cases h; cases h'; rfl
  full _ h := nomatch h
  further _ _ h := nomatch h

theorem roomRun_refused (x : Refusal) (r' : Result) : RoomRun room s (.refused x) r' where
  wrote _ h := nomatch h
  alike _ _ h := nomatch h
  full _ h := nomatch h
  further _ _ h := nomatch h

theorem roomRun_fault {x : Fault} (hx : ∀ left, x ≠ .outOverflow left) (r' : Result) :
    RoomRun room s (.fault x) r' where
  wrote _ h := nomatch h
  alike _ _ h := nomatch h
  full left h := by cases h; exact absurd rfl (hx left)
  further left _ h := by cases h; exact absurd rfl (hx left)

theorem roomRun_ite {c : Prop} [Decidable c] {r r' q q' : Result} (hr : RoomRun room s r r')
    (hq : RoomRun room s q q') : RoomRun room s (if c then r else q) (if c then r' else q') := by
  split
  · exact hr
  · exact hq

/-- What comes after an update that leaves the output alone, seen from before it. -/
theorem RoomRun.of_same {u : State} {r r' : Result} (h : RoomRun room u r r')
    (hcap : u.cfg.outCapacity = s.cfg.outCapacity) (hpos : u.pos = s.pos) (hout : u.out = s.out) :
    RoomRun room s r r' where
  wrote t ht := (Wrote.of_same hcap hpos hout).trans (h.wrote t ht)
  alike := h.alike
  full left hleft := by
    obtain ⟨hw, hfull⟩ := h.full left hleft
    exact ⟨(Wrote.of_same hcap hpos hout).trans hw, hcap ▸ hfull⟩
  further := h.further

theorem roomRun_andThen {r r' : Result} {f : State → Result} (hr : RoomRun room s r r')
    (hf : ∀ u, RoomRun room u (f u) (f (u.withRoom room))) : RoomRun room s (andThen r f) (andThen r' f) where
  wrote t ht := by
    obtain ⟨u, hu, ht⟩ := andThen_eq_next.mp ht
    exact (hr.wrote u hu).trans ((hf u).wrote t ht)
  alike t t' ht ht' := by
    obtain ⟨u, hu, ht⟩ := andThen_eq_next.mp ht
    obtain ⟨u', hu', ht'⟩ := andThen_eq_next.mp ht'
    cases hr.alike u u' hu hu'
    exact (hf u).alike t t' ht ht'
  full left hleft := by
    cases r with
    | next u =>
      obtain ⟨hw, hfull⟩ := (hf u).full left hleft
      have hu := hr.wrote u rfl
      exact ⟨hu.trans hw, hu.capacity ▸ hfull⟩
    | fault x => exact hr.full left hleft
    | refused x => cases hleft
  further left t' hleft ht' := by
    obtain ⟨u', hu', ht'⟩ := andThen_eq_next.mp ht'
    cases r with
    | next u =>
      cases hr.alike u u' rfl hu'
      exact (hf u).further left t' hleft ht'
    | fault x =>
      obtain ⟨hpos, hbytes⟩ := hr.further left u' hleft hu'
      have hw := (hf u').wrote t' ht'
      refine ⟨hpos.trans_le hw.pos_le, fun k hk => ?_⟩
      rw [hw.outByte (.inl (hk.trans hpos)), hbytes k hk]
    | refused x => cases hleft

theorem endOnFault_eq_outOverflow {r : Result} {left : State} (h : endOnFault r = .fault (.outOverflow left)) :
    ∃ u, r = .fault (.outOverflow u) ∧ left = u.endTraversal := by
  obtain ⟨y, rfl, hy⟩ := endOnFault_eq_fault.mp h
  cases y with
  | outOverflow u => exact ⟨u, rfl, Fault.outOverflow.inj hy⟩
  | tallyCountOverflow | carryNoHeld | reservedToken => cases hy

theorem roomRun_endOnFault {r r' : Result} (h : RoomRun room s r r') :
    RoomRun room s (endOnFault r) (endOnFault r') where
  wrote t ht := h.wrote t (endOnFault_eq_next.mp ht)
  alike t t' ht ht' := h.alike t t' (endOnFault_eq_next.mp ht) (endOnFault_eq_next.mp ht')
  full left hleft := by
    obtain ⟨u, hu, rfl⟩ := endOnFault_eq_outOverflow hleft
    obtain ⟨hw, hfull⟩ := h.full u hu
    exact ⟨hw.trans (.of_same rfl rfl rfl), hfull⟩
  further left t' hleft ht' := by
    obtain ⟨u, hu, rfl⟩ := endOnFault_eq_outOverflow hleft
    exact h.further u t' hu (endOnFault_eq_next.mp ht')

end

/-! ### The coder in two rooms -/

/-- A run of `f` beside its run with another room. -/
abbrev RoomRuns (f : State → Result) : Prop := ∀ room s, RoomRun room s (f s) (f (s.withRoom room))

/-- The one place that reads the capacity: a byte that finds it reached is written where there is more room. -/
theorem writeByte_roomRuns (b : Byte) : RoomRuns (writeByte b) := fun room s => {
  wrote := fun _ => Wrote.of_writeByte
  alike := fun t t' ht ht' => by
    obtain ⟨-, rfl⟩ := writeByte_eq_next.mp ht
    obtain ⟨-, rfl⟩ := writeByte_eq_next.mp ht'
    rfl
  full := fun left h => by
    obtain ⟨hfull, h⟩ := ite_eq_fault (fun _ e => by cases e) h
    cases h
    exact ⟨.of_same rfl rfl rfl, hfull⟩
  further := fun left t' h ht' => by
    obtain ⟨-, h⟩ := ite_eq_fault (fun _ e => by cases e) h
    cases h
    have hw := Wrote.of_writeByte ht'
    obtain ⟨-, rfl⟩ := writeByte_eq_next.mp ht'
    exact ⟨Nat.lt_succ_self _, fun k hk => hw.outByte (.inl hk)⟩ }

theorem writeBytes_roomRuns (n : Nat) (b : Byte) : RoomRuns (writeBytes n b) := by
  intro room s
  induction n generalizing s with
  | zero => exact roomRun_next rfl rfl rfl
  | succ n ih => exact roomRun_andThen (writeByte_roomRuns b room s) ih

theorem resolveCarry_roomRuns : RoomRuns resolveCarry := fun room s =>
  roomRun_ite (roomRun_fault (fun _ h => by cases h) _)
    (roomRun_andThen (writeByte_roomRuns (s.held + 1) room s) (writeBytes_roomRuns s.run 0x00 room))

theorem flushPending_roomRuns : RoomRuns flushPending := fun room s =>
  roomRun_andThen (roomRun_ite (roomRun_next rfl rfl rfl) (writeByte_roomRuns s.held room s))
    (writeBytes_roomRuns s.run 0xFF room)

theorem pack_roomRuns (bits : BitVec 24) : RoomRuns (pack bits) := fun room s =>
  roomRun_ite (roomRun_next rfl rfl rfl)
    (roomRun_andThen (roomRun_ite (resolveCarry_roomRuns room s) (flushPending_roomRuns room s)) fun _ =>
      roomRun_next rfl rfl rfl)

theorem extract_roomRuns : RoomRuns extract := fun room s =>
  (pack_roomRuns _ room (afterExtract s)).of_same rfl rfl rfl

theorem putBit_roomRuns (bit : Bool) (prob : Prob) : RoomRuns (putBit bit prob) := fun room s =>
  roomRun_ite ((extract_roomRuns room (codeBit bit prob s)).of_same rfl rfl rfl) (roomRun_next rfl rfl rfl)

theorem padBits_roomRuns (n : Nat) : RoomRuns (padBits n) := by
  intro room s
  induction n generalizing s with
  | zero => exact roomRun_next rfl rfl rfl
  | succ n ih => exact roomRun_andThen (putBit_roomRuns false 128 room s) ih

theorem execFinish_roomRuns : RoomRuns execFinish := fun room s =>
  roomRun_ite
    (roomRun_andThen (padBits_roomRuns _ room s) fun s1 =>
      roomRun_andThen ((extract_roomRuns room { s1 with nbBits := 0 }).of_same rfl rfl rfl) fun s2 =>
      roomRun_andThen (flushPending_roomRuns room s2) fun _ => roomRun_next rfl rfl rfl)
    (roomRun_refused _ _)

/-! ### A traversal in two rooms -/

theorem runBit_roomRuns (bit : Bool) (prob : Prob) : RoomRuns (runBit bit prob) := by
  intro room s
  have hpass' : (s.withRoom room).pass = s.pass := rfl
  cases hpass : s.pass with
  | none =>
    simp only [runBit, hpass]
    exact roomRun_refused _ _
  | some p =>
    rw [hpass] at hpass'
    cases p with
    | emit todo =>
      rw [runBit_emit hpass, runBit_emit hpass']
      exact roomRun_endOnFault (putBit_roomRuns bit prob room s)
    | estimate todo acc =>
      rw [runBit_estimate hpass, runBit_estimate hpass']
      exact roomRun_next rfl rfl rfl

theorem execTokDyn_roomRuns (bit : Bool) (slot : BitVec 14) : RoomRuns (execTokDyn bit slot) := by
  intro room s
  unfold execTokDyn
  split
  · exact roomRun_fault (fun _ h => by cases h) _
  · exact runBit_roomRuns bit _ room s

theorem runToken_roomRuns (w : TokWord) : RoomRuns (runToken w) := by
  intro room s
  unfold runToken
  split
  · exact execTokDyn_roomRuns _ _ room s
  · exact runBit_roomRuns _ _ room s
  · exact roomRun_fault (fun _ h => by cases h) _

/-- The end of a traversal writes no byte and reads no capacity. -/
theorem closePass_roomRuns (room : Nat) (s : State) :
    RoomRun room s (.next (closePass s)) (.next (closePass (s.withRoom room))) := by
  have hpass' : (s.withRoom room).pass = s.pass := rfl
  simp only [closePass, hpass']
  split <;> exact roomRun_next rfl rfl rfl

theorem runTokens_roomRuns (ts : List TokWord) : RoomRuns (runTokens ts) := by
  intro room s
  induction ts generalizing s with
  | nil => exact closePass_roomRuns room s
  | cons w ts ih =>
    exact roomRun_andThen ((runToken_roomRuns w room (s.advance ts)).of_same rfl rfl rfl) ih

theorem execEmit_roomRuns : RoomRuns execEmit := fun room s =>
  roomRun_ite ((runTokens_roomRuns s.tokseq room { s with pass := some (.emit s.tokseq) }).of_same rfl rfl rfl)
    (roomRun_refused _ _)

/-- An instruction that finds the output full runs alike in any room up to there. -/
theorem exec_roomRun {i : Instr} {s left : State} (h : exec i s = .fault (.outOverflow left)) (room : Nat) :
    RoomRun room s (exec i s) (exec i (s.withRoom room)) := by
  cases exec_stop h with
  | finish => exact execFinish_roomRuns room s
  | coded hi =>
    cases i with
    | emit => exact execEmit_roomRuns room s
    | tokDyn bit slot => exact execTokDyn_roomRuns bit slot room s
    | tokConst bit prob => exact runBit_roomRuns bit prob room s
    | init | recblk | appd | appc | tally | finalize | estimate | finish | clear => simp [isCommand] at hi

/-! ### A command that finds the output full -/

/-- A command that finds the output full leaves everything outside the coder and the output as it was, but for the
mark. -/
theorem Stop.same {q : Piece} {i : Instr} {s left : State} (h : Stop s i (.outOverflow left)) (hcod : q ≠ .coder)
    (hout : q ≠ .output) (hmarks : q ≠ .unwritten) : SamePiece q s left := by
  have hraised {u : State} {n : FaultName} (hframe : TraversalFrame s u)
      (hx : raiseFault n u = .fault (.outOverflow left)) : SamePiece q s left := by
    obtain rfl : left = { u with fault := some n } := (raiseFault_eq_fault hx).1
    refine (hframe.same hcod hout).trans ?_
    cases q <;> simp_all [SamePiece, State.tokWord, State.tallyAt, State.pwAt]
  cases h with
  | finish hframe _ hx => exact hraised (.of_coder hframe) hx
  | coded _ hframe _ hx => exact hraised hframe.1 hx

/-- The recorded tokens are read from the token buffer. -/
theorem tokseq_of_same {s t : State} (htok : SamePiece .tokens s t) (hsize : SamePiece .pageSize s t) :
    t.tokseq = s.tokseq := by
  obtain ⟨hpages, hleft, hword⟩ := htok
  simp only [SamePiece] at hsize
  simp only [State.tokseq, hpages, hleft, hsize, hword]

/-! ### A token word that finds the output full (44_range_coder.md R137 to R145) -/

/-- The room changes nothing that coding a bit does. -/
theorem CodedBit.withRoom {bit : Bool} {prob : Prob} {s t : State} (h : CodedBit bit prob s t) (room : Nat) :
    CodedBit bit prob (s.withRoom room) (t.withRoom room) := by
  obtain ⟨k, split, rn, v, n, hsplit, hrn, hk, hlo, hhi, hv, hn, hframe, hrange, hrest⟩ := h
  refine ⟨k, split, rn, v, n, hsplit, hrn, hk, hlo, hhi, hv, hn, ?_, hrange, hrest⟩
  rw [hframe]
  rfl

theorem State.CoderInv.withRoom {s : State} (hi : s.CoderInv) (room : Nat) : (s.withRoom room).CoderInv :=
  hi.of_same ⟨rfl, rfl, rfl, rfl, rfl, rfl⟩ id

/-- A bit that stops lets a byte group leave. -/
theorem putBit_eq_fault {bit : Bool} {prob : Prob} {s : State} {x : Fault} (h : putBit bit prob s = .fault x) :
    0 < (codeBit bit prob s).nbBits.toInt ∧ extract (codeBit bit prob s) = .fault x :=
  ite_eq_fault (fun _ e => by cases e) h

/-- In `left` coding the bit has stopped: the registers have moved as in the state `t` that the coded bit leaves, the
packer's are as they were, and a byte of `t` is missing. -/
def StoppedCoding (bit : Bool) (prob : Prob) (s left : State) : Prop :=
  ∃ t, CodedBit bit prob s t ∧ left.range = t.range ∧ left.value = t.value ∧ left.nbBits = t.nbBits
    ∧ left.run = s.run ∧ left.held = s.held ∧ left.pos < t.pos

/-- A bit that finds the output full, beside the same bit with room for all that PACK can write. -/
theorem putBit_full {bit : Bool} {prob : Prob} {s left : State} (hi : s.CoderInv) (hp : s.phase ≠ .done)
    (h : putBit bit prob s = .fault (.outOverflow left)) : StoppedCoding bit prob s left := by
  obtain ⟨u, n, ⟨-, hwrite⟩, -, hraise⟩ := putBit_stops bit prob s _ h
  obtain rfl : left = { u with fault := some n } := (raiseFault_eq_fault hraise).1
  obtain ⟨t, ht, hcoded⟩ := putBit_coded (hi.withRoom (s.pos + s.run + 1)) (bit := bit) (prob := prob) hp (.inr le_rfl)
  obtain ⟨hpos, -⟩ := (putBit_roomRuns bit prob (s.pos + s.run + 1) s).further _ t h ht
  have hext : extract (codeBit bit prob (s.withRoom (s.pos + s.run + 1))) = .next t :=
    (if_pos (putBit_eq_fault h).1).symm.trans ht
  have hkeeps := pack_keeps hext
  refine ⟨t.withRoom s.cfg.outCapacity, hcoded.withRoom s.cfg.outCapacity, ?_, ?_, ?_, ?_, ?_, hpos⟩
  · rw [hkeeps, hwrite]; rfl
  · rw [hkeeps, hwrite]; rfl
  · rw [hkeeps, hwrite]; rfl
  · rw [hwrite]; rfl
  · rw [hwrite]; rfl

theorem runBit_full {bit : Bool} {prob : Prob} {s left : State} (hi : s.CoderInv) (hp : s.phase ≠ .done)
    (h : runBit bit prob s = .fault (.outOverflow left)) : StoppedCoding bit prob s left := by
  obtain ⟨-, -, h⟩ := runBit_eq_fault h
  obtain ⟨u, hu, rfl⟩ := endOnFault_eq_outOverflow h
  obtain ⟨t, hstopped⟩ := putBit_full hi hp hu
  exact ⟨t, hstopped⟩

/-- Settles O16: the run beside one with more room for what was written, and the frame of a stop for the rest. -/
theorem outOverflowKeepsWhatWasWritten : Obligations.OutOverflowKeepsWhatWasWritten := by
  refine ⟨fun i s left h => ?_, ?_⟩
  · have hsame {q : Piece} : q ≠ .coder → q ≠ .output → q ≠ .unwritten → SamePiece q s left := (exec_stop h).same
    obtain ⟨hw, hfull⟩ := (exec_roomRun h 0).full left h
    refine ⟨hfull, hw.pos_le, fun hin => (hw.within hin).antisymm hfull, fun k hk => hw.outByte hk, hw.written,
      fun room t ht => ?_, hsame (q := .eop) nofun nofun nofun, hsame (q := .phase) nofun nofun nofun,
      tokseq_of_same (hsame nofun nofun nofun) (hsame nofun nofun nofun), fun q hq => ?_⟩
    · obtain ⟨hpos, hbytes⟩ := (exec_roomRun h room).further left t h ht
      exact ⟨hpos, fun k hk => (hbytes k hk).symm⟩
    · rcases hq with rfl | rfl | rfl | rfl | rfl | rfl <;> exact hsame nofun nofun nofun
  · rintro i s left bit prob todo (rfl | ⟨slot, j, rfl, hj, rfl⟩) - hi hp h
    · exact runBit_full hi hp h
    · rw [exec_tokDyn_eq hj] at h
      exact runBit_full hi hp h

end Sys2Proof.Machine

/-! ### Power-on, INIT, CLEAR (70_reset_and_hazards.md R196 to R199) -/

namespace Sys2Proof.Machine

/-- Before the first INIT every other command is refused (70_reset_and_hazards.md R198). -/
theorem exec_uninit {i : Instr} {s : State} (hphase : s.phase = .uninit) (hcmd : isCommand i = true)
    (hwf : i.wellFormed = true) (hinit : ∀ psize, i ≠ .init psize) : exec i s = refusePhase s := by
  refine (exec_followsAdmission s hcmd hwf).1 ?_
  rw [hphase]
  cases i with
  | init psize => exact absurd rfl (hinit psize)
  | recblk | appd | appc | tally | finalize | estimate | emit | finish | clear | tokDyn | tokConst =>
    simp [admittingPhases]

/-- Settles O9: the phase of a power-on state is in no row of the admission table but that of INIT. -/
theorem powerOnAdmitsOnlyInit : Obligations.PowerOnAdmitsOnlyInit := by
  refine ⟨⟨State.namedValues, rfl⟩, ?_⟩
  rintro s ⟨any, rfl⟩
  exact ⟨rfl, rfl, rfl, fun psize => ⟨_, execInit_eq psize _⟩, fun i hcmd hwf hinit => exec_uninit rfl hcmd hwf hinit⟩

/-- INIT clears every entry of the statistics (70_reset_and_hazards.md R197). -/
theorem startFrame_tallyAt (psize : BitVec 24) (s : State) (i : Slot) : (startFrame psize s).tallyAt i = 0 :=
  Vector.getElem_replicate i.isLt

/-- INIT rounds a small page up to 8192 slots (30_encoding.md R66). -/
theorem startFrame_pageSize (psize : BitVec 24) (s : State) :
    (startFrame psize s).pageSize = if psize.toNat ≤ 8192 then 8192 else psize.toNat := Nat.max_def

/-- Settles O10: each register of the state a frame starts in. -/
theorem initResult : Obligations.InitResult := by
  intro s psize
  have hbits : (startFrame psize s).nbBits.toInt = -8 := (by decide : (-8 : BitVec 5).toInt = -8)
  exact ⟨startFrame psize s, execInit_eq psize s, rfl, rfl, hbits, rfl, rfl, rfl, rfl, rfl, rfl, rfl,
    startFrame_pageSize psize s, startFrame_tallyAt psize s, fun _ => rfl, rfl, rfl, rfl, fun _ => rfl, rfl, rfl, rfl,
    rfl, rfl, rfl⟩

/-- Settles O31: releasing the pages and clearing the error is all that CLEAR does. -/
theorem clearResult : Obligations.ClearResult := by
  intro s
  rw [exec_clear]
  exact ⟨fun h => if_neg (not_not.mpr h), fun h => ⟨_, if_pos h, rfl, rfl⟩⟩

/-! ### The invariants at reset and after INIT -/

theorem namedValues_tallyInv : State.namedValues.TallyInv := fun i => by
  have hzero : State.namedValues.tallyAt i = 0 := Vector.getElem_replicate i.isLt
  rw [hzero]
  exact .inl (by decide)

theorem namedValues_bufferInv : State.namedValues.BufferInv :=
  bufferInv_of_no_pages (Nat.le_refl 8192) (by decide) rfl rfl

/-- Before the first frame the working table has no value to agree with. -/
theorem namedValues_tableInv : State.namedValues.TableInv := ⟨nofun, fun h => absurd rfl h⟩

theorem namedValues_outInv : State.namedValues.OutInv :=
  ⟨Nat.zero_le _, fun k hk => absurd hk (Nat.not_lt_zero k), fun _ _ => rfl⟩

theorem startFrame_passInv (psize : BitVec 24) (s : State) : (startFrame psize s).PassInv := fun _ => .inl rfl

/-- Settles O60: the model's reset state is its named values, and INIT leaves the state a frame starts in. -/
theorem invariantsHoldAtResetAndAfterInit : Obligations.InvariantsHoldAtResetAndAfterInit := by
  have hreset : State.reset = State.namedValues := rfl
  refine ⟨?_, fun s t psize h => ?_⟩
  · exact ⟨hreset ▸ namedValues_coderInv, passInv_of_none rfl, hreset ▸ namedValues_bufferInv,
      hreset ▸ namedValues_tallyInv, hreset ▸ namedValues_tableInv, hreset ▸ namedValues_outInv, reset_memoryWf⟩
  · cases (execInit_eq psize s).symm.trans h
    exact ⟨startFrame_coderInv psize s, startFrame_passInv psize s, startFrame_bufferInv psize s,
      startFrame_tallyInv psize s, startFrame_tableInv psize s⟩

end Sys2Proof.Machine

/-! ### The output bound (70_reset_and_hazards.md R209) -/

namespace Sys2Proof.Machine

/-- FINISH that completes has written out what had left the coder, the padding's groups and one zero byte. -/
theorem exec_finish_pos {s u : State} (hi : s.CoderInv) (h : exec .finish s = .next u) :
    u.pos = s.streamBytes.length + s.padGroups + 1 := by
  obtain ⟨hphase, m, hpad, -, -, hpos⟩ := exec_finish_partition hi h
  obtain ⟨-, -, hlen⟩ := padded_result hi (by simp [hphase]) hpad
  rw [hpos, hlen]

/-- The end of EMIT leaves the coder and its invariants alone. -/
theorem closeEmit_coderInv {s : State} (hi : s.CoderInv) (hp : s.phase ≠ .done) : (closeEmit s).CoderInv :=
  hi.of_same (closeEmit_same s nofun nofun nofun) fun _ => hp

theorem Interval.shifts_codeAll_start_le (bits : List (Bool × Prob)) :
    (Interval.start.codeAll bits).shifts ≤ 7 * bits.length := by
  have h := Interval.codeAll_shifts_le (e := Interval.start) bits (by decide) (by decide)
  rwa [Interval.start, Nat.zero_add] at h

/-- Tokens coded into an empty stream push at most seven bits each out of the coder. -/
theorem CodedAll.streamBytes_length_le {bits : List (Bool × Prob)} {s m : State} (hi : s.CoderInv)
    (hp : s.phase ≠ .done) (hstart : s.interval = Interval.start) (h : CodedAll bits s m) :
    8 * m.streamBytes.length ≤ 7 * bits.length := by
  have hshifts := Interval.shifts_codeAll_start_le bits
  rw [← hstart, ← h.interval_eq hi hp, State.interval] at hshifts
  simp only at hshifts
  omega

/-- The bytes of a partition of so many tokens: those that the tokens push out, then one group of padding for an empty
stream and two for any other, and the zero byte at the end. -/
def partitionBound (ntok : Nat) : Nat := if ntok = 0 then 2 else 7 * ntok / 8 + 3

theorem CodedAll.partition_le {bits : List (Bool × Prob)} {s m : State} (hi : s.CoderInv)
    (hp : s.phase ≠ .done) (hrange : s.range = 254) (hstart : s.interval = Interval.start) (h : CodedAll bits s m) :
    m.streamBytes.length + m.padGroups + 1 ≤ partitionBound bits.length := by
  have hlen := h.streamBytes_length_le hi hp hstart
  rw [partitionBound]
  cases bits with
  | nil =>
    cases h
    rw [State.padGroups, if_pos hrange, List.length_nil, if_pos rfl]
    rw [List.length_nil] at hlen
    omega
  | cons q bits =>
    have hgroups : m.padGroups ≤ 2 := by rw [State.padGroups]; split <;> decide
    rw [if_neg (by simp)]
    omega

/-- Settles O52: the seven shifts a token bound what EMIT pushes out, and FINISH adds its padding and a zero byte. -/
theorem outputBound : Obligations.OutputBound := by
  rintro s bits bound hphase hpass hrange hvalue hbits hrun hpos hheld htokens rfl hroom
  have hi := coderInv_of_empty hrange hvalue hbits hrun hpos hheld
  have hstart := interval_of_empty hrange hvalue hbits hrun hpos hheld
  have hopen := open_of_admits hphase
  have hshifts := Interval.shifts_codeAll_start_le bits
  rw [← hstart] at hshifts
  obtain ⟨t, ht⟩ := runTokens_emit_completes (hi.withPass (some (.emit s.tokseq))) hopen rfl htokens
    (show (s.interval.codeAll bits).shifts ≤ 8 * (s.cfg.outCapacity + 1) by split at hroom <;> omega)
  rw [← exec_emit_of_phase hphase] at ht
  obtain ⟨-, m, hm, rfl⟩ := exec_emit_eq_next hi hpass htokens ht
  have hic := closeEmit_coderInv (hm.coderInv hi hopen) (hm.phase ▸ hopen)
  have hbound : (closeEmit m).streamBytes.length + (closeEmit m).padGroups + 1 ≤ partitionBound bits.length :=
    (hm.partition_le hi hopen hrange hstart :)
  have hcfg : (closeEmit m).cfg = s.cfg := by rw [closeEmit_cfg, hm.frame]
  obtain ⟨u, hu⟩ := exec_finish_completes (closeEmit_phase m) hic (hcfg ▸ hbound.trans hroom)
  exact ⟨_, u, ht, hu, (exec_finish_pos hic hu).trans_le hbound⟩

end Sys2Proof.Machine

/-! ### Two states that differ only where the spec leaves values unspecified (70_reset_and_hazards.md R196, R214) -/

namespace Sys2Proof.Machine

/-- The pieces of a state that can hold unspecified values once a frame has started (10_state.md R18, R27, R30). -/
structure Unspecified where
  tok : Memory 16
  out : List Host.Cell
  eop : Eop
  freeCount : Nat

/-- The state with other values in the pieces that can hold unspecified ones. -/
def State.overlay (s : State) (u : Unspecified) : State :=
  { s with tok := u.tok, out := u.out, eop := u.eop, freeCount := u.freeCount }

@[simp] theorem overlay_tok (s : State) (u : Unspecified) : (s.overlay u).tok = u.tok := rfl
@[simp] theorem overlay_out (s : State) (u : Unspecified) : (s.overlay u).out = u.out := rfl

/-- A frame has started in `s`, and `u` agrees with it on everything in its pieces that the spec gives a value: the
recorded tokens, the output below `pos`, and the record once EMIT has written it. -/
structure Unspecified.Fits (u : Unspecified) (s : State) : Prop where
  started : s.phase ≠ .uninit
  tokens : ∀ q ∈ traversal s.npages s.left s.pageSize, (s.overlay u).tokWord q.1 q.2 = s.tokWord q.1 q.2
  out : ∀ k, k < s.pos → (s.overlay u).outByte k = s.outByte k
  eop : s.phase = .emitted ∨ s.phase = .done → { u.eop with maxPos := s.eop.maxPos } = s.eop

/-- States that agree on what the spec gives a value differ by an overlay that fits. -/
theorem SameDefined.exists_overlay {s t : State} (h : SameDefined s t) (hp : s.phase ≠ .uninit) :
    ∃ u : Unspecified, t = s.overlay u ∧ u.Fits s := by
  have hf := h.frame hp
  have ht : t = s.overlay ⟨t.tok, t.out, t.eop, t.freeCount⟩ := by
    rw [State.overlay, ← hf.range, ← hf.value, ← hf.nbBits, ← hf.run, ← hf.pos, ← hf.held, ← hf.npages, ← hf.left,
      ← hf.pageSize, ← hf.tbError, ← hf.tally, ← hf.pw, ← hf.sizeEst, ← hf.dirty, ← h.cfg, ← h.phase, ← h.fault,
      ← h.refused, ← h.cmds, ← h.pass]
  exact ⟨_, ht, hp, hf.tokens, hf.out, hf.eop⟩

theorem Unspecified.Fits.sameDefined {u : Unspecified} {s : State} (h : u.Fits s) : SameDefined s (s.overlay u) :=
  ⟨rfl, rfl, rfl, rfl, rfl, rfl, fun _ =>
    ⟨rfl, rfl, rfl, rfl, rfl, rfl, h.tokens, rfl, rfl, rfl, rfl, rfl, rfl, h.out, rfl, rfl, h.eop⟩⟩

/-- Two effects end alike: in states that differ by an overlay that fits, or in the same fault, or in the same
refusal. -/
inductive Alike : Result → Result → Prop
  | next {u : Unspecified} {s : State} (h : u.Fits s) : Alike (.next s) (.next (s.overlay u))
  | fault {x y : Fault} (h : sameFault x y = true) : Alike (.fault x) (.fault y)
  | refused {x y : Refusal} (h : sameRefusal x y = true) : Alike (.refused x) (.refused y)

theorem Alike.outcomesAgree {r r' : Result} (h : Alike r r') : OutcomesAgree r r' := by
  cases h with
  | next h => exact h.sameDefined
  | fault h => exact h
  | refused h => exact h

/-- An effect that reads no unspecified value. -/
def ReadsDefined (f : State → Result) : Prop :=
  ∀ (s : State) (u : Unspecified), u.Fits s → Alike (f s) (f (s.overlay u))

section

variable {s t : State} {u : Unspecified}

/-- What an overlay has to fit is in the phase and in the pieces that hold tokens, output and the record. -/
theorem Unspecified.Fits.congr (h : u.Fits s) (hphase : t.phase = s.phase := by rfl) (htok : t.tok = s.tok := by rfl)
    (hpages : t.npages = s.npages := by rfl) (hleft : t.left = s.left := by rfl)
    (hsize : t.pageSize = s.pageSize := by rfl) (hpos : t.pos = s.pos := by rfl) (hout : t.out = s.out := by rfl)
    (heop : t.eop = s.eop := by rfl) : u.Fits t := by
  obtain ⟨hstarted, htokens, hbytes, hrecord⟩ := h
  constructor
  · rwa [hphase]
  · simpa only [hpages, hleft, hsize, State.tokWord, overlay_tok, htok] using htokens
  · simpa only [hpos, State.outByte, overlay_out, hout] using hbytes
  · rwa [hphase, heop]

theorem alike_ite {c : Prop} [Decidable c] {r r' q q' : Result} (hr : c → Alike r r') (hq : Alike q q') :
    Alike (if c then r else q) (if c then r' else q') := by
  split
  next hc => exact hr hc
  next => exact hq

/-- A choice between two updates of the state. -/
theorem alike_next_ite {c : Prop} [Decidable c] {a b a' b' : State} (ha : c → Alike (.next a) (.next a'))
    (hb : Alike (.next b) (.next b')) : Alike (.next (if c then a else b)) (.next (if c then a' else b')) := by
  split
  next hc => exact ha hc
  next => exact hb

/-- The second effect may rely on what the first leaves. -/
theorem alike_andThen_of_next {r r' : Result} {f f' : State → Result} (hr : Alike r r')
    (hf : ∀ v u, r = .next v → u.Fits v → Alike (f v) (f' (v.overlay u))) : Alike (andThen r f) (andThen r' f') := by
  cases hr with
  | next h => exact hf _ _ rfl h
  | fault h => exact .fault h
  | refused h => exact .refused h

theorem alike_andThen {r r' : Result} {f : State → Result} (hr : Alike r r') (hf : ReadsDefined f) :
    Alike (andThen r f) (andThen r' f) := alike_andThen_of_next hr fun v u _ h => hf v u h

theorem sameFault_mapLeft (f : State → State) (x y : Fault) :
    sameFault (x.mapLeft f) (y.mapLeft f) = sameFault x y := by
  cases x <;> cases y <;> rfl

theorem alike_endOnFault {r r' : Result} (h : Alike r r') : Alike (endOnFault r) (endOnFault r') := by
  cases h with
  | next h => exact .next h
  | fault h => exact .fault ((sameFault_mapLeft _ _ _).trans h)
  | refused h => exact .refused h

theorem alike_raiseFault (n : FaultName) (s t : State) : Alike (raiseFault n s) (raiseFault n t) := by
  cases n <;> exact .fault rfl

theorem alike_refusePhase (s t : State) : Alike (refusePhase s) (refusePhase t) := .refused rfl

end

/-! ### The coder reads no output -/

/-- The byte is written at the same place of both outputs, and becomes one that the spec gives a value. -/
theorem writeByte_readsDefined (b : Byte) : ReadsDefined (writeByte b) := fun s u h => by
  refine alike_ite (fun _ => alike_raiseFault _ _ _) (.next (u := { u with out := Memory.write u.out s.pos b })
    ⟨h.started, h.tokens, fun k hk => ?_, h.eop⟩)
  have hs := outByte_write s s.pos k b
  have hu := outByte_write (s.overlay u) s.pos k b
  refine hu.trans (Eq.trans ?_ hs.symm)
  split
  · rfl
  · exact h.out k (by simp only at hk; omega)

theorem writeBytes_readsDefined (n : Nat) (b : Byte) : ReadsDefined (writeBytes n b) := by
  induction n with
  | zero => exact fun s u h => .next h
  | succ n ih => exact fun s u h => alike_andThen (writeByte_readsDefined b s u h) ih

theorem resolveCarry_readsDefined : ReadsDefined resolveCarry := fun s u h =>
  alike_ite (fun _ => alike_raiseFault _ _ _)
    (alike_andThen (writeByte_readsDefined (s.held + 1) s u h) (writeBytes_readsDefined s.run 0x00))

theorem flushPending_readsDefined : ReadsDefined flushPending := fun s u h =>
  alike_andThen (alike_ite (fun _ => .next h) (writeByte_readsDefined s.held s u h))
    (writeBytes_readsDefined s.run 0xFF)

theorem pack_readsDefined (bits : BitVec 24) : ReadsDefined (pack bits) := fun s u h =>
  alike_ite (fun _ => .next (s := { s with run := s.run + 1 }) h.congr)
    (alike_andThen (alike_ite (fun _ => resolveCarry_readsDefined s u h) (flushPending_readsDefined s u h))
      fun v _ h' => .next (s := { v with run := 0, held := groupByte bits }) h'.congr)

theorem extract_readsDefined : ReadsDefined extract := fun s u h =>
  pack_readsDefined _ (afterExtract s) u h.congr

theorem putBit_readsDefined (bit : Bool) (prob : Prob) : ReadsDefined (putBit bit prob) := fun s u h => by
  have hc : u.Fits (codeBit bit prob s) := h.congr
  exact alike_ite (fun _ => extract_readsDefined _ u hc) (.next hc)

theorem padBits_readsDefined (n : Nat) : ReadsDefined (padBits n) := by
  induction n with
  | zero => exact fun s u h => .next h
  | succ n ih => exact fun s u h => alike_andThen (putBit_readsDefined false 128 s u h) ih

theorem forceExtract_readsDefined : ReadsDefined forceExtract := fun s u h =>
  extract_readsDefined { s with nbBits := 0 } u h.congr

/-- FINISH runs after EMIT has written the record, which it keeps. -/
theorem execFinish_readsDefined : ReadsDefined execFinish := fun s u h => by
  refine alike_ite (fun hp => ?_) (alike_refusePhase _ _)
  refine alike_andThen_of_next (padBits_readsDefined _ s u h) fun s1 u1 hpad h1 =>
    alike_andThen_of_next (forceExtract_readsDefined s1 u1 h1) fun s2 u2 hext h2 =>
    alike_andThen_of_next (flushPending_readsDefined s2 u2 h2) fun s3 u3 hflush h3 => ?_
  have hp3 : s3.phase = .emitted := (finish_frame hpad hext hflush).phase.trans hp
  exact .next (s := closeStream s3) ⟨nofun, h3.tokens, h3.out, fun _ => h3.eop (.inl hp3)⟩

/-! ### Traversals read the recorded tokens alone -/

theorem runBit_readsDefined (bit : Bool) (prob : Prob) : ReadsDefined (runBit bit prob) := fun s u h => by
  have hpass' : (s.overlay u).pass = s.pass := rfl
  cases hpass : s.pass with
  | none =>
    simp only [runBit, hpass', hpass]
    exact .refused rfl
  | some p =>
    rw [hpass] at hpass'
    cases p with
    | emit todo =>
      rw [runBit_emit hpass, runBit_emit hpass']
      exact alike_endOnFault (putBit_readsDefined bit prob s u h)
    | estimate todo acc =>
      rw [runBit_estimate hpass, runBit_estimate hpass']
      exact .next (s := { s with pass := some (.estimate todo (acc + bitCost s.cfg bit prob)) }) h.congr

theorem execTokDyn_readsDefined (bit : Bool) (slot : BitVec 14) : ReadsDefined (execTokDyn bit slot) := fun s u h => by
  unfold execTokDyn
  split
  · exact .fault rfl
  · exact runBit_readsDefined bit _ s u h

theorem runToken_readsDefined (w : TokWord) : ReadsDefined (runToken w) := fun s u h => by
  unfold runToken
  split
  · exact execTokDyn_readsDefined _ _ s u h
  · exact runBit_readsDefined _ _ s u h
  · exact .fault rfl

/-- With no page there is no recorded token. -/
theorem not_mem_traversal_zero {left size : Nat} {q : Nat × Nat} : q ∉ traversal 0 left size := List.not_mem_nil

/-- What EMIT writes at its end is unspecified in `max_pos` alone, and its release leaves no recorded token. -/
theorem closeEmit_readsDefined : ReadsDefined fun s => .next (closeEmit s) := fun s u h =>
  .next (s := closeEmit s) (u := ⟨[], u.out, eopOf (s.overlay u), u.freeCount + 1⟩)
    ⟨nofun, fun _ hq => absurd hq not_mem_traversal_zero, h.out, fun _ => rfl⟩

theorem closePass_readsDefined : ReadsDefined fun s => .next (closePass s) := fun s u h => by
  have hpass' : (s.overlay u).pass = s.pass := rfl
  simp only [closePass, hpass']
  split
  · exact closeEmit_readsDefined s u h
  · exact .next (s := closeEstimate _ s) h.congr
  · exact .next h

theorem runTokens_readsDefined (ts : List TokWord) : ReadsDefined (runTokens ts) := by
  induction ts with
  | nil => exact closePass_readsDefined
  | cons w ts ih =>
    exact fun s u h => alike_andThen (runToken_readsDefined w (s.advance ts) u h.congr) ih

theorem Unspecified.Fits.tokseq {u : Unspecified} {s : State} (h : u.Fits s) : (s.overlay u).tokseq = s.tokseq :=
  List.map_congr_left h.tokens

theorem traverse_readsDefined (kind : List TokWord → Pass) : ReadsDefined (traverse kind) := fun s u h => by
  rw [traverse, traverse, h.tokseq]
  exact runTokens_readsDefined _ { s with pass := some (kind s.tokseq) } u h.congr

/-! ### The token buffer and the statistics -/

/-- The slot that is stored into becomes the one recorded token more. -/
theorem storeToken_fits {s : State} {u : Unspecified} (w : TokWord) (h : u.Fits s) :
    ({ u with tok := Memory.write u.tok (tokAddr s.nextSlot.1 s.nextSlot.2) w }).Fits (storeToken w s) := by
  refine ⟨h.started, fun q hq => ?_, h.out, h.eop⟩
  have hs := tokWord_write s s.nextSlot.1 s.nextSlot.2 q.1 q.2 w
  have hu := tokWord_write (s.overlay u) s.nextSlot.1 s.nextSlot.2 q.1 q.2 w
  refine hu.trans (Eq.trans ?_ hs.symm)
  split
  next => rfl
  next hne =>
    obtain ⟨hpage, hslot, hlast⟩ := mem_traversal.mp hq
    simp only [storeToken_npages, storeToken_left, storeToken_pageSize] at hpage hslot hlast
    simp only [State.nextSlot] at hne
    exact h.tokens q (mem_traversal.mpr ⟨hpage, hslot, by omega⟩)

/-- A page is allocated where every slot of the pages before it holds a recorded token. -/
theorem allocPage_fits {s : State} {u : Unspecified} (h : u.Fits s) (hfull : s.noRoom = true) :
    u.Fits (allocPage s) := by
  refine ⟨h.started, fun q hq => h.tokens q ?_, h.out, h.eop⟩
  obtain ⟨hpage, hslot, hlast⟩ := mem_traversal.mp hq
  simp only [allocPage_npages, allocPage_left, allocPage_pageSize] at hpage hslot hlast
  have hroom := (noRoom_iff s).mp hfull
  exact mem_traversal.mpr ⟨by omega, hslot, by omega⟩

theorem tbAppend_readsDefined (w : TokWord) : ReadsDefined fun s => .next (tbAppend w s) := fun s _ h =>
  alike_next_ite (fun _ => .next h)
    (alike_next_ite
      (fun hfull => alike_next_ite (fun _ => .next (s := s.setTbError) h.congr)
        (.next (storeToken_fits w (allocPage_fits h hfull))))
      (.next (storeToken_fits w h)))

theorem record_readsDefined (i : Slot) (bit : Bool) : ReadsDefined (record i bit) := fun s _ h =>
  alike_ite (fun _ => alike_raiseFault _ _ _) (.next (s := { s with tally := _ }) h.congr)

theorem runDecision_readsDefined (d : Decision) : ReadsDefined (runDecision d) := fun s u h => by
  cases d with
  | dyn bit i => exact alike_andThen (tbAppend_readsDefined _ s u h) (record_readsDefined i bit)
  | const bit prob => exact tbAppend_readsDefined _ s u h

theorem runDecisions_readsDefined (ds : List Decision) : ReadsDefined (runDecisions ds) := by
  induction ds with
  | nil => exact fun s u h => .next h
  | cons d ds ih => exact fun s u h => alike_andThen (runDecision_readsDefined d s u h) ih

/-! ### Instructions and steps -/

theorem overlay_finalizeTable (s : State) (u : Unspecified) :
    finalizeTable (s.overlay u) = (finalizeTable s).overlay u := by
  simp only [finalizeTable, State.overlay, State.writeDirty, State.tallyAt]

/-- FINALIZE leaves a phase in which no EMIT of the frame has written a record. -/
theorem finalize_readsDefined : ReadsDefined fun s => .next (finalizeTable s) := fun s u h => by
  have hmoved : u.Fits { s with phase := .finalized } := ⟨nofun, h.tokens, h.out, by simp⟩
  simp only [overlay_finalizeTable]
  exact .next (hmoved.congr (finalizeTable_phase s) (finalizeTable_tok s) (finalizeTable_npages s)
    (finalizeTable_left s) (finalizeTable_pageSize s) (finalizeTable_pos s) (finalizeTable_out s) (finalizeTable_eop s))

theorem clear_fits {s : State} {u : Unspecified} (h : u.Fits s) :
    ({ u with tok := [] } : Unspecified).Fits (State.clearTbError (releasePages s)) :=
  ⟨h.started, fun _ hq => absurd hq not_mem_traversal_zero, h.out, h.eop⟩

/-- No instruction but INIT, which starts a frame, needs more than what the spec gives a value in the frame. -/
theorem exec_readsDefined {i : Instr} (hinit : ∀ psize, i ≠ .init psize) : ReadsDefined (exec i) := fun s u h => by
  cases i with
  | init psize => exact absurd rfl (hinit psize)
  | recblk ctx ctype first last co =>
    exact alike_ite (fun _ => alike_ite (fun _ => runDecisions_readsDefined _ s u h) (.refused rfl))
      (alike_refusePhase _ _)
  | appd bit slot =>
    simp only [exec, execAppd]
    split
    · exact .refused rfl
    · exact alike_ite (fun _ => tbAppend_readsDefined _ s u h) (alike_refusePhase _ _)
  | appc bit prob => exact alike_ite (fun _ => tbAppend_readsDefined _ s u h) (alike_refusePhase _ _)
  | tally bit slot =>
    simp only [exec, execTally]
    split
    · exact .refused rfl
    · exact alike_ite (fun _ => record_readsDefined _ bit s u h) (alike_refusePhase _ _)
  | finalize =>
    rw [exec, execFinalize_eq, exec, execFinalize_eq]
    exact alike_ite (fun _ => finalize_readsDefined s u h) (alike_refusePhase _ _)
  | estimate => exact alike_ite (fun _ => traverse_readsDefined _ s u h) (alike_refusePhase _ _)
  | emit => exact alike_ite (fun _ => traverse_readsDefined _ s u h) (alike_refusePhase _ _)
  | finish => exact execFinish_readsDefined s u h
  | clear => exact alike_ite (fun _ => alike_refusePhase _ _) (.next (clear_fits h))
  | tokDyn bit slot => exact execTokDyn_readsDefined bit slot s u h
  | tokConst bit prob => exact runBit_readsDefined bit prob s u h

/-- INIT gives every register and table a value, from whatever the state before holds. -/
theorem startFrame_sameDefined {s t : State} (psize : BitVec 24) (h : SameDefined s t) :
    SameDefined (startFrame psize s) (startFrame psize t) :=
  ⟨h.cfg, rfl, h.fault, h.refused, h.cmds, h.pass, fun _ =>
    ⟨rfl, rfl, rfl, rfl, rfl, rfl, fun _ hq => absurd hq not_mem_traversal_zero, rfl, rfl, rfl, rfl, rfl,
      congrArg Config.p0 h.cfg, fun k hk => absurd hk (Nat.not_lt_zero k), rfl, rfl,
      fun hp => by simp [startFrame] at hp⟩⟩

theorem isCommand_of_encode {i : Instr} {words : List CmdWord} (h : encode i = .command words) :
    isCommand i = true := by
  cases i with
  | tokDyn | tokConst => cases h
  | init | recblk | appd | appc | tally | finalize | estimate | emit | finish | clear => rfl

/-- What the core takes from the host's list is a command with its operands in range (30_encoding.md R72). -/
theorem command_of_fetch {cmds rest : List CmdWord} {i : Instr} (h : fetchCommand cmds = .command i rest) :
    isCommand i = true ∧ i.wellFormed = true := by
  cases cmds with
  | nil => cases h
  | cons w ws =>
    rw [fetchCommand] at h
    split at h
    next => cases h
    next hlen =>
      have hpos : 1 ≤ commandLength w := by unfold commandLength; split <;> decide
      have hdata : (ws.take (commandLength w - 1)).length + 1 = commandLength w := by
        rw [List.length_take]
        omega
      split at h
      next j hd =>
        cases h
        obtain ⟨hencode, hwf⟩ := encode_of_decodeCommand hdata hd
        exact ⟨isCommand_of_encode hencode, hwf⟩
      next => cases h

/-- A command in two states that agree: INIT reads nothing, before the first INIT no other is admitted, and after it
the states differ by an overlay. -/
theorem exec_outcomesAgree {i : Instr} {s t : State} (hcmd : isCommand i = true) (hwf : i.wellFormed = true)
    (h : SameDefined s t) : OutcomesAgree (exec i s) (exec i t) := by
  by_cases hinit : ∀ psize, i ≠ .init psize
  · by_cases hp : s.phase = .uninit
    · rw [exec_uninit hp hcmd hwf hinit, exec_uninit (h.phase.trans hp) hcmd hwf hinit]
      rfl
    · obtain ⟨u, rfl, hu⟩ := h.exists_overlay hp
      exact (exec_readsDefined hinit s u hu).outcomesAgree
  · push Not at hinit
    obtain ⟨psize, rfl⟩ := hinit
    exact startFrame_sameDefined psize h

theorem SameDefined.withCmds {s t : State} (h : SameDefined s t) (cmds : List CmdWord) :
    SameDefined { s with cmds := cmds } { t with cmds := cmds } :=
  { h with
    cmds := rfl
    frame := fun hp => { h.frame hp with } }

theorem stepCommand_outcomesAgree {s t : State} (h : SameDefined s t) :
    OutcomesAgree (stepCommand s) (stepCommand t) := by
  rw [stepCommand, stepCommand, h.cmds]
  split
  next => exact h
  next => rfl
  next i rest hfetch =>
    obtain ⟨hcmd, hwf⟩ := command_of_fetch hfetch
    exact exec_outcomesAgree hcmd hwf (h.withCmds rest)

theorem stepPass_readsDefined (p : Pass) : ReadsDefined (stepPass p) := fun s u h => by
  cases htodo : p.todo with
  | nil =>
    rw [stepPass_of_nil s htodo, stepPass_of_nil _ htodo]
    exact closePass_readsDefined s u h
  | cons w ts =>
    rw [stepPass_eq_runToken s htodo, stepPass_eq_runToken _ htodo]
    exact runToken_readsDefined w (s.advance ts) u h.congr

/-- Settles O11: a traversal is open only once a frame has started, and between commands the next one is taken. -/
theorem unspecifiedValuesNeverMatter : Obligations.UnspecifiedValuesNeverMatter := by
  intro s t hs h
  cases hpass : s.pass with
  | none =>
    simp only [step, h.pass, hpass]
    exact stepCommand_outcomesAgree h
  | some p =>
    have hp : s.phase ≠ .uninit := by rcases hs.phase_of_some hpass with hp | hp <;> simp [hp]
    rw [step_of_pass hpass, step_of_pass (h.pass.trans hpass)]
    obtain ⟨u, rfl, hu⟩ := h.exists_overlay hp
    exact (stepPass_readsDefined p s u hu).outcomesAgree

end Sys2Proof.Machine
